-- ==== Sys2Proof/Word.lean ====
section
/-! DEFINITION. The word types of the machine and the two readings of a 16-bit pattern (00_scope.md R8, R9). -/

namespace Sys2Proof

/-- A 16-bit pattern: what a register or an instruction word holds (R9, R30). -/
abbrev Word := BitVec 16

/-- What one memory address names (R70). -/
abbrev Byte := BitVec 8

/-- "a 4-bit field of a 16-bit instruction word" (R15). -/
abbrev Nib := BitVec 4

/-- A jump target, an absolute byte address 0 to 4095 (R117, R464). -/
abbrev Target := BitVec 12

/-- `s16(w)`: the pattern read as a two's-complement integer (R9). -/
abbrev s16 (w : Word) : Int := w.toInt

/-- `trunc16(z)`: the pattern whose unsigned value is `z mod 65536` (R9). -/
abbrev trunc16 (z : Int) : Word := BitVec.ofInt 16 z

end Sys2Proof
end

