-- ==== Sys2Proof/Syntax.lean ====
section
/-! DEFINITION. The instruction set as syntax: the 16 general registers (10_state.md R31), the ALU operations that
`sop` can wrap (30_encoding.md R120), and one constructor of `Instr` for each row of spec/opcode_table.json (R2). -/

namespace Sys2Proof

/-- The 16 general registers, in the order of their numbers 0 to 15 (R31). -/
inductive Reg where
  | t0 | t1 | t2 | t3 | t4 | t5
  | a0 | a1 | a2 | a3
  | rv | ra | fp | sp | bp | pc
  deriving DecidableEq, Repr, Inhabited

/-- The ALU operations, in the order of their numbers 0x0 to 0xE (R120).  Number 0xF marks the immediate form and
names no operation. -/
inductive AluOp where
  | add | sub | mul | div | mod | and | or | xor | shl | shr | min | max
  | not | lnot | neg
  deriving DecidableEq, Repr, Inhabited

/-- The decoded instruction, "a tagged variant decoded once from the raw word" (R103, R461).  Field names are those of
the formats of 30_encoding.md: `d` destination, `s` source or stack register, `r` left operand or target register,
`v` value register, `b` base, `o` offset, `t` target or value register, `n` 4-bit constant, `k` selector, `a` 12-bit
target; `imm` and `addr` are the second word W. -/
inductive Instr where
  /-- Copy a register (R201). -/
  | mov (d s : Reg)
  /-- Call a platform service (R202). -/
  | sys (k : Byte)
  /-- Add a constant 0 to 15 (R203). -/
  | inc (r : Reg) (n : Nib)
  /-- Subtract a constant 0 to 15 (R204). -/
  | dec (r : Reg) (n : Nib)
  /-- Set to a constant 0 to 15 (R205). -/
  | seti (r : Reg) (n : Nib)
  /-- No operation (R206). -/
  | nop
  /-- Addition (R254). -/
  | add (d s : Reg)
  /-- Subtraction (R255). -/
  | sub (d s : Reg)
  /-- Multiplication, low 16 bits (R256). -/
  | mul (d s : Reg)
  /-- Signed division toward zero (R257). -/
  | div (d s : Reg)
  /-- Signed remainder, sign of the dividend (R258). -/
  | mod (d s : Reg)
  /-- Bitwise and (R259). -/
  | and (d s : Reg)
  /-- Bitwise or (R260). -/
  | or (d s : Reg)
  /-- Bitwise exclusive or (R261). -/
  | xor (d s : Reg)
  /-- Shift left by a register count (R262). -/
  | shl (d s : Reg)
  /-- Arithmetic shift right by a register count (R263). -/
  | shr (d s : Reg)
  /-- Signed minimum (R264). -/
  | min (d s : Reg)
  /-- Signed maximum (R265). -/
  | max (d s : Reg)
  /-- Bitwise complement (R266). -/
  | not (d : Reg)
  /-- Logical not (R267). -/
  | lnot (d : Reg)
  /-- Two's-complement negation (R268). -/
  | neg (d : Reg)
  /-- `add` with an immediate (R270). -/
  | addi (d : Reg) (imm : Word)
  /-- `sub` with an immediate (R271). -/
  | subi (d : Reg) (imm : Word)
  /-- `mul` with an immediate (R272). -/
  | muli (d : Reg) (imm : Word)
  /-- `div` with an immediate (R273). -/
  | divi (d : Reg) (imm : Word)
  /-- `mod` with an immediate (R274). -/
  | modi (d : Reg) (imm : Word)
  /-- `and` with an immediate (R275). -/
  | andi (d : Reg) (imm : Word)
  /-- `or` with an immediate (R276). -/
  | ori (d : Reg) (imm : Word)
  /-- `xor` with an immediate (R277). -/
  | xori (d : Reg) (imm : Word)
  /-- `shl` with an immediate (R278). -/
  | shli (d : Reg) (imm : Word)
  /-- `shr` with an immediate (R279). -/
  | shri (d : Reg) (imm : Word)
  /-- `min` with an immediate (R280). -/
  | mini (d : Reg) (imm : Word)
  /-- `max` with an immediate (R281). -/
  | maxi (d : Reg) (imm : Word)
  /-- Push a register (R301). -/
  | push (v s : Reg)
  /-- Pop into a register (R302). -/
  | pop (v s : Reg)
  /-- Duplicate the top item (R303). -/
  | dup (s : Reg)
  /-- Exchange the top two items (R304). -/
  | swap (s : Reg)
  /-- Discard the top item (R305). -/
  | drop (s : Reg)
  /-- Push a copy of the second item (R306). -/
  | overItem (s : Reg)
  /-- Bring the third item to the top (R307). -/
  | rot (s : Reg)
  /-- ALU operation on the top of the stack (R308). -/
  | sop (f : AluOp) (s : Reg)
  /-- Push an immediate (R309). -/
  | pushi (imm : Word) (s : Reg)
  /-- Equal (R352). -/
  | eq (r s : Reg)
  /-- Not equal (R353). -/
  | neq (r s : Reg)
  /-- Signed greater than (R354). -/
  | gt (r s : Reg)
  /-- Signed greater than or equal (R355). -/
  | gte (r s : Reg)
  /-- Signed less than (R356). -/
  | lt (r s : Reg)
  /-- Signed less than or equal (R357). -/
  | lte (r s : Reg)
  /-- Equal, against a constant 0 to 15 (R358). -/
  | eqi (r : Reg) (n : Nib)
  /-- Not equal, against a constant 0 to 15 (R359). -/
  | neqi (r : Reg) (n : Nib)
  /-- Signed greater than, against a constant 0 to 15 (R360). -/
  | gti (r : Reg) (n : Nib)
  /-- Signed greater than or equal, against a constant 0 to 15 (R361). -/
  | gtei (r : Reg) (n : Nib)
  /-- Signed less than, against a constant 0 to 15 (R362). -/
  | lti (r : Reg) (n : Nib)
  /-- Signed less than or equal, against a constant 0 to 15 (R363). -/
  | ltei (r : Reg) (n : Nib)
  /-- Load word, register-indexed (R402). -/
  | lwr (b o t : Reg)
  /-- Load byte, register-indexed (R403). -/
  | lbr (b o t : Reg)
  /-- Store word, register-indexed (R404). -/
  | swr (b o t : Reg)
  /-- Store byte, register-indexed (R405). -/
  | sbr (b o t : Reg)
  /-- Load word, absolute (R406). -/
  | lw (t : Reg) (addr : Word)
  /-- Load word, absolute plus offset register (R407). -/
  | lwo (t o : Reg) (addr : Word)
  /-- Load byte, absolute (R408). -/
  | lb (t : Reg) (addr : Word)
  /-- Load byte, absolute plus offset register (R409). -/
  | lbo (t o : Reg) (addr : Word)
  /-- Store word, absolute (R410). -/
  | sw (t : Reg) (addr : Word)
  /-- Store word, absolute plus offset register (R411). -/
  | swo (t o : Reg) (addr : Word)
  /-- Store byte, absolute (R412). -/
  | sb (t : Reg) (addr : Word)
  /-- Store byte, absolute plus offset register (R413). -/
  | sbo (t o : Reg) (addr : Word)
  /-- Load immediate (R414). -/
  | li (t : Reg) (imm : Word)
  /-- Load address (R415). -/
  | la (t : Reg) (addr : Word)
  /-- Jump to a register; with `ra` the word is that of `ret` (R451). -/
  | jr (r : Reg)
  /-- Return, the alias of `jr ra` (R452). -/
  | ret
  /-- Jump (R453). -/
  | j (a : Target)
  /-- Jump if the test bit is clear (R454). -/
  | jz (a : Target)
  /-- Jump if the test bit is set (R455). -/
  | jnz (a : Target)
  /-- Jump and link (R456). -/
  | jal (a : Target)
  deriving DecidableEq, Repr

end Sys2Proof
end

