-- ==== Sys2Proof/Config.lean ====
section
/-! DEFINITION. The named parameters of 00_scope.md R7: those with a default the spec takes for the hardware are
constants with that value; those it leaves OPEN, and the answers of the host, are constants with no body, so that
nothing can be proved of their values. -/

namespace Sys2Proof

/-! ### Parameters with a default -/

/-- MISALIGNED_POLICY (R7, R76). -/
inductive MisalignedPolicy where
  /-- A word access at an odd address is like any other (the default). -/
  | allow
  /-- A word access at an odd address raises MemoryFault. -/
  | fault
  deriving DecidableEq, Repr

/-- BYTE_LOAD_EXTENSION (R7, R400). -/
inductive ByteExtension where
  | sign
  | zero
  deriving DecidableEq, Repr

/-- SHIFT_OUT_OF_RANGE (R7, R251). -/
inductive ShiftPolicy where
  /-- A count outside [0, 15] gives the saturated result (the default). -/
  | saturate
  /-- A negative count or one of 32 or more gives any 16-bit value. -/
  | draw
  deriving DecidableEq, Repr

/-- STRICT_UNUSED_FIELDS, default false (R7, D10). -/
def Config.strictUnusedFields : Bool := false

/-- MISALIGNED_POLICY, default allow (R7, D22). -/
def Config.misalignedPolicy : MisalignedPolicy := .allow

/-- BYTE_LOAD_EXTENSION, default sign (R7, D24). -/
def Config.byteExtension : ByteExtension := .sign

/-- SHIFT_OUT_OF_RANGE, default saturate (R7, D15). -/
def Config.shiftPolicy : ShiftPolicy := .saturate

/-- INITIAL_SP, default 4096 (R7, R604, C1). -/
def Config.initialSp : Word := 4096

/-! ### The host interface: what passes between the machine and the platform -/

/-- The platform services a selector can reach other than `exit` and `error`, which the machine performs itself (R520). -/
inductive HostService where
  | rstr | wstr | rchr | wchr | rint | wint | printf | atoi | rfile | cwd | chdir | dirent | rnd | sleep | timer
  | fbreset | fbrect | fbflush | joystick | scolor | memcopy | drawimg
  deriving DecidableEq, Repr, Inhabited

/-- What a `sys` selector selects (R202, R520). -/
inductive Service where
  /-- "process exit" (R202). -/
  | exit
  /-- "a terminal program-error report" (R521). -/
  | error
  /-- A service the host answers (R522). -/
  | host (h : HostService)
  deriving DecidableEq, Repr

/-- The registers arguments and results travel through, the only ones a service may write (R33, R522). -/
inductive ServiceReg where
  | a0 | a1 | a2 | a3 | rv
  deriving DecidableEq, Repr, Inhabited

/-- The width of a memory access (R77). -/
inductive Width where
  | byte
  | word
  deriving DecidableEq, Repr, Inhabited

/-- One thing the host asks for while it answers a service (R522). -/
inductive HostAction where
  /-- A memory read, range-checked. -/
  | read (a : Int) (n : Width)
  /-- A memory write, range-checked; a byte write stores the low 8 bits. -/
  | write (a : Int) (n : Width) (v : Word)
  /-- A new value for an argument or result register. -/
  | setReg (r : ServiceReg) (v : Word)
  deriving DecidableEq, Repr, Inhabited

/-- The host's answer to one service call (R522). -/
inductive HostAnswer where
  /-- (a): the accesses to memory and the new values of registers it asks for, in order. -/
  | values (actions : List HostAction)
  /-- (b): MemoryFault at an address. -/
  | memoryFault (a : Int)
  /-- (b): ServiceError. -/
  | serviceError
  deriving DecidableEq, Repr, Inhabited

/-- What the machine passes besides memory: the values of A0 to A3 and RV (R522). -/
structure ServiceArgs where
  a0 : Word
  a1 : Word
  a2 : Word
  a3 : Word
  rv : Word
  deriving DecidableEq, Repr

/-- A sprite: "width, height (≤500×200), a 1-bit-per-pixel transparency mask and a 2-bit-per-pixel color-index plane": one
mask bit and one color index for each pixel (R527). -/
structure Sprite where
  width : Fin 501
  height : Fin 201
  mask : Vector Bool (width.val * height.val)
  colors : Vector (BitVec 2) (width.val * height.val)
  deriving DecidableEq, Repr

/-- The executable container (R600): format tag, code and data as signed bytes -128 to 127, sprites. -/
structure Container where
  format : String
  code : List Int
  data : List Int
  sprites : List Sprite
  deriving DecidableEq, Repr

/-! ### Open parameters and free values -/

/-- SYSCALL_MAP for the selectors the default leaves OPEN (R520, D32): any assignment of services to numbers. -/
opaque Config.openSelector : Byte → Option HostService

/-- SYSCALL_MAP read backwards: the service of a selector, exit = 0x00 and error = 0xFF (R202, R520, D32). -/
def Config.serviceOf (k : Byte) : Option Service :=
  if k = 0x00 then some .exit
  else if k = 0xFF then some .error
  else (Config.openSelector k).map .host

/-- HOST, the answers to service calls (R522): any answer, to the n-th call of a run, with its service, its arguments,
the memory and the loaded sprites. -/
opaque Config.hostAnswer : Nat → HostService → ServiceArgs → List Host.Cell → List Sprite → HostAnswer

/-- Where the raw memory copy copies from and to, and how many bytes. -/
structure CopyArgs where
  src : Int
  dst : Int
  len : Nat
  deriving DecidableEq, Repr, Inhabited

/-- One thing the host does in a raw memory copy; bytes are named by their offset in the copy (R522, R524). -/
inductive CopyStep where
  /-- A source byte is read. -/
  | read (i : Nat)
  /-- A destination byte's address is checked. -/
  | check (i : Nat)
  /-- A destination byte is written, its source byte read before. -/
  | write (i : Nat)
  /-- An argument or result register is given a new value. -/
  | setReg (r : ServiceReg) (v : Word)
  deriving DecidableEq, Repr, Inhabited

/-- Part of SYSCALL_MAP: how the raw memory copy takes its operands from A0 to A3 and RV, which is "not in the source"
(R520, R524, N7). -/
opaque Config.copyArgs : ServiceArgs → CopyArgs

/-- HOST: the steps of a raw memory copy, in any order, for the n-th call of a run with its arguments and memory (R522, R524).
What they leave out of the copy is done after them. -/
opaque Config.copySteps : Nat → ServiceArgs → List Host.Cell → List CopyStep

/-- HOST: the byte a raw memory copy with overlapping ranges writes at an offset (R524, 93_implementation_defined.md I15). -/
opaque Config.overlapByte : Nat → ServiceArgs → List Host.Cell → Nat → Byte

/-- HOST, the window poll (R530, R620): whether the n-th poll reports the window closed. -/
opaque Config.windowClosed : Nat → Bool

/-- Part of SYSCALL_MAP: the register that holds the address of the formatted print's string (R520, R523, N8). -/
opaque Config.printfFormatReg : ServiceReg

/-- Part of SYSCALL_MAP: how the sprite draw takes the index of its sprite, counted from 0, from A0 to A3 and RV (R520, R527,
N7). -/
opaque Config.spriteIndex : ServiceArgs → Int

/-- SYSCALL_MAP (R7, R520, 93_implementation_defined.md I12): selector numbers and argument registers.  Its form, a service for
each selector, is the model's (log 4). -/
structure SyscallMap where
  /-- The service of a selector, if it has one. -/
  service : Byte → Option Service
  /-- The register that holds the address of the formatted print's string (N8). -/
  printfFormatReg : ServiceReg
  /-- The operands of the raw memory copy (R524). -/
  copyArgs : ServiceArgs → CopyArgs
  /-- The index of the sprite draw (R527). -/
  spriteIndex : ServiceArgs → Int

/-- The default SYSCALL_MAP: exit = 0x00, error = 0xFF, all else OPEN (R7, D32). -/
def Config.syscallMap : SyscallMap where
  service := Config.serviceOf
  printfFormatReg := Config.printfFormatReg
  copyArgs := Config.copyArgs
  spriteIndex := Config.spriteIndex

/-- Whether formatted print passes `%%` through as one unit, or looks for a specifier at the second `%` (R523, N8). -/
opaque Config.percentPairSkips : Bool

/-- The free draws of SHIFT_OUT_OF_RANGE = draw (R251). -/
opaque Config.shiftDraw : Nat → Word

/-- PULSE_CYCLES less one (R7, R620, D41). -/
opaque Config.pulseCyclesLessOne : Nat

/-- PULSE_CYCLES, a positive integer (R7, R620). -/
def Config.pulseCycles : Nat := Config.pulseCyclesLessOne + 1

/-- The sprite a file named by `.image` holds, if it can be read: the codec and the file are outside the spec (R5, R142). -/
opaque Config.importedSprite : List Byte → Option Sprite

/-- ARG_PLACEMENT (R7, R611, D40): the bytes a run-time argument puts into memory, for a container. -/
opaque Config.argPlacement : Container → List Byte → List Host.Cell

end Sys2Proof
end

