-- ==== Sys2Proof/WellFormed.lean ====
section
/-! DEFINITION. Which terms of `Instr` an instruction word can stand for.  The operand types admit only values a field
can hold, so one condition remains: the word 0x900B is shown and decoded as `ret`, never as `jr ra` (30_encoding.md
R124, R128; 45_control.md R452). -/

namespace Sys2Proof

/-- Every term but `jr ra` is the reading of some word; the word of `jr ra` is read as `ret` (R452). -/
def Instr.wellFormed : Instr → Bool
  | .jr r => decide (r ≠ .ra)
  | .mov .. | .sys .. | .inc .. | .dec .. | .seti .. | .nop | .add .. | .sub .. | .mul .. | .div .. | .mod ..
  | .and .. | .or .. | .xor .. | .shl .. | .shr .. | .min .. | .max .. | .not .. | .lnot .. | .neg ..
  | .addi .. | .subi .. | .muli .. | .divi .. | .modi .. | .andi .. | .ori .. | .xori .. | .shli ..
  | .shri .. | .mini .. | .maxi .. | .push .. | .pop .. | .dup .. | .swap .. | .drop .. | .overItem .. | .rot ..
  | .sop .. | .pushi .. | .eq .. | .neq .. | .gt .. | .gte .. | .lt .. | .lte .. | .eqi .. | .neqi ..
  | .gti .. | .gtei .. | .lti .. | .ltei .. | .lwr .. | .lbr .. | .swr .. | .sbr .. | .lw .. | .lwo ..
  | .lb .. | .lbo .. | .sw .. | .swo .. | .sb .. | .sbo .. | .li .. | .la .. | .ret | .j .. | .jz ..
  | .jnz .. | .jal .. => true

end Sys2Proof
end

