-- ==== Sys2Proof/Decode.lean ====
section
/-! DEFINITION. The instruction encoding of 30_encoding.md: byte order, fields, length, the decoder (total, rejecting by
name, R103, R125) and the encoder (what the assembler emits, canonical unused fields, R126). -/

namespace Sys2Proof

/-! ### Byte order and fields -/

/-- `{hi, lo}`: the word two bytes make, "high byte first" (R8, R74). -/
def joinBytes (hi lo : Byte) : Word := BitVec.ofNat 16 (256 * hi.toNat + lo.toNat)

/-- Bits 15:8 of a word, the byte stored at the lower address (R74). -/
def hiByte (w : Word) : Byte := BitVec.ofNat 8 (w.toNat / 256)

/-- Bits 7:0 of a word (R74). -/
def loByte (w : Word) : Byte := BitVec.ofNat 8 w.toNat

/-- The type nibble, bits 15:12 (R101). -/
def typeOf (w : Word) : Nib := BitVec.ofNat 4 (w.toNat / 4096)

/-- The opcode nibble, bits 11:8 (R103). -/
def opOf (w : Word) : Nib := BitVec.ofNat 4 (w.toNat / 256)

/-- The operand field in bits 7:4 (R103). -/
def fieldHi (w : Word) : Nib := BitVec.ofNat 4 (w.toNat / 16)

/-- The operand field in bits 3:0 (R103). -/
def fieldLo (w : Word) : Nib := BitVec.ofNat 4 w.toNat

/-- The 12-bit target of the jump types, bits 11:0 (R117). -/
def targetOf (w : Word) : Target := BitVec.ofNat 12 w.toNat

/-- `{a, b, c, d}`: the word with these four nibbles, `a` in bits 15:12 (R8). -/
def nibbles (a b c d : Nib) : Word :=
  BitVec.ofNat 16 (4096 * a.toNat + 256 * b.toNat + 16 * c.toNat + d.toNat)

/-- A register's number in a 4-bit field (R31). -/
def Reg.toNib : Reg → Nib
  | .t0 => 0 | .t1 => 1 | .t2 => 2 | .t3 => 3 | .t4 => 4 | .t5 => 5
  | .a0 => 6 | .a1 => 7 | .a2 => 8 | .a3 => 9
  | .rv => 10 | .ra => 11 | .fp => 12 | .sp => 13 | .bp => 14 | .pc => 15

/-- The register a 4-bit field names (R31); every number names one (R32). -/
def Reg.ofNib (n : Nib) : Reg :=
  match n.toNat with
  | 0 => .t0 | 1 => .t1 | 2 => .t2 | 3 => .t3 | 4 => .t4 | 5 => .t5
  | 6 => .a0 | 7 => .a1 | 8 => .a2 | 9 => .a3
  | 10 => .rv | 11 => .ra | 12 => .fp | 13 => .sp | 14 => .bp | _ => .pc

/-- The number of an ALU operation (R120). -/
def AluOp.toNib : AluOp → Nib
  | .add => 0 | .sub => 1 | .mul => 2 | .div => 3 | .mod => 4 | .and => 5 | .or => 6 | .xor => 7
  | .shl => 8 | .shr => 9 | .min => 10 | .max => 11 | .not => 12 | .lnot => 13 | .neg => 14

/-- The ALU operation a 4-bit number names; 0xF names none (R120). -/
def AluOp.ofNib (n : Nib) : Option AluOp :=
  match n.toNat with
  | 0 => some .add | 1 => some .sub | 2 => some .mul | 3 => some .div | 4 => some .mod | 5 => some .and
  | 6 => some .or | 7 => some .xor | 8 => some .shl | 9 => some .shr | 10 => some .min | 11 => some .max
  | 12 => some .not | 13 => some .lnot | 14 => some .neg | _ => none

/-- Whether an operation takes one operand (R120: op 0xC to 0xE). -/
def AluOp.unary : AluOp → Bool
  | .not | .lnot | .neg => true
  | .add | .sub | .mul | .div | .mod | .and | .or | .xor | .shl | .shr | .min | .max => false

/-! ### Length -/

/-- Whether a first word has a second word: 0x1F.., 0x2F.. and 0x80.. to 0x89.., from bits 15:8 alone (R102). -/
def doubleWord (w : Word) : Bool :=
  match (typeOf w).toNat with
  | 1 => decide ((opOf w).toNat = 15)
  | 2 => decide ((opOf w).toNat = 15)
  | 8 => decide ((opOf w).toNat ≤ 9)
  | _ => false

/-! ### Decoder -/

/-- Why a first word is illegal (R125).  All are one exception, IllegalInstruction (R505); the names tell them apart. -/
inductive Illegal where
  /-- Type 0xA or 0xB (R457). -/
  | reservedType
  /-- MISC opcode 0x5 to 0xE (R119). -/
  | reservedMisc
  /-- ALU immediate form with `f` in 0xC to 0xF (R282). -/
  | immediateOp
  /-- STACK opcode 0x8 to 0xE (R310). -/
  | reservedStack
  /-- `sop` with `f = 0xF` (R310). -/
  | stackOp
  /-- TEST opcode 0x6, 0x7, 0xE or 0xF (R122). -/
  | reservedTest
  /-- LOAD opcode 0xA to 0xF (R416). -/
  | reservedLoad
  /-- A nonzero unused field, only under STRICT_UNUSED_FIELDS (R125, R126). -/
  | unusedField
  deriving DecidableEq, Repr

/-- What decoding a first word gives (R103). -/
inductive Decoded where
  | ok (i : Instr)
  | illegal (e : Illegal)
  deriving DecidableEq, Repr

/-- Type 0x0 (R104 to R107, R119). -/
def decodeMisc (w : Word) : Decoded :=
  match (opOf w).toNat with
  | 0 => .ok (.mov (.ofNib (fieldHi w)) (.ofNib (fieldLo w)))
  | 1 => .ok (.sys (loByte w))
  | 2 => .ok (.inc (.ofNib (fieldHi w)) (fieldLo w))
  | 3 => .ok (.dec (.ofNib (fieldHi w)) (fieldLo w))
  | 4 => .ok (.seti (.ofNib (fieldHi w)) (fieldLo w))
  | 15 => .ok .nop
  | _ => .illegal .reservedMisc

/-- The ALU immediate form, first word 0x1Fdf (R110, R120). -/
def decodeAluImm (d : Reg) (f : Nib) (imm : Word) : Decoded :=
  match f.toNat with
  | 0 => .ok (.addi d imm)
  | 1 => .ok (.subi d imm)
  | 2 => .ok (.muli d imm)
  | 3 => .ok (.divi d imm)
  | 4 => .ok (.modi d imm)
  | 5 => .ok (.andi d imm)
  | 6 => .ok (.ori d imm)
  | 7 => .ok (.xori d imm)
  | 8 => .ok (.shli d imm)
  | 9 => .ok (.shri d imm)
  | 10 => .ok (.mini d imm)
  | 11 => .ok (.maxi d imm)
  | _ => .illegal .immediateOp

/-- Type 0x1 (R108 to R110, R120). -/
def decodeAlu (w imm : Word) : Decoded :=
  match (opOf w).toNat with
  | 0 => .ok (.add (.ofNib (fieldHi w)) (.ofNib (fieldLo w)))
  | 1 => .ok (.sub (.ofNib (fieldHi w)) (.ofNib (fieldLo w)))
  | 2 => .ok (.mul (.ofNib (fieldHi w)) (.ofNib (fieldLo w)))
  | 3 => .ok (.div (.ofNib (fieldHi w)) (.ofNib (fieldLo w)))
  | 4 => .ok (.mod (.ofNib (fieldHi w)) (.ofNib (fieldLo w)))
  | 5 => .ok (.and (.ofNib (fieldHi w)) (.ofNib (fieldLo w)))
  | 6 => .ok (.or (.ofNib (fieldHi w)) (.ofNib (fieldLo w)))
  | 7 => .ok (.xor (.ofNib (fieldHi w)) (.ofNib (fieldLo w)))
  | 8 => .ok (.shl (.ofNib (fieldHi w)) (.ofNib (fieldLo w)))
  | 9 => .ok (.shr (.ofNib (fieldHi w)) (.ofNib (fieldLo w)))
  | 10 => .ok (.min (.ofNib (fieldHi w)) (.ofNib (fieldLo w)))
  | 11 => .ok (.max (.ofNib (fieldHi w)) (.ofNib (fieldLo w)))
  | 12 => .ok (.not (.ofNib (fieldHi w)))
  | 13 => .ok (.lnot (.ofNib (fieldHi w)))
  | 14 => .ok (.neg (.ofNib (fieldHi w)))
  | _ => decodeAluImm (.ofNib (fieldHi w)) (fieldLo w) imm

/-- `sop`, whose `f` names the wrapped operation (R112, R120). -/
def decodeSop (f : Nib) (s : Reg) : Decoded :=
  match AluOp.ofNib f with
  | some op => .ok (.sop op s)
  | none => .illegal .stackOp

/-- Type 0x2 (R111, R112, R121). -/
def decodeStack (w imm : Word) : Decoded :=
  match (opOf w).toNat with
  | 0 => .ok (.push (.ofNib (fieldHi w)) (.ofNib (fieldLo w)))
  | 1 => .ok (.pop (.ofNib (fieldHi w)) (.ofNib (fieldLo w)))
  | 2 => .ok (.dup (.ofNib (fieldLo w)))
  | 3 => .ok (.swap (.ofNib (fieldLo w)))
  | 4 => .ok (.drop (.ofNib (fieldLo w)))
  | 5 => .ok (.overItem (.ofNib (fieldLo w)))
  | 6 => .ok (.rot (.ofNib (fieldLo w)))
  | 7 => decodeSop (fieldHi w) (.ofNib (fieldLo w))
  | 15 => .ok (.pushi imm (.ofNib (fieldLo w)))
  | _ => .illegal .reservedStack

/-- Type 0x3 (R113, R122). -/
def decodeTest (w : Word) : Decoded :=
  match (opOf w).toNat with
  | 0 => .ok (.eq (.ofNib (fieldHi w)) (.ofNib (fieldLo w)))
  | 1 => .ok (.neq (.ofNib (fieldHi w)) (.ofNib (fieldLo w)))
  | 2 => .ok (.gt (.ofNib (fieldHi w)) (.ofNib (fieldLo w)))
  | 3 => .ok (.gte (.ofNib (fieldHi w)) (.ofNib (fieldLo w)))
  | 4 => .ok (.lt (.ofNib (fieldHi w)) (.ofNib (fieldLo w)))
  | 5 => .ok (.lte (.ofNib (fieldHi w)) (.ofNib (fieldLo w)))
  | 8 => .ok (.eqi (.ofNib (fieldHi w)) (fieldLo w))
  | 9 => .ok (.neqi (.ofNib (fieldHi w)) (fieldLo w))
  | 10 => .ok (.gti (.ofNib (fieldHi w)) (fieldLo w))
  | 11 => .ok (.gtei (.ofNib (fieldHi w)) (fieldLo w))
  | 12 => .ok (.lti (.ofNib (fieldHi w)) (fieldLo w))
  | 13 => .ok (.ltei (.ofNib (fieldHi w)) (fieldLo w))
  | _ => .illegal .reservedTest

/-- Type 0x8 (R115, R123). -/
def decodeLoad (w addr : Word) : Decoded :=
  match (opOf w).toNat with
  | 0 => .ok (.lw (.ofNib (fieldHi w)) addr)
  | 1 => .ok (.lwo (.ofNib (fieldHi w)) (.ofNib (fieldLo w)) addr)
  | 2 => .ok (.lb (.ofNib (fieldHi w)) addr)
  | 3 => .ok (.lbo (.ofNib (fieldHi w)) (.ofNib (fieldLo w)) addr)
  | 4 => .ok (.sw (.ofNib (fieldHi w)) addr)
  | 5 => .ok (.swo (.ofNib (fieldHi w)) (.ofNib (fieldLo w)) addr)
  | 6 => .ok (.sb (.ofNib (fieldHi w)) addr)
  | 7 => .ok (.sbo (.ofNib (fieldHi w)) (.ofNib (fieldLo w)) addr)
  | 8 => .ok (.li (.ofNib (fieldHi w)) addr)
  | 9 => .ok (.la (.ofNib (fieldHi w)) addr)
  | _ => .illegal .reservedLoad

/-- Type 0x9: `ret` exactly when the low nibble is `ra` (R116, R124, R452). -/
def decodeJr (w : Word) : Decoded :=
  match Reg.ofNib (fieldLo w) with
  | .ra => .ok .ret
  | r => .ok (.jr r)

/-- The reading of a first word `w` and the 16-bit word in DR, unused fields ignored (R101, R103, R461). -/
def decodeLenient (w dr : Word) : Decoded :=
  match (typeOf w).toNat with
  | 0 => decodeMisc w
  | 1 => decodeAlu w dr
  | 2 => decodeStack w dr
  | 3 => decodeTest w
  | 4 => .ok (.lwr (.ofNib (opOf w)) (.ofNib (fieldHi w)) (.ofNib (fieldLo w)))
  | 5 => .ok (.lbr (.ofNib (opOf w)) (.ofNib (fieldHi w)) (.ofNib (fieldLo w)))
  | 6 => .ok (.swr (.ofNib (opOf w)) (.ofNib (fieldHi w)) (.ofNib (fieldLo w)))
  | 7 => .ok (.sbr (.ofNib (opOf w)) (.ofNib (fieldHi w)) (.ofNib (fieldLo w)))
  | 8 => decodeLoad w dr
  | 9 => decodeJr w
  | 12 => .ok (.j (targetOf w))
  | 13 => .ok (.jz (targetOf w))
  | 14 => .ok (.jnz (targetOf w))
  | 15 => .ok (.jal (targetOf w))
  | _ => .illegal .reservedType

/-- Whether an unused field of `w`, other than those of `nop`, is nonzero (R109, R112, R115, R116, R125). -/
def unusedNonzero (w : Word) : Bool :=
  match (typeOf w).toNat with
  | 1 => decide (12 ≤ (opOf w).toNat ∧ (opOf w).toNat ≤ 14 ∧ fieldLo w ≠ 0)
  | 2 => decide ((2 ≤ (opOf w).toNat ∧ (opOf w).toNat ≤ 6 ∨ (opOf w).toNat = 15) ∧ fieldHi w ≠ 0)
  | 8 => decide ((opOf w).toNat ∈ [0, 2, 4, 6, 8, 9] ∧ fieldLo w ≠ 0)
  | 9 => decide (opOf w ≠ 0 ∨ fieldHi w ≠ 0)
  | _ => false

/-- Decoding for either value of STRICT_UNUSED_FIELDS (R7, R125, R126). -/
def decodeWith (strict : Bool) (w dr : Word) : Decoded :=
  if strict && unusedNonzero w then .illegal .unusedField else decodeLenient w dr

/-- `decode(IR)` with the second word in DR (R460, R461). -/
def decode (w dr : Word) : Decoded := decodeWith Config.strictUnusedFields w dr

/-! ### Encoder -/

/-- The words of an instruction, first word first, unused fields canonical (R104 to R117, R126). -/
def encode : Instr → List Word
  | .mov d s => [nibbles 0x0 0x0 d.toNib s.toNib]
  | .sys k => [BitVec.ofNat 16 (0x0100 + k.toNat)]
  | .inc r n => [nibbles 0x0 0x2 r.toNib n]
  | .dec r n => [nibbles 0x0 0x3 r.toNib n]
  | .seti r n => [nibbles 0x0 0x4 r.toNib n]
  | .nop => [0x0FFF]
  | .add d s => [nibbles 0x1 0x0 d.toNib s.toNib]
  | .sub d s => [nibbles 0x1 0x1 d.toNib s.toNib]
  | .mul d s => [nibbles 0x1 0x2 d.toNib s.toNib]
  | .div d s => [nibbles 0x1 0x3 d.toNib s.toNib]
  | .mod d s => [nibbles 0x1 0x4 d.toNib s.toNib]
  | .and d s => [nibbles 0x1 0x5 d.toNib s.toNib]
  | .or d s => [nibbles 0x1 0x6 d.toNib s.toNib]
  | .xor d s => [nibbles 0x1 0x7 d.toNib s.toNib]
  | .shl d s => [nibbles 0x1 0x8 d.toNib s.toNib]
  | .shr d s => [nibbles 0x1 0x9 d.toNib s.toNib]
  | .min d s => [nibbles 0x1 0xA d.toNib s.toNib]
  | .max d s => [nibbles 0x1 0xB d.toNib s.toNib]
  | .not d => [nibbles 0x1 0xC d.toNib 0x0]
  | .lnot d => [nibbles 0x1 0xD d.toNib 0x0]
  | .neg d => [nibbles 0x1 0xE d.toNib 0x0]
  | .addi d imm => [nibbles 0x1 0xF d.toNib 0x0, imm]
  | .subi d imm => [nibbles 0x1 0xF d.toNib 0x1, imm]
  | .muli d imm => [nibbles 0x1 0xF d.toNib 0x2, imm]
  | .divi d imm => [nibbles 0x1 0xF d.toNib 0x3, imm]
  | .modi d imm => [nibbles 0x1 0xF d.toNib 0x4, imm]
  | .andi d imm => [nibbles 0x1 0xF d.toNib 0x5, imm]
  | .ori d imm => [nibbles 0x1 0xF d.toNib 0x6, imm]
  | .xori d imm => [nibbles 0x1 0xF d.toNib 0x7, imm]
  | .shli d imm => [nibbles 0x1 0xF d.toNib 0x8, imm]
  | .shri d imm => [nibbles 0x1 0xF d.toNib 0x9, imm]
  | .mini d imm => [nibbles 0x1 0xF d.toNib 0xA, imm]
  | .maxi d imm => [nibbles 0x1 0xF d.toNib 0xB, imm]
  | .push v s => [nibbles 0x2 0x0 v.toNib s.toNib]
  | .pop v s => [nibbles 0x2 0x1 v.toNib s.toNib]
  | .dup s => [nibbles 0x2 0x2 0x0 s.toNib]
  | .swap s => [nibbles 0x2 0x3 0x0 s.toNib]
  | .drop s => [nibbles 0x2 0x4 0x0 s.toNib]
  | .overItem s => [nibbles 0x2 0x5 0x0 s.toNib]
  | .rot s => [nibbles 0x2 0x6 0x0 s.toNib]
  | .sop f s => [nibbles 0x2 0x7 f.toNib s.toNib]
  | .pushi imm s => [nibbles 0x2 0xF 0x0 s.toNib, imm]
  | .eq r s => [nibbles 0x3 0x0 r.toNib s.toNib]
  | .neq r s => [nibbles 0x3 0x1 r.toNib s.toNib]
  | .gt r s => [nibbles 0x3 0x2 r.toNib s.toNib]
  | .gte r s => [nibbles 0x3 0x3 r.toNib s.toNib]
  | .lt r s => [nibbles 0x3 0x4 r.toNib s.toNib]
  | .lte r s => [nibbles 0x3 0x5 r.toNib s.toNib]
  | .eqi r n => [nibbles 0x3 0x8 r.toNib n]
  | .neqi r n => [nibbles 0x3 0x9 r.toNib n]
  | .gti r n => [nibbles 0x3 0xA r.toNib n]
  | .gtei r n => [nibbles 0x3 0xB r.toNib n]
  | .lti r n => [nibbles 0x3 0xC r.toNib n]
  | .ltei r n => [nibbles 0x3 0xD r.toNib n]
  | .lwr b o t => [nibbles 0x4 b.toNib o.toNib t.toNib]
  | .lbr b o t => [nibbles 0x5 b.toNib o.toNib t.toNib]
  | .swr b o t => [nibbles 0x6 b.toNib o.toNib t.toNib]
  | .sbr b o t => [nibbles 0x7 b.toNib o.toNib t.toNib]
  | .lw t addr => [nibbles 0x8 0x0 t.toNib 0x0, addr]
  | .lwo t o addr => [nibbles 0x8 0x1 t.toNib o.toNib, addr]
  | .lb t addr => [nibbles 0x8 0x2 t.toNib 0x0, addr]
  | .lbo t o addr => [nibbles 0x8 0x3 t.toNib o.toNib, addr]
  | .sw t addr => [nibbles 0x8 0x4 t.toNib 0x0, addr]
  | .swo t o addr => [nibbles 0x8 0x5 t.toNib o.toNib, addr]
  | .sb t addr => [nibbles 0x8 0x6 t.toNib 0x0, addr]
  | .sbo t o addr => [nibbles 0x8 0x7 t.toNib o.toNib, addr]
  | .li t imm => [nibbles 0x8 0x8 t.toNib 0x0, imm]
  | .la t addr => [nibbles 0x8 0x9 t.toNib 0x0, addr]
  | .jr r => [nibbles 0x9 0x0 0x0 r.toNib]
  | .ret => [0x900B]
  | .j a => [BitVec.ofNat 16 (0xC000 + a.toNat)]
  | .jz a => [BitVec.ofNat 16 (0xD000 + a.toNat)]
  | .jnz a => [BitVec.ofNat 16 (0xE000 + a.toNat)]
  | .jal a => [BitVec.ofNat 16 (0xF000 + a.toNat)]

/-- The word the assembler emits for what `w` decodes to: unused fields at their canonical value, 0xF in each nibble of
`nop` and 0 elsewhere (R126). -/
def canonicalWord (w : Word) : Word :=
  match (typeOf w).toNat, (opOf w).toNat with
  | 0, 15 => 0x0FFF
  | 1, 12 | 1, 13 | 1, 14 => nibbles (typeOf w) (opOf w) (fieldHi w) 0
  | 2, 2 | 2, 3 | 2, 4 | 2, 5 | 2, 6 | 2, 15 => nibbles (typeOf w) (opOf w) 0 (fieldLo w)
  | 8, 0 | 8, 2 | 8, 4 | 8, 6 | 8, 8 | 8, 9 => nibbles (typeOf w) (opOf w) (fieldHi w) 0
  | 9, _ => nibbles (typeOf w) 0 0 (fieldLo w)
  | _, _ => w

/-! ### The encoding map and the other parameters -/

/-- ENCODING_MAP, "the type, opcode and field assignment" (R7): the length it gives a first word, the reading of a first word
and the word in DR, the first words with a nonzero unused field, and the words of an instruction. -/
structure EncodingMap where
  doubleWord : Word → Bool
  decode : Word → Word → Decoded
  unusedNonzero : Word → Bool
  encode : Instr → List Word

/-- "the map of 30_encoding.md", the default (R7, D2 to D9). -/
def EncodingMap.spec : EncodingMap where
  doubleWord := Sys2Proof.doubleWord
  decode := decodeLenient
  unusedNonzero := Sys2Proof.unusedNonzero
  encode := Sys2Proof.encode

/-- The parameters of R7 that have a default, as one named argument of the machine; the OPEN ones, and what the default
SYSCALL_MAP leaves OPEN, are constants of Config. -/
structure Params where
  /-- ENCODING_MAP. -/
  encoding : EncodingMap
  /-- STRICT_UNUSED_FIELDS. -/
  strictUnusedFields : Bool
  /-- SHIFT_OUT_OF_RANGE. -/
  shiftPolicy : ShiftPolicy
  /-- MISALIGNED_POLICY. -/
  misalignedPolicy : MisalignedPolicy
  /-- BYTE_LOAD_EXTENSION. -/
  byteExtension : ByteExtension
  /-- INITIAL_SP. -/
  initialSp : Word
  /-- SYSCALL_MAP. -/
  syscalls : SyscallMap

/-- Every parameter at the default the spec takes for the hardware (R7). -/
def Config.params : Params where
  encoding := .spec
  strictUnusedFields := Config.strictUnusedFields
  shiftPolicy := Config.shiftPolicy
  misalignedPolicy := Config.misalignedPolicy
  byteExtension := Config.byteExtension
  initialSp := Config.initialSp
  syscalls := Config.syscallMap

/-- `decode(IR)` with the second word in DR, under given parameters (R7, R125, R126, R460, R461). -/
def Params.decode (p : Params) (w dr : Word) : Decoded :=
  if p.strictUnusedFields && p.encoding.unusedNonzero w then .illegal .unusedField else p.encoding.decode w dr

/-! ### Bytes -/

/-- The bytes of a list of words, each high byte first (R74, R100). -/
def bytesOf : List Word → List Byte
  | [] => []
  | w :: ws => hiByte w :: loByte w :: bytesOf ws

/-- The bytes of an instruction as memory holds them (R74). -/
def encodeBytes (i : Instr) : List Byte := bytesOf (encode i)

/-- What decoding a byte sequence gives. -/
inductive DecodedBytes where
  /-- The first instruction and the bytes after it. -/
  | ok (i : Instr) (rest : List Byte)
  /-- The first word is illegal (R125). -/
  | illegal (e : Illegal)
  /-- The bytes end within the instruction. -/
  | truncated
  deriving DecidableEq, Repr

/-- Decoding of any byte sequence: the length from the first word alone, then the reading (R102, R103). -/
def decodeBytes : List Byte → DecodedBytes
  | hi :: lo :: rest =>
    let w := joinBytes hi lo
    if doubleWord w then
      match rest with
      | hi' :: lo' :: rest' =>
        match decode w (joinBytes hi' lo') with
        | .ok i => .ok i rest'
        | .illegal e => .illegal e
      | _ => .truncated
    else
      match decode w 0 with
      | .ok i => .ok i rest
      | .illegal e => .illegal e
  | _ => .truncated

/-- The first `nbits` bits of `w`, bit 0 the least significant bit of the first word, as the two words of the longest
instruction laid out in memory order. -/
def tableBytes (nbits w : Nat) : List Byte :=
  bytesOf [BitVec.ofNat 16 (w % 2 ^ nbits), BitVec.ofNat 16 (w % 2 ^ nbits / 65536)]

/-- What the decoder reads from a row's bits, numbered as spec/opcode_table.json numbers them. -/
def decodeTableWord (nbits w : Nat) : Option Instr :=
  match decodeBytes (tableBytes nbits w) with
  | .ok i _ => some i
  | _ => none

end Sys2Proof
end

