-- ==== Sys2Proof/Machine/State.lean ====
section
/-! DEFINITION. The state of the machine (10_state.md), its reset value, and the reasons a step can stop.  State is plain
data; INVENTORY.md lists every field with the rule that names it. -/

namespace Sys2Proof.Machine

/-- The memory in canonical form: the bytes that differ from what an unlisted address reads as, by rising address (R70). -/
abbrev Memory := List Host.Cell

/-- The 16 general registers, each under its own name (R30, R31). -/
structure RegFile where
  t0 : Word
  t1 : Word
  t2 : Word
  t3 : Word
  t4 : Word
  t5 : Word
  a0 : Word
  a1 : Word
  a2 : Word
  a3 : Word
  rv : Word
  ra : Word
  fp : Word
  sp : Word
  bp : Word
  pc : Word
  deriving DecidableEq, Repr

/-- The machine status (R50). -/
inductive Status where
  | ready
  | executing
  | finished
  | permanentError
  | defect
  deriving DecidableEq, Repr

/-- Why a machine is FINISHED (R51). -/
inductive FinishCause where
  | exit
  | hostStop
  deriving DecidableEq, Repr

/-- The causes of the fault record (R501). -/
inductive FaultCause where
  | none
  | memoryFault
  | programError
  | illegalInstruction
  | divideByZero
  | serviceError
  deriving DecidableEq, Repr

/-- The fault record, a pair (cause, info); a memory fault's info is a mathematical integer (R52, R501). -/
structure FaultRecord where
  cause : FaultCause
  info : Int
  deriving DecidableEq, Repr

/-- The whole state of the machine (10_state.md). -/
structure State where
  /-- The general registers (R30, R31). -/
  regs : RegFile
  /-- The instruction register (R41). -/
  ir : Word
  /-- The data register: the second word, or 0 (R42). -/
  dr : Word
  /-- The last code byte index (R43). -/
  cb : Word
  /-- The last data byte index (R44). -/
  db : Word
  /-- The I/O latch (R45). -/
  io : Word
  /-- FLAGS; bit 0 is T (R38). -/
  flags : Word
  /-- The 4096 bytes of memory (R70). -/
  mem : Memory
  /-- READY, EXECUTING, FINISHED, PERMANENT_ERROR or DEFECT (R50). -/
  status : Status
  /-- Why the machine is FINISHED (R51). -/
  finishCause : Option FinishCause
  /-- The fault record (R52). -/
  fault : FaultRecord
  /-- The message the error service handed to the host (R521). -/
  errorMessage : Option (List Byte)
  /-- The pulse counter of the run loop (R53, R620). -/
  pulse : Nat
  /-- The model's own: how many times the run loop has polled the window (R620). -/
  sleeps : Nat
  /-- The model's own: how many service calls the host has answered (R522). -/
  hostCalls : Nat
  /-- The model's own: how many free shift results have been drawn (R251). -/
  shiftDraws : Nat
  /-- The loaded sprites, held by the platform (R54). -/
  sprites : List Sprite
  deriving DecidableEq, Repr

/-- Reasons a step ends without a next state because the machine stops: there are none.  Every fault of the spec halts
the machine in a state that holds the fault record (R500, R501), which is a next state, and a halted machine steps to
itself (R462); see notes/assumptions/2.md. -/
inductive Fault
  deriving DecidableEq, Repr

/-- Reasons for which the model gives an instruction no meaning. -/
inductive Refusal where
  /-- Raised only by an arm of `exec` whose instruction has no meaning yet; no arm does.  Safe: nothing can be proved of
  what the instruction would do. -/
  | notModelled (mnemonic : String)
  deriving DecidableEq, Repr

/-- What one step gives. -/
abbrev Result := Host.Outcome State Fault Refusal

/-- The machine right after reset: the load of an empty container (R55, R601; notes/assumptions/1.md).  Memory is zero, IR
is the word at address 0, CB = DB = -1, BP = 0, SP = INITIAL_SP. -/
def State.reset : State where
  regs :=
    { t0 := 0, t1 := 0, t2 := 0, t3 := 0, t4 := 0, t5 := 0, a0 := 0, a1 := 0, a2 := 0, a3 := 0, rv := 0, ra := 0, fp := 0
      sp := Config.initialSp, bp := 0, pc := 0 }
  ir := 0
  dr := 0
  cb := 0xFFFF
  db := 0xFFFF
  io := 0
  flags := 0
  mem := []
  status := .ready
  finishCause := none
  fault := { cause := .none, info := 0 }
  errorMessage := none
  pulse := 0
  sleeps := 0
  hostCalls := 0
  shiftDraws := 0
  sprites := []

end Sys2Proof.Machine
end

