-- ==== Sys2Proof/Machine/Ops.lean ====
section
/-! DEFINITION. The shared operations over registers, memory and status: register access (R10), the memory bus (R11, R72
to R77), taking a fault (R500, R501) and the fetch (R460).  There is no return from a fault beside taking one: every
fault is terminal (R512, R516). -/

namespace Sys2Proof.Machine

/-! ### Registers -/

/-- `x[r]` (R10, R32). -/
def RegFile.read (f : RegFile) : Reg → Word
  | .t0 => f.t0 | .t1 => f.t1 | .t2 => f.t2 | .t3 => f.t3 | .t4 => f.t4 | .t5 => f.t5
  | .a0 => f.a0 | .a1 => f.a1 | .a2 => f.a2 | .a3 => f.a3
  | .rv => f.rv | .ra => f.ra | .fp => f.fp | .sp => f.sp | .bp => f.bp | .pc => f.pc

/-- `x[r] <- v` (R10, R32). -/
def RegFile.write (f : RegFile) (r : Reg) (v : Word) : RegFile :=
  match r with
  | .t0 => { f with t0 := v } | .t1 => { f with t1 := v } | .t2 => { f with t2 := v } | .t3 => { f with t3 := v }
  | .t4 => { f with t4 := v } | .t5 => { f with t5 := v } | .a0 => { f with a0 := v } | .a1 => { f with a1 := v }
  | .a2 => { f with a2 := v } | .a3 => { f with a3 := v } | .rv => { f with rv := v } | .ra => { f with ra := v }
  | .fp => { f with fp := v } | .sp => { f with sp := v } | .bp => { f with bp := v } | .pc => { f with pc := v }

/-- `x[r]` of the machine (R10). -/
def State.read (s : State) (r : Reg) : Word := s.regs.read r

/-- `x[r] <- v` on the machine; with `r = pc` it is a jump (R10, R35). -/
def State.write (s : State) (r : Reg) (v : Word) : State := { s with regs := s.regs.write r v }

/-! ### Memory -/

/-- How many bytes memory has, at addresses 0 to 4095 (R70). -/
def memorySize : Nat := 4096

/-- What an address the list does not hold reads as: "memory is zero-filled" (R55, R601). -/
def Memory.unlisted : Byte := 0

/-- The byte at an address (R11). -/
def Memory.readByte (m : Memory) (a : Nat) : Byte :=
  match m with
  | [] => Memory.unlisted
  | (b, v) :: rest => if a = b then v else Memory.readByte rest a

/-- Store a byte, keeping the canonical form: a byte equal to what an unlisted address reads as is not listed (R11). -/
def Memory.writeByte (m : Memory) (a : Nat) (v : Byte) : Memory :=
  match m with
  | [] => if v = Memory.unlisted then [] else [(a, v)]
  | (b, x) :: rest =>
    if a < b then (if v = Memory.unlisted then (b, x) :: rest else (a, v) :: (b, x) :: rest)
    else if a = b then (if v = Memory.unlisted then rest else (a, v) :: rest)
    else (b, x) :: Memory.writeByte rest a v

/-- The canonical form from address `lo` up: addresses strictly rising, inside memory, no listed byte equal to what an
unlisted address reads as. -/
def Memory.wfFrom (lo : Nat) (m : Memory) : Bool :=
  match m with
  | [] => true
  | (a, v) :: rest =>
    decide (lo ≤ a) && decide (a < memorySize) && decide (v ≠ Memory.unlisted) && Memory.wfFrom (a + 1) rest

/-- The memory is in canonical form. -/
def Memory.wf (m : Memory) : Bool := Memory.wfFrom 0 m

/-- The word at an address, the byte at the lower address first (R11, R74). -/
def Memory.readWord (m : Memory) (a : Nat) : Word := joinBytes (m.readByte a) (m.readByte (a + 1))

/-- Store a word, its high byte at the lower address (R11, R74). -/
def Memory.writeWord (m : Memory) (a : Nat) (v : Word) : Memory :=
  (m.writeByte a (hiByte v)).writeByte (a + 1) (loByte v)

/-- Store consecutive bytes from an address up; what would lie outside memory is not stored. -/
def Memory.writeBytes (m : Memory) (a : Nat) : List Byte → Memory
  | [] => m
  | v :: vs => Memory.writeBytes (if a < memorySize then m.writeByte a v else m) (a + 1) vs

/-! ### Taking a fault -/

/-- The code of a fault cause (R501). -/
def FaultCause.code : FaultCause → Nat
  | .none => 0
  | .memoryFault => 1
  | .programError => 2
  | .illegalInstruction => 3
  | .divideByZero => 4
  | .serviceError => 5

/-- The halt status of a fault cause; NONE halts nothing (R501). -/
def FaultCause.haltStatus : FaultCause → Option Status
  | .none => Option.none
  | .illegalInstruction => some .defect
  | .memoryFault | .programError | .divideByZero | .serviceError => some .permanentError

/-- `raise E(info)`: write the fault record and set status to the halt status of the cause; every write made before stays
(R12, R500, R501).  Nothing is saved and control goes nowhere (R515). -/
def State.raise (s : State) (cause : FaultCause) (info : Int) : State :=
  match cause.haltStatus with
  | Option.none => s
  | some st => { s with status := st, fault := { cause := cause, info := info } }

/-- `halt FINISHED(cause)` (R12, R51). -/
def State.finish (s : State) (cause : FinishCause) : State :=
  { s with status := .finished, finishCause := some cause }

/-! ### The memory bus -/

/-- A bus request (R72); a fetch is always of one word (R77). -/
inductive BusRequest where
  | fetch (a : Int)
  | read (a : Int) (n : Width)
  | write (a : Int) (n : Width) (v : Word)
  deriving DecidableEq, Repr

/-- The width of an access in bytes (R72, R77). -/
def accessBytes : Width → Int
  | .byte => 1
  | .word => 2

/-- The address of a request, a mathematical integer (R72, R78). -/
def BusRequest.addr : BusRequest → Int
  | .fetch a => a
  | .read a _ => a
  | .write a _ _ => a

/-- The width of a request (R72). -/
def BusRequest.width : BusRequest → Width
  | .fetch _ => .word
  | .read _ n => n
  | .write _ n _ => n

/-- Whether the access lies in [0, 4095] (R11, R73). -/
def inRange (a : Int) (n : Width) : Bool := decide (0 ≤ a ∧ a + accessBytes n - 1 ≤ 4095)

/-- `Check(a, n)` passes: the access is in range and, under MISALIGNED_POLICY = fault, a word is at an even address (R11,
R73, R76). -/
def accessOk (p : MisalignedPolicy) (a : Int) (n : Width) : Bool :=
  inRange a n && !(decide (p = .fault) && decide (n = .word) && decide (a % 2 ≠ 0))

/-- `MemRead(a, n)` after its check; a byte is in bits 7:0 (R11, R74). -/
def Memory.readWidth (m : Memory) (a : Nat) : Width → Word
  | .byte => (m.readByte a).setWidth 16
  | .word => m.readWord a

/-- `MemWrite(a, n, v)` after its check; a byte write stores bits 7:0 (R11, R74). -/
def Memory.writeWidth (m : Memory) (a : Nat) (n : Width) (v : Word) : Memory :=
  match n with
  | .byte => m.writeByte a (loByte v)
  | .word => m.writeWord a v

/-- One bus request: the check, then the access; a request that fails its check is not performed and raises MemoryFault
at its address (R72, R73, R503).  What follows takes the data and the state after the access. -/
def State.bus (s : State) (q : BusRequest) (k : Word → State → Result) (p : Params := Config.params) : Result :=
  if accessOk p.misalignedPolicy q.addr q.width then
    match q with
    | .fetch a => k (s.mem.readWidth a.toNat .word) s
    | .read a n => k (s.mem.readWidth a.toNat n) s
    | .write a n v => k v { s with mem := s.mem.writeWidth a.toNat n v }
  else .next (s.raise .memoryFault q.addr)

/-- `Fetch(a)` (R11). -/
def State.fetchWord (s : State) (a : Int) (k : Word → Result) (p : Params := Config.params) : Result :=
  s.bus (.fetch a) (p := p) fun v _ => k v

/-- `MemRead(a, 2)` (R11). -/
def State.loadWord (s : State) (a : Int) (k : Word → Result) (p : Params := Config.params) : Result :=
  s.bus (.read a .word) (p := p) fun v _ => k v

/-- `MemRead(a, 1)` (R11). -/
def State.loadByte (s : State) (a : Int) (k : Byte → Result) (p : Params := Config.params) : Result :=
  s.bus (.read a .byte) (p := p) fun v _ => k (loByte v)

/-- `MemWrite(a, 2, v)` (R11). -/
def State.storeWord (s : State) (a : Int) (v : Word) (k : State → Result) (p : Params := Config.params) : Result :=
  s.bus (.write a .word v) (p := p) fun _ t => k t

/-- `MemWrite(a, 1, v[7:0])` (R11). -/
def State.storeByte (s : State) (a : Int) (v : Word) (k : State → Result) (p : Params := Config.params) : Result :=
  s.bus (.write a .byte v) (p := p) fun _ t => k t

/-! ### The fetch -/

/-- Fetch and advance: IR, then DR (the second word, or 0), then PC past the instruction, each from the PC at the start of
the cycle (R34, R460). -/
def State.fetch (s : State) (k : State → Result) (p : Params := Config.params) : Result :=
  let ia := s16 (s.read .pc)
  s.fetchWord ia (p := p) fun w =>
    let s1 : State := { s with ir := w }
    if p.encoding.doubleWord w then
      s1.fetchWord (ia + 2) (p := p) fun w2 => k (({ s1 with dr := w2 } : State).write .pc (trunc16 (ia + 4)))
    else k (({ s1 with dr := 0 } : State).write .pc (trunc16 (ia + 2)))

/-! ### Start of run -/

/-- The host's start-of-run operation: READY becomes EXECUTING; in any other status it does nothing (R606). -/
def State.startOfRun (s : State) : State :=
  if s.status = .ready then { s with status := .executing, pulse := 0 } else s

end Sys2Proof.Machine
end

