-- ==== Sys2Proof/Machine/Flags.lean ====
section
/-! DEFINITION. FLAGS and the ALU: the test bit T (R38, R39) and the function every ALU instruction and `sop` computes
(R250, R251). -/

namespace Sys2Proof.Machine

/-- FLAGS.T, bit 0 of FLAGS (R38). -/
def State.testBit (s : State) : Bool := s.flags.getLsbD 0

/-- `FLAGS.T <- b`: bit 0 takes `b`, bits 15:1 keep their value (R38, R39). -/
def State.setTest (s : State) (b : Bool) : State :=
  { s with flags := (s.flags &&& 0xFFFE) ||| (if b then 1 else 0) }

/-- What the ALU function gives (R251). -/
inductive AluOut where
  /-- A mathematical integer, truncated by its user. -/
  | value (z : Int)
  /-- The divisor is 0. -/
  | divideByZero
  /-- Any 16-bit value: SHIFT_OUT_OF_RANGE = draw. -/
  | free
  deriving DecidableEq, Repr

/-- A shift by a count outside [0, 15]: saturated, or free for a negative count or one of 32 or more under draw (R251). -/
def shiftOut (p : ShiftPolicy) (k saturated : Int) : AluOut :=
  if p = .draw ∧ (k < 0 ∨ 32 ≤ k) then .free else .value saturated

/-- `alu(op, a, b)` on mathematical integers (R251). -/
def alu (p : ShiftPolicy) (op : AluOp) (a b : Int) : AluOut :=
  match op with
  | .add => .value (a + b)
  | .sub => .value (a - b)
  | .mul => .value (a * b)
  | .div => if b = 0 then .divideByZero else .value (a.tdiv b)
  | .mod => if b = 0 then .divideByZero else .value (a.tmod b)
  | .and => .value (s16 (trunc16 a &&& trunc16 b))
  | .or => .value (s16 (trunc16 a ||| trunc16 b))
  | .xor => .value (s16 (trunc16 a ^^^ trunc16 b))
  | .shl => if 0 ≤ b ∧ b ≤ 15 then .value (a * 2 ^ b.toNat) else shiftOut p b 0
  | .shr => if 0 ≤ b ∧ b ≤ 15 then .value (a / 2 ^ b.toNat) else shiftOut p b (if a < 0 then -1 else 0)
  | .min => .value (if a ≤ b then a else b)
  | .max => .value (if a ≥ b then a else b)
  | .not => .value (-a - 1)
  | .lnot => .value (if a = 0 then 1 else 0)
  | .neg => .value (-a)

/-- Hand the 16-bit result of the ALU to what follows; a zero divisor raises DivideByZero(IR) and nothing follows, a free
result is the next draw (R250, R251, R504). -/
def State.aluThen (s : State) (op : AluOp) (a b : Int) (k : Word → State → Result)
    (p : Params := Config.params) : Result :=
  match alu p.shiftPolicy op a b with
  | .value z => k (trunc16 z) s
  | .divideByZero => .next (s.raise .divideByZero s.ir.toNat)
  | .free => k (Config.shiftDraw s.shiftDraws) { s with shiftDraws := s.shiftDraws + 1 }

/-- An ALU instruction: `x[d] <- alu(op, s16(x[d]), b)`, then `FLAGS.T <- (x[d] != 0)` (R250). -/
def State.aluInto (s : State) (op : AluOp) (d : Reg) (b : Int) (p : Params := Config.params) : Result :=
  s.aluThen op (s16 (s.read d)) b (p := p) fun v t => .next ((t.write d v).setTest (decide (v ≠ 0)))

end Sys2Proof.Machine
end

