-- ==== Sys2Proof/Machine/AluImmediate.lean ====
section
/-! DEFINITION. The ALU instructions, immediate forms (41_alu.md R250, R270 to R281): operands `s16(x[d])` and the second
word, read as `s16(W)` (R118). -/

namespace Sys2Proof.Machine

/-- `addi rd imm`: `add` with the second word as its second operand (R270). -/
def execAddi (d : Reg) (imm : Word) (st : State) (p : Params := Config.params) : Result :=
  st.aluInto .add d (s16 imm) p

/-- `subi rd imm`: `sub` with the second word as its second operand (R271). -/
def execSubi (d : Reg) (imm : Word) (st : State) (p : Params := Config.params) : Result :=
  st.aluInto .sub d (s16 imm) p

/-- `muli rd imm`: `mul` with the second word as its second operand (R272). -/
def execMuli (d : Reg) (imm : Word) (st : State) (p : Params := Config.params) : Result :=
  st.aluInto .mul d (s16 imm) p

/-- `divi rd imm`: `div` with the second word as its second operand (R273). -/
def execDivi (d : Reg) (imm : Word) (st : State) (p : Params := Config.params) : Result :=
  st.aluInto .div d (s16 imm) p

/-- `modi rd imm`: `mod` with the second word as its second operand (R274). -/
def execModi (d : Reg) (imm : Word) (st : State) (p : Params := Config.params) : Result :=
  st.aluInto .mod d (s16 imm) p

/-- `andi rd imm`: `and` with the second word as its second operand (R275). -/
def execAndi (d : Reg) (imm : Word) (st : State) (p : Params := Config.params) : Result :=
  st.aluInto .and d (s16 imm) p

/-- `ori rd imm`: `or` with the second word as its second operand (R276). -/
def execOri (d : Reg) (imm : Word) (st : State) (p : Params := Config.params) : Result :=
  st.aluInto .or d (s16 imm) p

/-- `xori rd imm`: `xor` with the second word as its second operand (R277). -/
def execXori (d : Reg) (imm : Word) (st : State) (p : Params := Config.params) : Result :=
  st.aluInto .xor d (s16 imm) p

/-- `shli rd imm`: `shl` with the second word as its second operand (R278). -/
def execShli (d : Reg) (imm : Word) (st : State) (p : Params := Config.params) : Result :=
  st.aluInto .shl d (s16 imm) p

/-- `shri rd imm`: `shr` with the second word as its second operand (R279). -/
def execShri (d : Reg) (imm : Word) (st : State) (p : Params := Config.params) : Result :=
  st.aluInto .shr d (s16 imm) p

/-- `mini rd imm`: `min` with the second word as its second operand (R280). -/
def execMini (d : Reg) (imm : Word) (st : State) (p : Params := Config.params) : Result :=
  st.aluInto .min d (s16 imm) p

/-- `maxi rd imm`: `max` with the second word as its second operand (R281). -/
def execMaxi (d : Reg) (imm : Word) (st : State) (p : Params := Config.params) : Result :=
  st.aluInto .max d (s16 imm) p

end Sys2Proof.Machine
end

