-- ==== Sys2Proof/Machine/AluRegister.lean ====
section
/-! DEFINITION. The ALU instructions, register forms (41_alu.md R250 to R268): operands `s16(x[d])` and `s16(x[s])`, result
in `x[d]`, T set from the result. -/

namespace Sys2Proof.Machine

/-- `add rd rs`: x[d] + x[s] (R254). -/
def execAdd (d s : Reg) (st : State) (p : Params := Config.params) : Result :=
  st.aluInto .add d (s16 (st.read s)) p

/-- `sub rd rs`: x[d] - x[s] (R255). -/
def execSub (d s : Reg) (st : State) (p : Params := Config.params) : Result :=
  st.aluInto .sub d (s16 (st.read s)) p

/-- `mul rd rs`: low 16 bits of x[d] * x[s] (R256). -/
def execMul (d s : Reg) (st : State) (p : Params := Config.params) : Result :=
  st.aluInto .mul d (s16 (st.read s)) p

/-- `div rd rs`: x[d] div x[s], toward zero; DivideByZero when x[s] = 0 (R257). -/
def execDiv (d s : Reg) (st : State) (p : Params := Config.params) : Result :=
  st.aluInto .div d (s16 (st.read s)) p

/-- `mod rd rs`: x[d] rem x[s], sign of x[d]; DivideByZero when x[s] = 0 (R258). -/
def execMod (d s : Reg) (st : State) (p : Params := Config.params) : Result :=
  st.aluInto .mod d (s16 (st.read s)) p

/-- `and rd rs`: x[d] AND x[s] (R259). -/
def execAnd (d s : Reg) (st : State) (p : Params := Config.params) : Result :=
  st.aluInto .and d (s16 (st.read s)) p

/-- `or rd rs`: x[d] OR x[s] (R260). -/
def execOr (d s : Reg) (st : State) (p : Params := Config.params) : Result :=
  st.aluInto .or d (s16 (st.read s)) p

/-- `xor rd rs`: x[d] XOR x[s] (R261). -/
def execXor (d s : Reg) (st : State) (p : Params := Config.params) : Result :=
  st.aluInto .xor d (s16 (st.read s)) p

/-- `shl rd rs`: x[d] shifted left by the signed count x[s] (R262). -/
def execShl (d s : Reg) (st : State) (p : Params := Config.params) : Result :=
  st.aluInto .shl d (s16 (st.read s)) p

/-- `shr rd rs`: x[d] arithmetically shifted right by the signed count x[s] (R263). -/
def execShr (d s : Reg) (st : State) (p : Params := Config.params) : Result :=
  st.aluInto .shr d (s16 (st.read s)) p

/-- `min rd rs`: the smaller of x[d] and x[s], signed (R264). -/
def execMin (d s : Reg) (st : State) (p : Params := Config.params) : Result :=
  st.aluInto .min d (s16 (st.read s)) p

/-- `max rd rs`: the larger of x[d] and x[s], signed (R265). -/
def execMax (d s : Reg) (st : State) (p : Params := Config.params) : Result :=
  st.aluInto .max d (s16 (st.read s)) p

/-- `not rd`: bitwise complement of x[d] (R252, R266). -/
def execNot (d : Reg) (st : State) (p : Params := Config.params) : Result :=
  st.aluInto .not d 0 p

/-- `lnot rd`: 1 when x[d] is 0, else 0 (R252, R267). -/
def execLnot (d : Reg) (st : State) (p : Params := Config.params) : Result :=
  st.aluInto .lnot d 0 p

/-- `neg rd`: the negation of x[d] (R252, R268). -/
def execNeg (d : Reg) (st : State) (p : Params := Config.params) : Result :=
  st.aluInto .neg d 0 p

end Sys2Proof.Machine
end

