-- ==== Sys2Proof/Machine/Operands.lean ====
section
/-! DEFINITION. Operand forms: effective addresses on mathematical integers (R78, R401), 4-bit constants (R118), byte
extension (R400) and the stack slots (R300). -/

namespace Sys2Proof.Machine

/-- `zext_4(n)`, a value 0 to 15 (R118). -/
def zext4 (n : Nib) : Int := (n.toNat : Int)

/-- `zext_12(a)`, the absolute address of a jump target (R118, R464). -/
def zext12 (a : Target) : Word := a.setWidth 16

/-- `ext8(v)`: a loaded byte extended to 16 bits (R400). -/
def ext8 (p : ByteExtension) (v : Byte) : Word :=
  match p with
  | .sign => v.signExtend 16
  | .zero => v.setWidth 16

/-- Effective address of the register-indexed forms, `s16(x[b]) + s16(x[o])`, not wrapped (R78, R401). -/
def State.eaIndexed (s : State) (b o : Reg) : Int := s16 (s.read b) + s16 (s.read o)

/-- Effective address of the absolute forms, `s16(DR)` (R78, R401). -/
def eaAbsolute (addr : Word) : Int := s16 addr

/-- Effective address of the offset forms, `s16(DR) + s16(x[o])`, not wrapped (R78, R401). -/
def State.eaOffset (s : State) (addr : Word) (o : Reg) : Int := s16 addr + s16 (s.read o)

/-- The address of stack item `i`, counted from the top, `s16(x[s]) + 2 i` (R300). -/
def State.slot (s : State) (r : Reg) (i : Nat) : Int := s16 (s.read r) + 2 * (i : Int)

/-- Add to a register, wrapped to 16 bits: the updates of `inc`, `dec` and the stack register (R30, R203, R300). -/
def State.bump (s : State) (r : Reg) (n : Int) : State := s.write r (trunc16 (s16 (s.read r) + n))

/-- Push a word: the stack register goes down by 2, then the word is stored at its new value (R300, R301). -/
def State.pushWord (s : State) (r : Reg) (v : Word) (p : Params := Config.params) : Result :=
  let t := s.bump r (-2)
  t.storeWord (t.slot r 0) v .next p

end Sys2Proof.Machine
end

