-- ==== Sys2Proof/Machine/Control.lean ====
section
/-! DEFINITION. The control-transfer instructions (45_control.md).  No jump checks its target; an out-of-range one faults
at the next fetch (R464). -/

namespace Sys2Proof.Machine

/-- `pc <- target` (R10, R463). -/
def State.jump (st : State) (target : Word) : State := st.write .pc target

/-- `jr r` (R451). -/
def execJr (r : Reg) (st : State) : Result := .next (st.jump (st.read r))

/-- `ret`: `pc <- x[11]` (R452). -/
def execRet (st : State) : Result := .next (st.jump (st.read .ra))

/-- `j a` (R453). -/
def execJ (a : Target) (st : State) : Result := .next (st.jump (zext12 a))

/-- `jz a`: jump if T = 0 (R454). -/
def execJz (a : Target) (st : State) : Result := .next (if st.testBit then st else st.jump (zext12 a))

/-- `jnz a`: jump if T = 1 (R455). -/
def execJnz (a : Target) (st : State) : Result := .next (if st.testBit then st.jump (zext12 a) else st)

/-- `jal a`: `x[11] <- pc`, the address of the next instruction, then jump (R456). -/
def execJal (a : Target) (st : State) : Result := .next ((st.write .ra (st.read .pc)).jump (zext12 a))

end Sys2Proof.Machine
end

