-- ==== Sys2Proof/Machine/LoadStore.lean ====
section
/-! DEFINITION. The load and store instructions (44_load_store.md).  No one of them touches FLAGS; a load into `pc` is a
jump (R401). -/

namespace Sys2Proof.Machine

/-- A word load into `x[t]` (R401). -/
def State.loadWordInto (st : State) (t : Reg) (ea : Int) (p : Params := Config.params) : Result :=
  st.loadWord ea (p := p) fun v => .next (st.write t v)

/-- A byte load into `x[t]`, extended (R400, R401). -/
def State.loadByteInto (st : State) (t : Reg) (ea : Int) (p : Params := Config.params) : Result :=
  st.loadByte ea (p := p) fun v => .next (st.write t (ext8 p.byteExtension v))

/-- `lwr rb ro rt` (R402). -/
def execLwr (b o t : Reg) (st : State) (p : Params := Config.params) : Result :=
  st.loadWordInto t (st.eaIndexed b o) p

/-- `lbr rb ro rt` (R403). -/
def execLbr (b o t : Reg) (st : State) (p : Params := Config.params) : Result :=
  st.loadByteInto t (st.eaIndexed b o) p

/-- `swr rb ro rt` (R404). -/
def execSwr (b o t : Reg) (st : State) (p : Params := Config.params) : Result :=
  st.storeWord (st.eaIndexed b o) (st.read t) .next p

/-- `sbr rb ro rt` (R405). -/
def execSbr (b o t : Reg) (st : State) (p : Params := Config.params) : Result :=
  st.storeByte (st.eaIndexed b o) (st.read t) .next p

/-- `lw rt address` (R406). -/
def execLw (t : Reg) (addr : Word) (st : State) (p : Params := Config.params) : Result :=
  st.loadWordInto t (eaAbsolute addr) p

/-- `lwo rt address ro` (R407). -/
def execLwo (t o : Reg) (addr : Word) (st : State) (p : Params := Config.params) : Result :=
  st.loadWordInto t (st.eaOffset addr o) p

/-- `lb rt address` (R408). -/
def execLb (t : Reg) (addr : Word) (st : State) (p : Params := Config.params) : Result :=
  st.loadByteInto t (eaAbsolute addr) p

/-- `lbo rt address ro` (R409). -/
def execLbo (t o : Reg) (addr : Word) (st : State) (p : Params := Config.params) : Result :=
  st.loadByteInto t (st.eaOffset addr o) p

/-- `sw rt address` (R410). -/
def execSw (t : Reg) (addr : Word) (st : State) (p : Params := Config.params) : Result :=
  st.storeWord (eaAbsolute addr) (st.read t) .next p

/-- `swo rt address ro` (R411). -/
def execSwo (t o : Reg) (addr : Word) (st : State) (p : Params := Config.params) : Result :=
  st.storeWord (st.eaOffset addr o) (st.read t) .next p

/-- `sb rt address` (R412). -/
def execSb (t : Reg) (addr : Word) (st : State) (p : Params := Config.params) : Result :=
  st.storeByte (eaAbsolute addr) (st.read t) .next p

/-- `sbo rt address ro` (R413). -/
def execSbo (t o : Reg) (addr : Word) (st : State) (p : Params := Config.params) : Result :=
  st.storeByte (st.eaOffset addr o) (st.read t) .next p

/-- `li rt imm`: `x[t] <- DR` (R414). -/
def execLi (t : Reg) (imm : Word) (st : State) : Result := .next (st.write t imm)

/-- `la rt address`: `x[t] <- DR` (R415). -/
def execLa (t : Reg) (addr : Word) (st : State) : Result := .next (st.write t addr)

end Sys2Proof.Machine
end

