-- ==== Sys2Proof/Machine/Services.lean ====
section
/-! DEFINITION. The platform services reached by `sys` (60_exceptions.md R520 to R528): the error service, the format scan
of the formatted print, the raw memory copy, and the frame in which the host answers every other service. -/

namespace Sys2Proof.Machine

/-- The general register of an argument or result register (R31, R33). -/
def serviceReg : ServiceReg → Reg
  | .a0 => .a0 | .a1 => .a1 | .a2 => .a2 | .a3 => .a3 | .rv => .rv

/-- What the machine passes of its registers (R522). -/
def State.serviceArgs (s : State) : ServiceArgs where
  a0 := s.read .a0
  a1 := s.read .a1
  a2 := s.read .a2
  a3 := s.read .a3
  rv := s.read .rv

/-- Read bytes from `a` up to and including the first zero byte, each read range-checked, and hand on the bytes before it
(R521).  The bound `fuel` is never met with a byte left in memory: `messageFuel` reads reach past address 4095. -/
def State.readMessage (s : State) (fuel : Nat) (a : Int) (k : List Byte → Result) (p : Params := Config.params) : Result :=
  match fuel with
  | 0 => .next (s.raise .memoryFault a)
  | n + 1 =>
    s.loadByte a (p := p) fun v => if v = 0 then k [] else s.readMessage n (a + 1) (fun vs => k (v :: vs)) p

/-- One read more than memory has bytes. -/
def messageFuel : Nat := memorySize + 1

/-- The error service: the message at A0 is read and handed to the host, then ProgramError is raised (R506, R521). -/
def State.errorService (s : State) (p : Params := Config.params) : Result :=
  let msg := s16 (s.read .a0)
  s.readMessage messageFuel msg (p := p) fun bytes =>
    .next (({ s with errorMessage := some bytes } : State).raise .programError msg)

/-- The format scan of the formatted print: a `%d`, `%c` or `%s` raises ServiceError, any other character passes (R507,
R523).  `pending` says that the character before was a `%` still open; what a second `%` does is
`Config.percentPairSkips`. -/
def State.scanFormat (s : State) (selector : Byte) (fuel : Nat) (a : Int) (pending : Bool) (k : Result)
    (p : Params := Config.params) : Result :=
  match fuel with
  | 0 => .next (s.raise .memoryFault a)
  | n + 1 => s.loadByte a (p := p) fun v =>
    if v = 0 then k
    else if pending ∧ (v = 0x64 ∨ v = 0x63 ∨ v = 0x73) then .next (s.raise .serviceError selector.toNat)
    else s.scanFormat selector n (a + 1) (decide (v = 0x25) && !(pending && Config.percentPairSkips)) k p

/-- Perform what the host asks for, in order: memory accesses are range-checked, and only A0 to A3 and RV can be written
(R522).  An access that fails its check raises MemoryFault and nothing follows. -/
def State.hostActions (s : State) (actions : List HostAction) (k : State → Result) (p : Params := Config.params) : Result :=
  match actions with
  | [] => k s
  | .read a n :: rest => s.bus (.read a n) (p := p) fun _ t => t.hostActions rest k p
  | .write a n v :: rest => s.bus (.write a n v) (p := p) fun _ t => t.hostActions rest k p
  | .setReg r v :: rest => (s.write (serviceReg r) v).hostActions rest k p

/-! ### The raw memory copy -/

/-- Whether the two ranges of a copy share a byte. -/
def copyOverlaps (c : CopyArgs) : Bool := decide (c.src < c.dst + c.len ∧ c.dst < c.src + c.len)

/-- The requests of one step of a raw memory copy; a step outside the copy asks for nothing. -/
def copyStep (c : CopyArgs) (value : Nat → Byte) : CopyStep → List HostAction
  | .read i => if i < c.len then [.read (c.src + i) .byte] else []
  | .check i => if i < c.len then [.read (c.dst + i) .byte] else []
  | .write i =>
    if i < c.len then [.read (c.src + i) .byte, .write (c.dst + i) .byte ((value i).setWidth 16)] else []
  | .setReg r v => [.setReg r v]

/-- The requests of a raw memory copy: it "copies bytes within the 4096-byte memory", byte by byte, each read and each write
to be range-checked (R524): the host's steps, then every byte, which does nothing more where the steps have done it. -/
def copyAccesses (c : CopyArgs) (steps : List CopyStep) (value : Nat → Byte) : List HostAction :=
  (steps ++ (List.range c.len).map CopyStep.write).flatMap (copyStep c value)

/-- The byte a copy writes at an offset: the source's, or a free one where the ranges overlap (R524). -/
def State.copiedByte (s : State) (c : CopyArgs) (i : Nat) : Byte :=
  if copyOverlaps c then Config.overlapByte s.hostCalls s.serviceArgs s.mem i else s.mem.readByte (c.src + i).toNat

/-- The answer to a raw memory copy (R522, R524). -/
def State.copyAnswer (s : State) (c : CopyArgs) : HostAnswer :=
  .values (copyAccesses c (Config.copySteps s.hostCalls s.serviceArgs s.mem) (s.copiedByte c))

/-! ### Effect classes -/

/-- What a service can do to the machine within the frame of R522. -/
structure ServiceEffects where
  /-- It may read memory. -/
  reads : Bool
  /-- It may write memory. -/
  writes : Bool
  /-- The registers it may give new values. -/
  registers : List ServiceReg
  /-- It may answer ServiceError. -/
  serviceError : Bool
  deriving DecidableEq, Repr

/-- The argument and result registers (R33). -/
def serviceRegs : List ServiceReg := [.a0, .a1, .a2, .a3, .rv]

/-- The effect classes of R520: the registers a class names, and all of A0 to A3 and RV for a class that names none (R522, D33);
`sleep` leaves all state (R528).  `loaded` says whether the index of a sprite draw is that of a loaded sprite; if it is not,
what the service does is the host's whole answer in the frame of R522 (R527, 93_implementation_defined.md I15).  DESIGN
CHOICE: a service of a row that joins several has the whole class of the row, a class "memory" is reads and writes, and a
file read or a directory listing may read its names from memory (log 6). -/
def serviceEffects (h : HostService) (loaded : Bool) : ServiceEffects :=
  match h with
  | .rstr | .wstr | .cwd | .chdir | .memcopy =>
    { reads := true, writes := true, registers := serviceRegs, serviceError := false }
  | .printf => { reads := true, writes := false, registers := serviceRegs, serviceError := false }
  | .rchr | .wchr | .rint | .wint => { reads := false, writes := false, registers := [.rv, .a0], serviceError := false }
  | .atoi => { reads := true, writes := false, registers := [.rv], serviceError := false }
  | .rfile | .dirent => { reads := true, writes := true, registers := [.rv], serviceError := false }
  | .rnd | .timer | .joystick => { reads := false, writes := false, registers := [.rv], serviceError := false }
  | .sleep => { reads := false, writes := false, registers := [], serviceError := false }
  | .fbreset | .fbrect | .fbflush | .scolor =>
    { reads := false, writes := false, registers := serviceRegs, serviceError := false }
  | .drawimg => { reads := !loaded, writes := !loaded, registers := serviceRegs, serviceError := !loaded }

/-- Whether a request is of an effect class. -/
def ServiceEffects.permits (e : ServiceEffects) : HostAction → Bool
  | .read _ _ => e.reads
  | .write _ _ _ => e.writes
  | .setReg r _ => decide (r ∈ e.registers)

/-- An answer held to an effect class: requests outside it are not made, a MemoryFault is at an address whose check fails, of
a service that accesses memory (R503), and a ServiceError is one of a service that may answer it (R507).  An answer of
the class stays as it is. -/
def heldTo (e : ServiceEffects) (m : MisalignedPolicy) : HostAnswer → HostAnswer
  | .values actions => .values (actions.filter e.permits)
  | .memoryFault a => if (e.reads || e.writes) && !accessOk m a .word then .memoryFault a else .values []
  | .serviceError => if e.serviceError then .serviceError else .values []

/-! ### Calls of the host -/

/-- Whether a sprite draw's index is that of a loaded sprite (R527). -/
def State.spriteLoaded (s : State) (p : Params := Config.params) : Bool :=
  let index := p.syscalls.spriteIndex s.serviceArgs
  decide (0 ≤ index ∧ index < s.sprites.length)

/-- The answer to a service call (R522).  A `sleep` leaves all state as it is (R528), a raw memory copy copies (R524), and every
other answer is the host's, held to the effect class of the service (R520). -/
def State.hostAnswer (s : State) (h : HostService) (p : Params := Config.params) : HostAnswer :=
  match h with
  | .sleep => .values []
  | .memcopy => s.copyAnswer (p.syscalls.copyArgs s.serviceArgs)
  | .rstr | .wstr | .rchr | .wchr | .rint | .wint | .printf | .atoi | .rfile | .cwd | .chdir | .dirent | .rnd | .timer
  | .fbreset | .fbrect | .fbflush | .joystick | .scolor | .drawimg =>
    heldTo (serviceEffects h (s.spriteLoaded p)) p.misalignedPolicy
      (Config.hostAnswer s.hostCalls h s.serviceArgs s.mem s.sprites)

/-- One call of the host: it answers with (a) values and accesses or (b) a fault (R522). -/
def State.callHost (s : State) (selector : Byte) (h : HostService) (p : Params := Config.params) : Result :=
  let t : State := { s with hostCalls := s.hostCalls + 1 }
  match s.hostAnswer h p with
  | .values actions => t.hostActions actions .next p
  | .memoryFault a => .next (t.raise .memoryFault a)
  | .serviceError => .next (t.raise .serviceError selector.toNat)

/-- Perform a service (R202, R520).  The formatted print scans its format string before the host answers (R523). -/
def State.perform (s : State) (selector : Byte) (svc : Service) (p : Params := Config.params) : Result :=
  match svc with
  | .exit => .next (s.finish .exit)
  | .error => s.errorService p
  | .host .printf =>
    s.scanFormat selector messageFuel (s16 (s.read (serviceReg p.syscalls.printfFormatReg))) false
      (s.callHost selector .printf p) p
  | .host h => s.callHost selector h p

end Sys2Proof.Machine
end

