-- ==== Sys2Proof/Machine/Misc.lean ====
section
/-! DEFINITION. The MISC instructions (40_misc.md).  Every meaning takes the state after the fetch, so that `pc` reads as
the address of the next instruction (R34). -/

namespace Sys2Proof.Machine

/-- `mov rd rs`: `x[d] <- x[s]` (R201). -/
def execMov (d s : Reg) (st : State) : Result := .next (st.write d (st.read s))

/-- `sys`: perform the service of the selector; a selector with no service is IllegalInstruction(IR) (R202, R505). -/
def execSys (k : Byte) (st : State) (p : Params := Config.params) : Result :=
  match p.syscalls.service k with
  | none => .next (st.raise .illegalInstruction st.ir.toNat)
  | some svc => st.perform k svc p

/-- `inc r n`: `x[r] <- trunc16(s16(x[r]) + n)` (R203). -/
def execInc (r : Reg) (n : Nib) (st : State) : Result := .next (st.bump r (zext4 n))

/-- `dec r n`: `x[r] <- trunc16(s16(x[r]) - n)` (R204). -/
def execDec (r : Reg) (n : Nib) (st : State) : Result := .next (st.bump r (-zext4 n))

/-- `seti r n`: `x[r] <- zext_4(n)` (R205). -/
def execSeti (r : Reg) (n : Nib) (st : State) : Result := .next (st.write r (trunc16 (zext4 n)))

/-- `nop`: nothing beyond the fetch's advance (R206). -/
def execNop (st : State) : Result := .next st

end Sys2Proof.Machine
end

