-- ==== Sys2Proof/Machine/Stack.lean ====
section
/-! DEFINITION. The STACK instructions (42_stack.md).  The stack register may be any general register; the top is the word
at `x[s]`, the next ones lie above it (R300). -/

namespace Sys2Proof.Machine

/-- `push rv rs`: the value is read before the stack register goes down (R301, D20). -/
def execPush (v s : Reg) (st : State) (p : Params := Config.params) : Result := st.pushWord s (st.read v) p

/-- `pop rv rs`: the value is written after the stack register goes up, so the value wins (R302, D20). -/
def execPop (v s : Reg) (st : State) (p : Params := Config.params) : Result :=
  st.loadWord (st.slot s 0) (p := p) fun val => .next ((st.bump s 2).write v val)

/-- `dup rs`: push a copy of the top item (R303). -/
def execDup (s : Reg) (st : State) (p : Params := Config.params) : Result :=
  st.loadWord (st.slot s 0) (p := p) fun val => st.pushWord s val p

/-- `swap rs`: exchange the top two items (R304). -/
def execSwap (s : Reg) (st : State) (p : Params := Config.params) : Result :=
  st.loadWord (st.slot s 0) (p := p) fun a =>
  st.loadWord (st.slot s 1) (p := p) fun b =>
  st.storeWord (st.slot s 0) b (p := p) fun st1 =>
  st1.storeWord (st.slot s 1) a .next p

/-- `drop rs`: the stack register goes up by 2; memory is not accessed (R305, D19). -/
def execDrop (s : Reg) (st : State) : Result := .next (st.bump s 2)

/-- `over rs`: push a copy of the second item (R306). -/
def execOverItem (s : Reg) (st : State) (p : Params := Config.params) : Result :=
  st.loadWord (st.slot s 1) (p := p) fun val => st.pushWord s val p

/-- `rot rs`: third, second, top `a b c` become `b c a` (R307). -/
def execRot (s : Reg) (st : State) (p : Params := Config.params) : Result :=
  st.loadWord (st.slot s 0) (p := p) fun c =>
  st.loadWord (st.slot s 1) (p := p) fun b =>
  st.loadWord (st.slot s 2) (p := p) fun a =>
  st.storeWord (st.slot s 0) a (p := p) fun st1 =>
  st1.storeWord (st.slot s 1) c (p := p) fun st2 =>
  st2.storeWord (st.slot s 2) b .next p

/-- `sop` with a binary operation: `second op top` replaces both (R308). -/
def State.sopBinary (st : State) (op : AluOp) (s : Reg) (p : Params := Config.params) : Result :=
  st.loadWord (st.slot s 0) (p := p) fun b =>
  st.loadWord (st.slot s 1) (p := p) fun a =>
  st.aluThen op (s16 a) (s16 b) (p := p) fun v st1 =>
  (st1.bump s 2).storeWord (st.slot s 1) v (p := p) fun st2 =>
  .next (st2.setTest (decide (v ≠ 0)))

/-- `sop` with a unary operation: the top item is replaced (R308). -/
def State.sopUnary (st : State) (op : AluOp) (s : Reg) (p : Params := Config.params) : Result :=
  st.loadWord (st.slot s 0) (p := p) fun a =>
  st.aluThen op (s16 a) 0 (p := p) fun v st1 =>
  st1.storeWord (st.slot s 0) v (p := p) fun st2 =>
  .next (st2.setTest (decide (v ≠ 0)))

/-- `sop op rs` (R308). -/
def execSop (f : AluOp) (s : Reg) (st : State) (p : Params := Config.params) : Result :=
  if f.unary then st.sopUnary f s p else st.sopBinary f s p

/-- `pushi imm rs`: push the second word (R309). -/
def execPushi (imm : Word) (s : Reg) (st : State) (p : Params := Config.params) : Result := st.pushWord s imm p

end Sys2Proof.Machine
end

