-- ==== Sys2Proof/Machine/Test.lean ====
section
/-! DEFINITION. The TEST instructions (43_test.md): a signed comparison written only to FLAGS.T (R350). -/

namespace Sys2Proof.Machine

/-- `eq ra rb`: signed equal (R352). -/
def execEq (r s : Reg) (st : State) : Result :=
  .next (st.setTest (decide (s16 (st.read r) = s16 (st.read s))))

/-- `neq ra rb`: signed not equal (R353). -/
def execNeq (r s : Reg) (st : State) : Result :=
  .next (st.setTest (decide (s16 (st.read r) ≠ s16 (st.read s))))

/-- `gt ra rb`: signed greater than (R354). -/
def execGt (r s : Reg) (st : State) : Result :=
  .next (st.setTest (decide (s16 (st.read r) > s16 (st.read s))))

/-- `gte ra rb`: signed greater than or equal (R355). -/
def execGte (r s : Reg) (st : State) : Result :=
  .next (st.setTest (decide (s16 (st.read r) ≥ s16 (st.read s))))

/-- `lt ra rb`: signed less than (R356). -/
def execLt (r s : Reg) (st : State) : Result :=
  .next (st.setTest (decide (s16 (st.read r) < s16 (st.read s))))

/-- `lte ra rb`: signed less than or equal (R357). -/
def execLte (r s : Reg) (st : State) : Result :=
  .next (st.setTest (decide (s16 (st.read r) ≤ s16 (st.read s))))

/-- `eqi r n`: signed equal, against a constant 0 to 15 (R358). -/
def execEqi (r : Reg) (n : Nib) (st : State) : Result :=
  .next (st.setTest (decide (s16 (st.read r) = zext4 n)))

/-- `neqi r n`: signed not equal, against a constant 0 to 15 (R359). -/
def execNeqi (r : Reg) (n : Nib) (st : State) : Result :=
  .next (st.setTest (decide (s16 (st.read r) ≠ zext4 n)))

/-- `gti r n`: signed greater than, against a constant 0 to 15 (R360). -/
def execGti (r : Reg) (n : Nib) (st : State) : Result :=
  .next (st.setTest (decide (s16 (st.read r) > zext4 n)))

/-- `gtei r n`: signed greater than or equal, against a constant 0 to 15 (R361). -/
def execGtei (r : Reg) (n : Nib) (st : State) : Result :=
  .next (st.setTest (decide (s16 (st.read r) ≥ zext4 n)))

/-- `lti r n`: signed less than, against a constant 0 to 15 (R362). -/
def execLti (r : Reg) (n : Nib) (st : State) : Result :=
  .next (st.setTest (decide (s16 (st.read r) < zext4 n)))

/-- `ltei r n`: signed less than or equal, against a constant 0 to 15 (R363). -/
def execLtei (r : Reg) (n : Nib) (st : State) : Result :=
  .next (st.setTest (decide (s16 (st.read r) ≤ zext4 n)))

end Sys2Proof.Machine
end

