-- ==== Sys2Proof/Machine/Dispatch.lean ====
section
/-! DEFINITION. The dispatch from an instruction to its meaning, one arm for each constructor (R461). -/

namespace Sys2Proof.Machine

def exec (i : Instr) (s : State) : Host.Outcome State Fault Refusal :=
  match i with
  | .mov d rs => Sys2Proof.Machine.execMov d rs s
  | .sys k => Sys2Proof.Machine.execSys k s
  | .inc r n => Sys2Proof.Machine.execInc r n s
  | .dec r n => Sys2Proof.Machine.execDec r n s
  | .seti r n => Sys2Proof.Machine.execSeti r n s
  | .nop => Sys2Proof.Machine.execNop s
  | .add d rs => Sys2Proof.Machine.execAdd d rs s
  | .sub d rs => Sys2Proof.Machine.execSub d rs s
  | .mul d rs => Sys2Proof.Machine.execMul d rs s
  | .div d rs => Sys2Proof.Machine.execDiv d rs s
  | .mod d rs => Sys2Proof.Machine.execMod d rs s
  | .and d rs => Sys2Proof.Machine.execAnd d rs s
  | .or d rs => Sys2Proof.Machine.execOr d rs s
  | .xor d rs => Sys2Proof.Machine.execXor d rs s
  | .shl d rs => Sys2Proof.Machine.execShl d rs s
  | .shr d rs => Sys2Proof.Machine.execShr d rs s
  | .min d rs => Sys2Proof.Machine.execMin d rs s
  | .max d rs => Sys2Proof.Machine.execMax d rs s
  | .not d => Sys2Proof.Machine.execNot d s
  | .lnot d => Sys2Proof.Machine.execLnot d s
  | .neg d => Sys2Proof.Machine.execNeg d s
  | .addi d imm => Sys2Proof.Machine.execAddi d imm s
  | .subi d imm => Sys2Proof.Machine.execSubi d imm s
  | .muli d imm => Sys2Proof.Machine.execMuli d imm s
  | .divi d imm => Sys2Proof.Machine.execDivi d imm s
  | .modi d imm => Sys2Proof.Machine.execModi d imm s
  | .andi d imm => Sys2Proof.Machine.execAndi d imm s
  | .ori d imm => Sys2Proof.Machine.execOri d imm s
  | .xori d imm => Sys2Proof.Machine.execXori d imm s
  | .shli d imm => Sys2Proof.Machine.execShli d imm s
  | .shri d imm => Sys2Proof.Machine.execShri d imm s
  | .mini d imm => Sys2Proof.Machine.execMini d imm s
  | .maxi d imm => Sys2Proof.Machine.execMaxi d imm s
  | .push v rs => Sys2Proof.Machine.execPush v rs s
  | .pop v rs => Sys2Proof.Machine.execPop v rs s
  | .dup rs => Sys2Proof.Machine.execDup rs s
  | .swap rs => Sys2Proof.Machine.execSwap rs s
  | .drop rs => Sys2Proof.Machine.execDrop rs s
  | .overItem rs => Sys2Proof.Machine.execOverItem rs s
  | .rot rs => Sys2Proof.Machine.execRot rs s
  | .sop f rs => Sys2Proof.Machine.execSop f rs s
  | .pushi imm rs => Sys2Proof.Machine.execPushi imm rs s
  | .eq r rs => Sys2Proof.Machine.execEq r rs s
  | .neq r rs => Sys2Proof.Machine.execNeq r rs s
  | .gt r rs => Sys2Proof.Machine.execGt r rs s
  | .gte r rs => Sys2Proof.Machine.execGte r rs s
  | .lt r rs => Sys2Proof.Machine.execLt r rs s
  | .lte r rs => Sys2Proof.Machine.execLte r rs s
  | .eqi r n => Sys2Proof.Machine.execEqi r n s
  | .neqi r n => Sys2Proof.Machine.execNeqi r n s
  | .gti r n => Sys2Proof.Machine.execGti r n s
  | .gtei r n => Sys2Proof.Machine.execGtei r n s
  | .lti r n => Sys2Proof.Machine.execLti r n s
  | .ltei r n => Sys2Proof.Machine.execLtei r n s
  | .lwr b o t => Sys2Proof.Machine.execLwr b o t s
  | .lbr b o t => Sys2Proof.Machine.execLbr b o t s
  | .swr b o t => Sys2Proof.Machine.execSwr b o t s
  | .sbr b o t => Sys2Proof.Machine.execSbr b o t s
  | .lw t addr => Sys2Proof.Machine.execLw t addr s
  | .lwo t o addr => Sys2Proof.Machine.execLwo t o addr s
  | .lb t addr => Sys2Proof.Machine.execLb t addr s
  | .lbo t o addr => Sys2Proof.Machine.execLbo t o addr s
  | .sw t addr => Sys2Proof.Machine.execSw t addr s
  | .swo t o addr => Sys2Proof.Machine.execSwo t o addr s
  | .sb t addr => Sys2Proof.Machine.execSb t addr s
  | .sbo t o addr => Sys2Proof.Machine.execSbo t o addr s
  | .li t imm => Sys2Proof.Machine.execLi t imm s
  | .la t addr => Sys2Proof.Machine.execLa t addr s
  | .jr r => Sys2Proof.Machine.execJr r s
  | .ret => Sys2Proof.Machine.execRet s
  | .j a => Sys2Proof.Machine.execJ a s
  | .jz a => Sys2Proof.Machine.execJz a s
  | .jnz a => Sys2Proof.Machine.execJnz a s
  | .jal a => Sys2Proof.Machine.execJal a s

end Sys2Proof.Machine
end

