-- ==== Sys2Proof/Machine/Cycle.lean ====
section
/-! DEFINITION. One cycle of the machine (45_control.md R460, R461) and where an instruction is placed for the next one. -/

namespace Sys2Proof.Machine

/-- Decode IR with DR and execute; a reserved or illegal word raises IllegalInstruction(IR) (R125, R461, R505). -/
def State.executeDecoded (s : State) (p : Params := Config.params) (run : Instr → State → Result := exec) : Result :=
  match p.decode s.ir s.dr with
  | .ok i => run i s
  | .illegal _ => .next (s.raise .illegalInstruction s.ir.toNat)

/-- One cycle: fetch and advance, then decode and execute (R460), with a machine's parameters and meanings. -/
def State.cycle (s : State) (p : Params := Config.params) (run : Instr → State → Result := exec) : Result :=
  s.fetch (fun t => t.executeDecoded p run) p

/-- The machine with an instruction's bits stored at PC and the run started, so that the next cycle fetches it.  The bits
are laid out as `tableBytes` lays them out (R74, R606). -/
def State.placeAtPc (s : State) (nbits w : Nat) : State :=
  { s with mem := s.mem.writeBytes (s16 (s.read .pc)).toNat (tableBytes nbits w), status := .executing }

end Sys2Proof.Machine
end

