-- ==== Sys2Proof/Machine/Step.lean ====
section
/-! DEFINITION. The step of the machine (45_control.md R462). -/

namespace Sys2Proof.Machine

/-- "A model's step function is one cycle ... when status is EXECUTING and the identity otherwise" (R462). -/
def step (s : State) : Host.Outcome State Fault Refusal :=
  if s.status = .executing then s.cycle else .next s

/-- `s` with an instruction, bits numbered as spec/opcode_table.json numbers them, where the next step fetches it, and the
run started: it stands for the load of a program and the start of run (R601, R606; notes/assumptions/1.md). -/
def State.withFetchWord (s : State) (nbits w : Nat) : State := s.placeAtPc nbits w

end Sys2Proof.Machine
end

