-- ==== Sys2Proof/Machine/Load.lean ====
section
/-! DEFINITION. The load of an executable container, the only reset of the machine (70_reset_and_hazards.md R600 to R604,
R611). -/

namespace Sys2Proof.Machine

/-- Why a container is refused; no machine is loaded (R601). -/
inductive LoadRefusal where
  /-- `format` is not "Orc1". -/
  | badFormat
  /-- `code_len + data_len > 4096`. -/
  | oversized
  /-- More than 10 sprites. -/
  | tooManySprites
  deriving DecidableEq, Repr

/-- What a load gives. -/
inductive Loaded where
  | machine (s : State)
  | refused (r : LoadRefusal)
  deriving DecidableEq, Repr

/-- A container byte as the 8-bit pattern `c mod 256` (R600).  DESIGN CHOICE: so is an entry outside -128 to 127, which R600
does not admit and for which R601 names no refusal (log 26). -/
def containerByte (c : Int) : Byte := BitVec.ofInt 8 c

/-- The bytes of the loaded image: data follows code (R81, R601). -/
def imageOf (c : Container) : List Byte := (c.code ++ c.data).map containerByte

/-- Store the bytes a run-time argument places; an address outside memory holds nothing (R611). -/
def Memory.writeCells (m : Memory) (cells : List Host.Cell) : Memory :=
  cells.foldl (fun m c => if c.1 < memorySize then m.writeByte c.1 c.2 else m) m

/-- Memory after a load: zero, then code, data and, if there is an argument, what ARG_PLACEMENT puts there (R601, R611). -/
def loadedMemory (c : Container) (arg : Option (List Byte)) : Memory :=
  let image := Memory.writeBytes [] 0 (imageOf c)
  match arg with
  | none => image
  | some bytes => image.writeCells (Config.argPlacement c bytes)

/-- The machine a container loads into, status READY (R55, R601, R602, R604). -/
def loadedState (c : Container) (arg : Option (List Byte)) (p : Params := Config.params) : State :=
  let mem := loadedMemory c arg
  let codeLen : Int := c.code.length
  let dataLen : Int := c.data.length
  { State.reset with
    regs := { State.reset.regs with sp := p.initialSp, bp := trunc16 (codeLen + dataLen) }
    ir := mem.readWord 0
    cb := trunc16 (codeLen - 1)
    db := trunc16 (codeLen + dataLen - 1)
    mem := mem
    sprites := c.sprites }

/-- The load sequence: refuse a bad container, else the loaded machine (R601). -/
def load (c : Container) (arg : Option (List Byte)) (p : Params := Config.params) : Loaded :=
  if c.format ≠ "Orc1" then .refused .badFormat
  else if 4096 < c.code.length + c.data.length then .refused .oversized
  else if 10 < c.sprites.length then .refused .tooManySprites
  else .machine (loadedState c arg p)

end Sys2Proof.Machine
end

