-- ==== Sys2Proof/Machine/Assembler.lean ====
section
/-! DEFINITION. The assembler's source language (30_encoding.md R130 to R142): which bytes a source text produces.  Only
that is modelled; the assembler's own data structures and the text of its messages are outside the scope (R5(f)).
Source text, labels and names are lists of characters. -/

namespace Sys2Proof.Machine

/-! ### Tokens -/

/-- Fatal errors, the first one met ends the assembly (R141). -/
inductive AsmError where
  | invalidCharacter
  | unterminatedToken
  | unexpectedToken
  | tooFewOperands
  | tooManyOperands
  | unknownMnemonic
  | invalidRegister
  | outOfRange
  | undefinedLabel
  | oversized
  | tooManySprites
  deriving DecidableEq, Repr

/-- What an assembly step gives. -/
abbrev Asm (α : Type) := Except AsmError α

/-- A token of the source text (R130 to R133). -/
inductive Token where
  /-- The end of a line. -/
  | eol
  /-- An identifier: a mnemonic, a register or service name, or a label reference. -/
  | ident (name : List Char)
  /-- `name:`, a label definition (R132). -/
  | label (name : List Char)
  /-- `.name` (R130, R134). -/
  | directive (name : List Char)
  /-- A numeric literal (R131). -/
  | number (z : Int)
  /-- A string literal, escapes replaced (R133). -/
  | str (bytes : List Byte)
  deriving DecidableEq, Repr

/-- Characters that separate tokens within a line: "Whitespace separates tokens" (R130).  DESIGN CHOICE: space, tab and
carriage return, since the spec lists none; a form feed or a vertical tab is an invalid character (log 18). -/
def isBlank (c : Char) : Bool := c = ' ' || c = '\t' || c = '\r'

/-- A decimal digit. -/
def isDigit (c : Char) : Bool := decide (48 ≤ c.toNat ∧ c.toNat ≤ 57)

/-- A letter or an underscore: with digits, what names may hold.  DESIGN CHOICE: the spec says only where an identifier ends
(R132), the model admits ASCII letters and underscores (log 18). -/
def isLetter (c : Char) : Bool :=
  decide (65 ≤ c.toNat ∧ c.toNat ≤ 90) || decide (97 ≤ c.toNat ∧ c.toNat ≤ 122) || c = '_'

/-- The value of a digit in bases up to 16; DESIGN CHOICE: hexadecimal digits in either case (log 18). -/
def digitValue (c : Char) : Option Nat :=
  if isDigit c then some (c.toNat - 48)
  else if 97 ≤ c.toNat ∧ c.toNat ≤ 102 then some (c.toNat - 87)
  else if 65 ≤ c.toNat ∧ c.toNat ≤ 70 then some (c.toNat - 55)
  else none

/-- The digits of a literal in a base; "underscores inside numeric literals are ignored as separators" (R131).  DESIGN CHOICE:
a prefixed literal of underscores alone, such as `0x_`, is 0 (log 18). -/
def digitsValue (base : Nat) : List Char → Nat → Option Nat
  | [], n => some n
  | c :: cs, n =>
    if c = '_' then digitsValue base cs n
    else
      match digitValue c with
      | some d => if d < base then digitsValue base cs (n * base + d) else none
      | none => none

/-- A numeric literal: decimal, `0x` hex or `0b` binary; a leading `-` makes a decimal literal negative (R131).  DESIGN CHOICE:
a bare `0x` or `0b` is an error (log 18). -/
def numberOf : List Char → Option Int
  | '0' :: 'x' :: c :: cs => (digitsValue 16 (c :: cs) 0).map Int.ofNat
  | '0' :: 'b' :: c :: cs => (digitsValue 2 (c :: cs) 0).map Int.ofNat
  | '-' :: c :: cs => if isDigit c then (digitsValue 10 (c :: cs) 0).map fun n => -(Int.ofNat n) else none
  | c :: cs => if isDigit c then (digitsValue 10 (c :: cs) 0).map Int.ofNat else none
  | [] => none

/-- The token of a finished run of characters (R130 to R132).  DESIGN CHOICE: an identifier or a label holds letters, digits
and underscores and begins with no digit, a directive holds letters and underscores; any other character is an invalid
character, since the spec says only where a token ends (R132, R141; log 18). -/
def wordToken : List Char → Asm Token
  | [] => .error .unexpectedToken
  | '.' :: cs => if cs ≠ [] ∧ cs.all isLetter then .ok (.directive cs) else .error .invalidCharacter
  | c :: cs =>
    if isDigit c || c = '-' then
      match numberOf (c :: cs) with
      | some z => .ok (.number z)
      | none => .error .invalidCharacter
    else if isLetter c && cs.all (fun d => isLetter d || isDigit d) then .ok (.ident (c :: cs))
    else .error .invalidCharacter

/-- The label a finished run of characters before `:` defines (R132). -/
def labelToken (cs : List Char) : Asm Token :=
  match wordToken cs with
  | .ok (.ident name) => .ok (.label name)
  | .ok _ => .error .unexpectedToken
  | .error e => .error e

/-- The character an escape stands for: `\b \t \n \f \r \" \\` (R133). -/
def escapeByte (c : Char) : Option Byte :=
  if c = 'b' then some 8
  else if c = 't' then some 9
  else if c = 'n' then some 10
  else if c = 'f' then some 12
  else if c = 'r' then some 13
  else if c.toNat = 34 then some 34
  else if c = '\\' then some 92
  else none

/-- Where the tokenizer stands; what it has gathered is held last character first. -/
inductive TokenMode where
  | idle
  | word (acc : List Char)
  | comment
  | str (acc : List Byte)
  | escape (acc : List Byte)
  deriving DecidableEq, Repr

/-- The tokens of a source text, last token first, after those already found (R130 to R133).  DESIGN CHOICE: a backslash
before a character that R133 does not list, and a quote inside a word, are invalid characters, and a `:` ends a label
wherever it stands in a word (log 18). -/
def tokenizeFrom : List Char → TokenMode → List Token → Asm (List Token)
  | [], .idle, ts => .ok (.eol :: ts)
  | [], .comment, ts => .ok (.eol :: ts)
  | [], .word acc, ts => (wordToken acc.reverse).map fun t => .eol :: t :: ts
  | [], .str _, _ => .error .unterminatedToken
  | [], .escape _, _ => .error .unterminatedToken
  | c :: cs, .comment, ts => if c = '\n' then tokenizeFrom cs .idle (.eol :: ts) else tokenizeFrom cs .comment ts
  | c :: cs, .idle, ts =>
    if c = '\n' then tokenizeFrom cs .idle (.eol :: ts)
    else if isBlank c then tokenizeFrom cs .idle ts
    else if c = '#' then tokenizeFrom cs .comment ts
    else if c.toNat = 34 then tokenizeFrom cs (.str []) ts
    else tokenizeFrom cs (.word [c]) ts
  | c :: cs, .word acc, ts =>
    if c = ':' then
      match labelToken acc.reverse with
      | .ok t => tokenizeFrom cs .idle (t :: ts)
      | .error e => .error e
    else if c = '\n' ∨ isBlank c ∨ c = '#' then
      match wordToken acc.reverse with
      | .ok t =>
        if c = '\n' then tokenizeFrom cs .idle (.eol :: t :: ts)
        else if c = '#' then tokenizeFrom cs .comment (t :: ts)
        else tokenizeFrom cs .idle (t :: ts)
      | .error e => .error e
    else tokenizeFrom cs (.word (c :: acc)) ts
  | c :: cs, .str acc, ts =>
    if c = '\n' then .error .unterminatedToken
    else if c.toNat = 34 then tokenizeFrom cs .idle (.str acc.reverse :: ts)
    else if c = '\\' then tokenizeFrom cs (.escape acc) ts
    else if c.toNat < 128 then tokenizeFrom cs (.str (BitVec.ofNat 8 c.toNat :: acc)) ts
    else .error .invalidCharacter
  | c :: cs, .escape acc, ts =>
    match escapeByte c with
    | some b => tokenizeFrom cs (.str (b :: acc)) ts
    | none => .error (if c = '\n' then .unterminatedToken else .invalidCharacter)

/-- The tokens of a source text in order. -/
def tokenize (src : List Char) : Asm (List Token) := (tokenizeFrom src .idle []).map List.reverse

/-! ### Names -/

/-- The 16 register names (R31, R132). -/
def registerNames : List (List Char × Reg) :=
  [("t0".toList, .t0), ("t1".toList, .t1), ("t2".toList, .t2), ("t3".toList, .t3), ("t4".toList, .t4), ("t5".toList, .t5),
   ("a0".toList, .a0), ("a1".toList, .a1), ("a2".toList, .a2), ("a3".toList, .a3), ("rv".toList, .rv), ("ra".toList, .ra),
   ("fp".toList, .fp), ("sp".toList, .sp), ("bp".toList, .bp), ("pc".toList, .pc)]

/-- The ALU operation names that `sop` takes (R120, R139). -/
def aluNames : List (List Char × AluOp) :=
  [("add".toList, .add), ("sub".toList, .sub), ("mul".toList, .mul), ("div".toList, .div), ("mod".toList, .mod),
   ("and".toList, .and), ("or".toList, .or), ("xor".toList, .xor), ("shl".toList, .shl), ("shr".toList, .shr),
   ("min".toList, .min), ("max".toList, .max), ("not".toList, .not), ("lnot".toList, .lnot), ("neg".toList, .neg)]

/-- "by exact string match" (R132). -/
def lookupName {α : Type} (table : List (List Char × α)) (name : List Char) : Option α :=
  match table with
  | [] => none
  | (n, v) :: rest => if n = name then some v else lookupName rest name

/-- The service names (R136, R520). -/
def serviceNames : List (List Char × Service) :=
  [("exit".toList, .exit), ("error".toList, .error), ("rstr".toList, .host .rstr), ("wstr".toList, .host .wstr),
   ("rchr".toList, .host .rchr), ("wchr".toList, .host .wchr), ("rint".toList, .host .rint), ("wint".toList, .host .wint),
   ("printf".toList, .host .printf), ("atoi".toList, .host .atoi), ("rfile".toList, .host .rfile), ("cwd".toList, .host .cwd),
   ("chdir".toList, .host .chdir), ("dirent".toList, .host .dirent), ("rnd".toList, .host .rnd),
   ("sleep".toList, .host .sleep), ("timer".toList, .host .timer), ("fbreset".toList, .host .fbreset),
   ("fbrect".toList, .host .fbrect), ("fbflush".toList, .host .fbflush), ("joystick".toList, .host .joystick),
   ("scolor".toList, .host .scolor), ("memcopy".toList, .host .memcopy), ("drawimg".toList, .host .drawimg)]

/-- The selectors in the order in which the assembler looks for a service: those of the default map first. -/
def selectorOrder : List Byte := 0x00 :: 0xFF :: (List.range 254).map fun n => BitVec.ofNat 8 (n + 1)

/-- SYSCALL_MAP read for a service (R136, R520).  DESIGN CHOICE: where several selectors have the service, the first of 0x00,
0xFF and 0x01 to 0xFE (log 4). -/
def selectorOf (m : SyscallMap) (svc : Service) : Option Byte :=
  selectorOrder.find? fun k => decide (m.service k = some svc)

/-! ### Operands -/

/-- An operand of a source line: a number or a name (R135). -/
inductive Operand where
  | num (z : Int)
  | name (n : List Char)
  deriving DecidableEq, Repr

/-- A register operand (R136). -/
def regOperand : Operand → Asm Reg
  | .name n =>
    match lookupName registerNames n with
    | some r => .ok r
    | none => .error .invalidRegister
  | .num _ => .error .unexpectedToken

/-- A 4-bit immediate, "must be in [0,15]" (R118, R136). -/
def nibOperand : Operand → Asm Nib
  | .num z => if 0 ≤ z ∧ z ≤ 15 then .ok (BitVec.ofInt 4 z) else .error .outOfRange
  | .name _ => .error .unexpectedToken

/-- A 16-bit value in [-32768, 65535], its low 16 bits (R118, R136). -/
def wordOfInt (z : Int) : Asm Word :=
  if -32768 ≤ z ∧ z ≤ 65535 then .ok (BitVec.ofInt 16 z) else .error .outOfRange

/-- A 16-bit immediate; ALU immediates and `pushi` take numbers only (R136, R137). -/
def immOperand : Operand → Asm Word
  | .num z => wordOfInt z
  | .name _ => .error .unexpectedToken

/-- A `sys` selector: a service name or a number in [0, 255] (R136). -/
def selectorOperand (m : SyscallMap) : Operand → Asm Byte
  | .num z => if 0 ≤ z ∧ z ≤ 255 then .ok (BitVec.ofInt 8 z) else .error .outOfRange
  | .name n =>
    match (lookupName serviceNames n).bind (selectorOf m) with
    | some k => .ok k
    | none => .error .unexpectedToken

/-- The name of an ALU operation, for `sop` and `imm` (R139). -/
def aluOperand : Operand → Asm AluOp
  | .name n =>
    match lookupName aluNames n with
    | some op => .ok op
    | none => .error .unknownMnemonic
  | .num _ => .error .unexpectedToken

/-- An address operand: a literal in [0, 4096), or a label with the placeholder 0 (R136, R137). -/
def addressOperand : Operand → Asm (Word × Option (List Char))
  | .num z => if 0 ≤ z ∧ z < 4096 then .ok (BitVec.ofInt 16 z, none) else .error .outOfRange
  | .name n => .ok (0, some n)

/-- The operand of `li`: a 16-bit immediate or a label (R139). -/
def immOrAddressOperand : Operand → Asm (Word × Option (List Char))
  | .num z => (wordOfInt z).map fun w => (w, none)
  | .name n => .ok (0, some n)

/-! ### Instructions -/

/-- An instruction with its placeholder, and the label its address operand waits for (R137). -/
abbrev AsmInstr := Instr × Option (List Char)

/-- An instruction that waits for no label. -/
def plain (i : Instr) : AsmInstr := (i, none)

/-- The source forms of R139; each takes the operands of a line and gives the instruction. -/
inductive Form where
  | none (i : Instr)
  | sys
  | regReg (f : Reg → Reg → Instr)
  | reg (f : Reg → Instr)
  | regNib (f : Reg → Nib → Instr)
  | regCount (f : Reg → Nib → Instr)
  | regImm (f : Reg → Word → Instr)
  | immOp
  | valueStack (f : Reg → Reg → Instr)
  | stack (f : Reg → Instr)
  | sop
  | pushi
  | regRegReg (f : Reg → Reg → Reg → Instr)
  | regAddress (f : Reg → Word → Instr)
  | regAddressReg (f : Reg → Reg → Word → Instr)
  | regImmOrAddress (f : Reg → Word → Instr)
  | jumpReg
  | jump (f : Target → Instr)

/-- The immediate form of a binary operation; a unary one has none (R110, R139: `imm op rd imm16`). -/
def immediateForm (op : AluOp) (d : Reg) (imm : Word) : Option Instr :=
  match op with
  | .add => some (.addi d imm) | .sub => some (.subi d imm) | .mul => some (.muli d imm) | .div => some (.divi d imm)
  | .mod => some (.modi d imm) | .and => some (.andi d imm) | .or => some (.ori d imm) | .xor => some (.xori d imm)
  | .shl => some (.shli d imm) | .shr => some (.shri d imm) | .min => some (.mini d imm) | .max => some (.maxi d imm)
  | .not | .lnot | .neg => none

/-- `jr r`; with `ra` it is `ret` (R140). -/
def jumpRegister (r : Reg) : Instr := if r = .ra then .ret else .jr r

/-- The mnemonics (R139). -/
def mnemonics : List (List Char × Form) :=
  [("mov".toList, .regReg .mov), ("sys".toList, .sys), ("inc".toList, .regCount .inc), ("dec".toList, .regCount .dec),
   ("seti".toList, .regNib .seti), ("nop".toList, .none .nop),
   ("add".toList, .regReg .add), ("sub".toList, .regReg .sub), ("mul".toList, .regReg .mul), ("div".toList, .regReg .div),
   ("mod".toList, .regReg .mod), ("and".toList, .regReg .and), ("or".toList, .regReg .or), ("xor".toList, .regReg .xor),
   ("shl".toList, .regReg .shl), ("shr".toList, .regReg .shr), ("min".toList, .regReg .min), ("max".toList, .regReg .max),
   ("not".toList, .reg .not), ("lnot".toList, .reg .lnot), ("neg".toList, .reg .neg),
   ("addi".toList, .regImm .addi), ("subi".toList, .regImm .subi), ("muli".toList, .regImm .muli),
   ("divi".toList, .regImm .divi), ("modi".toList, .regImm .modi), ("andi".toList, .regImm .andi),
   ("ori".toList, .regImm .ori), ("xori".toList, .regImm .xori), ("shli".toList, .regImm .shli),
   ("shri".toList, .regImm .shri), ("mini".toList, .regImm .mini), ("maxi".toList, .regImm .maxi), ("imm".toList, .immOp),
   ("push".toList, .valueStack .push), ("pop".toList, .valueStack .pop), ("dup".toList, .stack .dup),
   ("swap".toList, .stack .swap), ("drop".toList, .stack .drop), ("over".toList, .stack .overItem), ("rot".toList, .stack .rot),
   ("sop".toList, .sop), ("pushi".toList, .pushi),
   ("eq".toList, .regReg .eq), ("neq".toList, .regReg .neq), ("gt".toList, .regReg .gt), ("gte".toList, .regReg .gte),
   ("lt".toList, .regReg .lt), ("lte".toList, .regReg .lte),
   ("eqi".toList, .regNib .eqi), ("neqi".toList, .regNib .neqi), ("gti".toList, .regNib .gti), ("gtei".toList, .regNib .gtei),
   ("lti".toList, .regNib .lti), ("ltei".toList, .regNib .ltei),
   ("lwr".toList, .regRegReg .lwr), ("lbr".toList, .regRegReg .lbr), ("swr".toList, .regRegReg .swr),
   ("sbr".toList, .regRegReg .sbr),
   ("lw".toList, .regAddress .lw), ("lwo".toList, .regAddressReg .lwo), ("lb".toList, .regAddress .lb),
   ("lbo".toList, .regAddressReg .lbo), ("sw".toList, .regAddress .sw), ("swo".toList, .regAddressReg .swo),
   ("sb".toList, .regAddress .sb), ("sbo".toList, .regAddressReg .sbo),
   ("li".toList, .regImmOrAddress .li), ("la".toList, .regAddress .la),
   ("jr".toList, .jumpReg), ("ret".toList, .none .ret),
   ("j".toList, .jump .j), ("jz".toList, .jump .jz), ("jnz".toList, .jump .jnz), ("jal".toList, .jump .jal)]

/-- The least and the most operands of a form: "Arity means minimum number of textual operands" (R139). -/
def Form.arity : Form → Nat × Nat
  | .none _ => (0, 0)
  | .sys | .reg _ | .jump _ => (1, 1)
  | .regReg _ | .regNib _ | .regImm _ | .regAddress _ | .regImmOrAddress _ => (2, 2)
  | .regCount _ | .valueStack _ | .sop | .pushi => (1, 2)
  | .stack _ | .jumpReg => (0, 1)
  | .immOp | .regRegReg _ | .regAddressReg _ => (3, 3)

/-- An omitted stack register is `sp` (R112, R139, R140). -/
def stackOperand : List Operand → Asm Reg
  | [] => .ok .sp
  | o :: _ => regOperand o

/-- The instruction of a form with operands whose number is within its arity (R139, R140). -/
def Form.build (form : Form) (m : SyscallMap) (ops : List Operand) : Asm AsmInstr :=
  match form, ops with
  | .none i, _ => .ok (plain i)
  | .sys, [k] => do return plain (.sys (← selectorOperand m k))
  | .regReg f, [a, b] => do return plain (f (← regOperand a) (← regOperand b))
  | .reg f, [a] => do return plain (f (← regOperand a))
  | .regNib f, [a, n] => do return plain (f (← regOperand a) (← nibOperand n))
  | .regCount f, [a] => do return plain (f (← regOperand a) 1)
  | .regCount f, [a, n] => do return plain (f (← regOperand a) (← nibOperand n))
  | .regImm f, [a, w] => do return plain (f (← regOperand a) (← immOperand w))
  | .immOp, [op, a, w] => do
    match immediateForm (← aluOperand op) (← regOperand a) (← immOperand w) with
    | some i => return plain i
    | Option.none => throw .unexpectedToken
  | .valueStack f, v :: rest => do return plain (f (← regOperand v) (← stackOperand rest))
  | .stack f, rest => do return plain (f (← stackOperand rest))
  | .sop, op :: rest => do return plain (.sop (← aluOperand op) (← stackOperand rest))
  | .pushi, w :: rest => do return plain (.pushi (← immOperand w) (← stackOperand rest))
  | .regRegReg f, [b, o, t] => do return plain (f (← regOperand b) (← regOperand o) (← regOperand t))
  | .regAddress f, [t, a] => do
    let r ← regOperand t
    let (w, l) ← addressOperand a
    return (f r w, l)
  | .regAddressReg f, [t, a, o] => do
    let r ← regOperand t
    let (w, l) ← addressOperand a
    return (f r (← regOperand o) w, l)
  | .regImmOrAddress f, [t, a] => do
    let r ← regOperand t
    let (w, l) ← immOrAddressOperand a
    return (f r w, l)
  | .jumpReg, [] => .ok (plain .ret)
  | .jumpReg, r :: _ => do return plain (jumpRegister (← regOperand r))
  | .jump f, [a] => do
    let (w, l) ← addressOperand a
    return (f (targetOf w), l)
  | _, _ => throw .unexpectedToken

/-- A source line's instruction under a SYSCALL_MAP: the mnemonic is known, the number of operands is within its arity (R139, R141). -/
def assembleLine (mnemonic : List Char) (ops : List Operand) (m : SyscallMap := Config.syscallMap) :
    Asm AsmInstr :=
  match lookupName mnemonics mnemonic with
  | none => .error .unknownMnemonic
  | some form =>
    if ops.length < form.arity.1 then .error .tooFewOperands
    else if form.arity.2 < ops.length then .error .tooManyOperands
    else form.build m ops

/-! ### Segments -/

/-- The segment a label belongs to (R138). -/
inductive Segment where
  | text
  | data
  deriving DecidableEq, Repr

/-- A reference the patch pass resolves: the index in the code of the instruction's first word, whether its second word or
the low 12 bits of its first word is replaced, and the label (R137). -/
structure Patch where
  index : Nat
  secondWord : Bool
  label : List Char
  deriving DecidableEq, Repr

/-- A label's definition point: an offset in bytes in its segment (R134, R135, R138). -/
structure LabelDef where
  name : List Char
  segment : Segment
  offset : Nat
  deriving DecidableEq, Repr

/-- What the first pass has produced: code words and data bytes in order, labels and references, and the imported images. -/
structure Draft where
  segment : Segment
  code : List Word
  data : List Byte
  labels : List LabelDef
  patches : List Patch
  images : List (List Byte)
  deriving DecidableEq, Repr

/-- Nothing assembled yet; a text with no directive is code. -/
def Draft.empty : Draft :=
  { segment := .text, code := [], data := [], labels := [], patches := [], images := [] }

/-- A label definition at the current offset of the current segment (R132). -/
def Draft.define (d : Draft) (name : List Char) : Draft :=
  let offset := match d.segment with
    | .text => 2 * d.code.length
    | .data => d.data.length
  { d with labels := d.labels ++ [{ name := name, segment := d.segment, offset := offset }] }

/-- Append an instruction's words under given parameters, and the reference it waits for (R7, R135, R137). -/
def Draft.emit (d : Draft) (p : Params) (i : AsmInstr) : Draft :=
  let words := p.encoding.encode i.1
  let patch : List Patch := match i.2 with
    | some l => [{ index := d.code.length, secondWord := decide (words.length = 2), label := l }]
    | none => []
  { d with code := d.code ++ words, patches := d.patches ++ patch }

/-- What an unfinished line waits for. -/
inductive Pending where
  | start
  /-- A mnemonic with the operands so far. -/
  | operands (mnemonic : List Char) (ops : List Operand)
  /-- A string that further adjacent literals may continue (R134). -/
  | str (bytes : List Byte)
  /-- A `.byte` or `.int` directive waits for its count, of items of this many bytes (R134). -/
  | count (size : Nat)
  /-- A `.image` directive waits for its file name (R134), one literal (DESIGN CHOICE, log 18). -/
  | image
  deriving DecidableEq, Repr

/-- A count of a `.byte` or `.int` directive; more than the memory holds is an oversized program (R134, R141). -/
def zeroBytes (z : Int) (size : Nat) : Asm (List Byte) :=
  if z < 0 then .error .outOfRange
  else if 4096 < z then .error .oversized
  else .ok (List.replicate (z.toNat * size) 0)

/-- Close what is pending where a new item begins (R134, R135). -/
def Draft.close (d : Draft) (p : Params) : Pending → Asm Draft
  | .start => .ok d
  | .operands mnemonic ops => (assembleLine mnemonic ops p.syscalls).map (d.emit p)
  | .str bytes => .ok { d with data := d.data ++ bytes ++ [0] }
  | .count _ => .error .tooFewOperands
  | .image => .error .tooFewOperands

/-- A directive: a segment switch, or the start of a data item (R130, R134).  DESIGN CHOICE: a directive need not stand alone
on its line (log 18). -/
def Draft.directive (d : Draft) (name : List Char) : Asm (Draft × Pending) :=
  if name = "text".toList then .ok ({ d with segment := .text }, .start)
  else if name = "data".toList then .ok ({ d with segment := .data }, .start)
  else if d.segment = .data then
    if name = "byte".toList then .ok (d, .count 1)
    else if name = "int".toList then .ok (d, .count 2)
    else if name = "image".toList then .ok (d, .image)
    else .error .unexpectedToken
  else .error .unexpectedToken

/-- An item that begins with a token (R134, R135). -/
def Draft.begin (d : Draft) : Token → Asm (Draft × Pending)
  | .eol => .ok (d, .start)
  | .label n => .ok (d.define n, .start)
  | .directive n => d.directive n
  | .ident n => if d.segment = .text then .ok (d, .operands n []) else .error .unexpectedToken
  | .number z =>
    if d.segment = .data then
      (wordOfInt z).map fun w => ({ d with data := d.data ++ bytesOf [w] }, .start)
    else .error .unexpectedToken
  | .str bytes => if d.segment = .data then .ok (d, .str bytes) else .error .unexpectedToken

/-- One token of the first pass (R130, R134, R135).  Adjacent strings concatenate.  DESIGN CHOICE: they do over line ends too;
the file name of `.image` is one literal, and a literal after it begins a string item; any number of labels and data items may
share a line; an instruction runs to the end of its line (log 18). -/
def Draft.token (d : Draft) (p : Params) (pending : Pending) (t : Token) : Asm (Draft × Pending) :=
  match pending, t with
  | .operands mnemonic ops, .ident n => .ok (d, .operands mnemonic (ops ++ [.name n]))
  | .operands mnemonic ops, .number z => .ok (d, .operands mnemonic (ops ++ [.num z]))
  | .operands _ _, .label _ => .error .unexpectedToken
  | .operands _ _, .directive _ => .error .unexpectedToken
  | .operands _ _, .str _ => .error .unexpectedToken
  | .str bytes, .str more => .ok (d, .str (bytes ++ more))
  | .str bytes, .eol => .ok (d, .str bytes)
  | .count size, .number z => (zeroBytes z size).map fun zs => ({ d with data := d.data ++ zs }, .start)
  | .image, .str file =>
    if d.images.length < 10 then
      .ok ({ d with
        data := d.data ++ bytesOf [BitVec.ofNat 16 d.images.length]
        images := d.images ++ [file] }, .start)
    else .error .tooManySprites
  | other, t => do (← d.close p other).begin t

/-- The first pass over all tokens. -/
def Draft.tokens (d : Draft) (p : Params) (pending : Pending) : List Token → Asm Draft
  | [] => d.close p pending
  | t :: ts =>
    match d.token p pending t with
    | .ok (d', next) => d'.tokens p next ts
    | .error e => .error e

/-! ### Patching and output -/

/-- A label's final address: a code label's offset, a data label's offset plus the code size (R138). -/
def Draft.address (d : Draft) (name : List Char) : Option Nat :=
  match d.labels.find? (fun l => decide (l.name = name)) with
  | some l =>
    match l.segment with
    | .text => some l.offset
    | .data => some (l.offset + 2 * d.code.length)
  | none => none

/-- "patching rewrites only the appropriate bits": the whole second word, or the low 12 bits of the first (R137).
DESIGN CHOICE: the address 4096, of a label after the last byte of a full image, is in a jump its low 12 bits, 0, and no
error, since neither R137 nor R141 says (log 18). -/
def patchWord (secondWord : Bool) (old : Word) (address : Nat) : Word :=
  if secondWord then BitVec.ofNat 16 address
  else BitVec.ofNat 16 (4096 * (typeOf old).toNat + address % 4096)

/-- Resolve the references in the code (R137). -/
def Draft.patched (d : Draft) : List Patch → List Word → Asm (List Word)
  | [], code => .ok code
  | p :: ps, code =>
    match d.address p.label with
    | none => .error .undefinedLabel
    | some a => d.patched ps (code.modify (if p.secondWord then p.index + 1 else p.index) fun w => patchWord p.secondWord w a)

/-- The assembler's output: "code bytes, data bytes and sprites", the sprites by their file names (R142). -/
structure AsmObject where
  code : List Byte
  data : List Byte
  images : List (List Byte)
  deriving DecidableEq, Repr

/-- The object a source text assembles to under given parameters (R7, R130 to R142). -/
def assemble (src : List Char) (p : Params := Config.params) : Asm AsmObject := do
  let d ← Draft.empty.tokens p .start (← tokenize src)
  let code ← d.patched d.patches d.code
  if 4096 < 2 * code.length + d.data.length then throw .oversized
  return { code := bytesOf code, data := d.data, images := d.images }

/-- The link step: the Orc1 container of an object, its sprites those its imports hold, in the order of their indices (R134,
R142, R600); none if an import cannot be read.  What a file holds is `Config.importedSprite` unless given. -/
def AsmObject.link (o : AsmObject) (importSprite : List Byte → Option Sprite := Config.importedSprite) : Option Container :=
  (o.images.mapM importSprite).map fun sprites =>
    { format := "Orc1", code := o.code.map BitVec.toInt, data := o.data.map BitVec.toInt, sprites := sprites }

end Sys2Proof.Machine
end

