-- ==== Sys2Proof/Machine/Parametric.lean ====
section
/-! DEFINITION. The machine under any values of its named parameters (00_scope.md R7).  The step of Step.lean is this one with
every parameter at its default (`stepWith_params` of Laws/Ops.lean). -/

namespace Sys2Proof.Machine

/-- The meaning of an instruction under given parameters (R7). -/
def execWith (p : Params) (i : Instr) (s : State) : Result :=
  match i with
  | .mov d rs => execMov d rs s
  | .sys k => execSys k s p
  | .inc r n => execInc r n s
  | .dec r n => execDec r n s
  | .seti r n => execSeti r n s
  | .nop => execNop s
  | .add d rs => execAdd d rs s p
  | .sub d rs => execSub d rs s p
  | .mul d rs => execMul d rs s p
  | .div d rs => execDiv d rs s p
  | .mod d rs => execMod d rs s p
  | .and d rs => execAnd d rs s p
  | .or d rs => execOr d rs s p
  | .xor d rs => execXor d rs s p
  | .shl d rs => execShl d rs s p
  | .shr d rs => execShr d rs s p
  | .min d rs => execMin d rs s p
  | .max d rs => execMax d rs s p
  | .not d => execNot d s p
  | .lnot d => execLnot d s p
  | .neg d => execNeg d s p
  | .addi d imm => execAddi d imm s p
  | .subi d imm => execSubi d imm s p
  | .muli d imm => execMuli d imm s p
  | .divi d imm => execDivi d imm s p
  | .modi d imm => execModi d imm s p
  | .andi d imm => execAndi d imm s p
  | .ori d imm => execOri d imm s p
  | .xori d imm => execXori d imm s p
  | .shli d imm => execShli d imm s p
  | .shri d imm => execShri d imm s p
  | .mini d imm => execMini d imm s p
  | .maxi d imm => execMaxi d imm s p
  | .push v rs => execPush v rs s p
  | .pop v rs => execPop v rs s p
  | .dup rs => execDup rs s p
  | .swap rs => execSwap rs s p
  | .drop rs => execDrop rs s
  | .overItem rs => execOverItem rs s p
  | .rot rs => execRot rs s p
  | .sop f rs => execSop f rs s p
  | .pushi imm rs => execPushi imm rs s p
  | .eq r rs => execEq r rs s
  | .neq r rs => execNeq r rs s
  | .gt r rs => execGt r rs s
  | .gte r rs => execGte r rs s
  | .lt r rs => execLt r rs s
  | .lte r rs => execLte r rs s
  | .eqi r n => execEqi r n s
  | .neqi r n => execNeqi r n s
  | .gti r n => execGti r n s
  | .gtei r n => execGtei r n s
  | .lti r n => execLti r n s
  | .ltei r n => execLtei r n s
  | .lwr b o t => execLwr b o t s p
  | .lbr b o t => execLbr b o t s p
  | .swr b o t => execSwr b o t s p
  | .sbr b o t => execSbr b o t s p
  | .lw t addr => execLw t addr s p
  | .lwo t o addr => execLwo t o addr s p
  | .lb t addr => execLb t addr s p
  | .lbo t o addr => execLbo t o addr s p
  | .sw t addr => execSw t addr s p
  | .swo t o addr => execSwo t o addr s p
  | .sb t addr => execSb t addr s p
  | .sbo t o addr => execSbo t o addr s p
  | .li t imm => execLi t imm s
  | .la t addr => execLa t addr s
  | .jr r => execJr r s
  | .ret => execRet s
  | .j a => execJ a s
  | .jz a => execJz a s
  | .jnz a => execJnz a s
  | .jal a => execJal a s

/-- The step under given parameters: one cycle while EXECUTING, else the identity (R7, R462). -/
def stepWith (p : Params) (s : State) : Result :=
  if s.status = .executing then s.cycle p (execWith p) else .next s

end Sys2Proof.Machine
end

