-- ==== Sys2Proof/Machine/RunLoop.lean ====
section
/-! DEFINITION. The run loop (70_reset_and_hazards.md R620) and the host stop (60_exceptions.md R530), around `step`. -/

namespace Sys2Proof.Machine

/-- The host stop: FINISHED with cause HOST_STOP, every register and memory byte kept (R530). -/
def State.hostStop (s : State) : State := s.finish .hostStop

/-- The end of a pulse: the counter starts again, the host sleeps and polls its window once; a machine that is still
EXECUTING is stopped if the window is closed (R511, R530, R620). -/
def State.endPulse (s : State) : State :=
  let t : State := { s with pulse := 0, sleeps := s.sleeps + 1 }
  if t.status = .executing ∧ Config.windowClosed s.sleeps then t.hostStop else t

/-- One cycle of the pulse, counted (R620, R635); `move` is the step of the machine that runs. -/
def State.countedStep (s : State) (move : State → Result := step) : Result :=
  match move s with
  | .next t => .next { t with pulse := t.pulse + 1 }
  | .fault r => .fault r
  | .refused r => .refused r

/-- One move of the run loop: nothing once status has left EXECUTING, else a cycle while the pulse lasts, else the end of
the pulse (R620). -/
def runMove (s : State) (move : State → Result := step) : Result :=
  if s.status = .executing then
    if s.pulse < Config.pulseCycles then s.countedStep move else .next s.endPulse
  else .next s

/-- `n` moves of the run loop (R620). -/
def runMoves (n : Nat) (s : State) (move : State → Result := step) : Result :=
  match n with
  | 0 => .next s
  | k + 1 =>
    match runMove s move with
    | .next t => runMoves k t move
    | .fault r => .fault r
    | .refused r => .refused r

end Sys2Proof.Machine
end

