-- ==== Sys2Proof/Safety.lean ====
section
/-! DEFINITION. The terms claims are stated in: how an instruction ends, what it leaves unchanged, the invariant of the
machine's state, and what counts as a safe run. -/

namespace Sys2Proof.Machine

/-- The instruction answers a next state, and that state has the property. -/
def Ends (P : State → Prop) (r : Result) : Prop := ∃ t, r = .next t ∧ P t

/-- What an instruction leaves unchanged: every register not in `regs`, FLAGS (all of it, or all but T if `flag`), every
byte of memory at an address not in `stored`, every special register, the status, the fault record and what the run loop
and the host hold. -/
structure Unchanged (regs : List Reg) (flag : Bool) (stored : Nat → Prop) (s t : State) : Prop where
  regs : ∀ q, q ∉ regs → t.read q = s.read q
  flags : flag = false → t.flags = s.flags
  reserved : ∀ i, i ≠ 0 → t.flags.getLsbD i = s.flags.getLsbD i
  mem : ∀ a, ¬ stored a → t.mem.readByte a = s.mem.readByte a
  ir : t.ir = s.ir
  dr : t.dr = s.dr
  cb : t.cb = s.cb
  db : t.db = s.db
  io : t.io = s.io
  status : t.status = s.status
  finishCause : t.finishCause = s.finishCause
  fault : t.fault = s.fault
  errorMessage : t.errorMessage = s.errorMessage
  pulse : t.pulse = s.pulse
  sleeps : t.sleeps = s.sleeps
  hostCalls : t.hostCalls = s.hostCalls
  shiftDraws : t.shiftDraws = s.shiftDraws
  sprites : t.sprites = s.sprites

/-- No byte of memory is stored to. -/
abbrev nowhere : Nat → Prop := fun _ => False

/-- The two bytes of the word stored at an effective address. -/
abbrev wordAt (ea : Int) : Nat → Prop := fun a => ea ≤ (a : Int) ∧ (a : Int) ≤ ea + 1

/-- The byte stored at an effective address. -/
abbrev byteAt (ea : Int) : Nat → Prop := fun a => (a : Int) = ea

/-- A fault taken in a state: the record, the halt status, and nothing else changed (R500, R501). -/
structure FaultTaken (cause : FaultCause) (info : Int) (halt : Status) (s t : State) : Prop where
  record : t.fault = { cause := cause, info := info }
  status : t.status = halt
  rest : t = { s with status := halt, fault := { cause := cause, info := info } }

/-- The machine has failed: a claim treats DEFECT as a failure, like PERMANENT_ERROR (93_implementation_defined.md I5). -/
def State.failed (s : State) : Prop := s.status = .permanentError ∨ s.status = .defect

/-- The status, the finish cause and the fault record agree (R50, R51, R52, R501): a cause of finishing exactly when
FINISHED, a fault cause exactly when halted by it. -/
def State.recordsAgree (s : State) : Prop :=
  (s.finishCause.isSome ↔ s.status = .finished) ∧
  (∀ h, s.fault.cause.haltStatus = some h → s.status = h) ∧
  (s.failed → s.fault.cause.haltStatus = some s.status)

/-- The invariant of the machine: memory in canonical form inside [0, 4095], FLAGS bits 15:1 zero (R38), IO zero (R45), and
the records agree with the status. -/
structure State.Inv (s : State) : Prop where
  mem : s.mem.wf = true
  flags : ∀ i, i ≠ 0 → s.flags.getLsbD i = false
  io : s.io = 0
  records : s.recordsAgree

/-- `n` moves of the run loop end in a state that has not failed. -/
def SafeRun (n : Nat) (s : State) : Prop := Ends (fun t => ¬ t.failed) (runMoves n s)

/-- The state with other values in the registers that no instruction can read: CB, DB and IO (R43, R44, R45). -/
def State.withUnread (s : State) (cb db io : Word) : State := { s with cb := cb, db := db, io := io }

/-- The state with its test bit cleared: what two states that differ at most in T have in common. -/
def State.withoutTest (s : State) : State := s.setTest false

/-! ### Encodings and results, as the rules state them -/

/-- The instruction is the single word `w`, whatever the word after it is: the assembler emits it and the decoder reads it
so (R102, R103). -/
def Encodes (i : Instr) (w : Word) : Prop :=
  encode i = [w] ∧ doubleWord w = false ∧ ∀ dr, decode w dr = .ok i

/-- The instruction is the word `w` with the second word `w2` (R102, R103). -/
def EncodesPair (i : Instr) (w w2 : Word) : Prop :=
  encode i = [w, w2] ∧ doubleWord w = true ∧ decode w w2 = .ok i

/-- In every state the instruction completes, leaves `v` in register `d`, T unchanged, and changes nothing else. -/
def Sets (i : Instr) (d : Reg) (v : State → Word) : Prop :=
  ∀ s, Ends (fun t => t.read d = v s ∧ Unchanged [d] false nowhere s t) (exec i s)

/-- The instruction, run in `s`, completes, leaves `v` in register `d` and T = (v != 0), and changes nothing else. -/
def SetsWithTestAt (s : State) (i : Instr) (d : Reg) (v : Word) : Prop :=
  Ends (fun t => t.read d = v ∧ t.testBit = decide (v ≠ 0) ∧ Unchanged [d] true nowhere s t) (exec i s)

/-- In every state the instruction completes, leaves `v` in register `d` and T = (v != 0), and changes nothing else. -/
def SetsWithTest (i : Instr) (d : Reg) (v : State → Word) : Prop := ∀ s, SetsWithTestAt s i d (v s)

/-- In every state the instruction completes with T = `b` and changes nothing else. -/
def SetsTest (i : Instr) (b : State → Bool) : Prop :=
  ∀ s, Ends (fun t => t.testBit = b s ∧ Unchanged [] true nowhere s t) (exec i s)

/-- In every state the instruction completes with PC at a target and changes nothing else. -/
def JumpsTo (i : Instr) (target : State → Word) : Prop := Sets i .pc target

/-- A word at this address lies in memory (R73). -/
abbrev wordFits (ea : Int) : Prop := 0 ≤ ea ∧ ea ≤ 4094

/-- A byte at this address lies in memory (R73). -/
abbrev byteFits (ea : Int) : Prop := 0 ≤ ea ∧ ea ≤ 4095

/-- A load of `v` into register `t` from an address: it completes where the access fits and raises MemoryFault at the
address, changing nothing else, where it does not. -/
def LoadsFrom (i : Instr) (t : Reg) (ea : State → Int) (fits : Int → Prop) (v : State → Nat → Word) : Prop :=
  ∀ s,
    (fits (ea s) →
      Ends (fun u => u.read t = v s (ea s).toNat ∧ Unchanged [t] false nowhere s u) (exec i s)) ∧
    (¬ fits (ea s) → Ends (FaultTaken .memoryFault (ea s) .permanentError s) (exec i s))

/-- A store of the word `v` at an address: it completes where the word fits and raises MemoryFault at the address, changing
nothing else, where it does not. -/
def StoresWord (i : Instr) (ea : State → Int) (v : State → Word) : Prop :=
  ∀ s, s.mem.wf = true →
    (wordFits (ea s) →
      Ends (fun u => u.mem.readWord (ea s).toNat = v s ∧ Unchanged [] false (wordAt (ea s)) s u) (exec i s)) ∧
    (¬ wordFits (ea s) → Ends (FaultTaken .memoryFault (ea s) .permanentError s) (exec i s))

/-- A store of the byte `v` at an address, likewise. -/
def StoresByte (i : Instr) (ea : State → Int) (v : State → Byte) : Prop :=
  ∀ s, s.mem.wf = true →
    (byteFits (ea s) →
      Ends (fun u => u.mem.readByte (ea s).toNat = v s ∧ Unchanged [] false (byteAt (ea s)) s u) (exec i s)) ∧
    (¬ byteFits (ea s) → Ends (FaultTaken .memoryFault (ea s) .permanentError s) (exec i s))

/-- A push of the word `v` on stack register `r`: the word is stored at the lowered register where it fits, else
MemoryFault is raised at that address with the register already lowered. -/
def Pushes (i : Instr) (r : Reg) (v : State → Word) (s : State) : Prop :=
  (wordFits (s16 (s.read r - 2)) →
    Ends (fun u => u.read r = s.read r - 2 ∧ u.mem.readWord (s16 (s.read r - 2)).toNat = v s ∧
      Unchanged [r] false (wordAt (s16 (s.read r - 2))) s u) (exec i s)) ∧
  (¬ wordFits (s16 (s.read r - 2)) →
    Ends (FaultTaken .memoryFault (s16 (s.read r - 2)) .permanentError (s.write r (s.read r - 2))) (exec i s))

/-- The 16-bit result of an ALU operation on patterns (R251), for a divisor other than zero. -/
def aluWord (op : AluOp) (a b : Word) : Word :=
  match op with
  | .add => a + b
  | .sub => a - b
  | .mul => a * b
  | .div => a.sdiv b
  | .mod => a.srem b
  | .and => a &&& b
  | .or => a ||| b
  | .xor => a ^^^ b
  | .shl => if b.toNat ≤ 15 then a <<< b.toNat else 0
  | .shr => if b.toNat ≤ 15 then a.sshiftRight b.toNat else if a.msb then 0xFFFF else 0
  | .min => if a.sle b then a else b
  | .max => if b.sle a then a else b
  | .not => ~~~a
  | .lnot => if a = 0 then 1 else 0
  | .neg => -a

/-- Whether an operation with this second operand divides by zero (R251). -/
def dividesByZero (op : AluOp) (b : Word) : Bool :=
  match op with
  | .div | .mod => decide (b = 0)
  | .add | .sub | .mul | .and | .or | .xor | .shl | .shr | .min | .max | .not | .lnot | .neg => false

/-- The address of the next instruction's first word, and that word. -/
def State.ia (s : State) : Int := s16 (s.read .pc)

/-- The first word of the next instruction. -/
def State.firstWord (s : State) : Word := s.mem.readWord s.ia.toNat

/-- The word after it. -/
def State.secondWord (s : State) : Word := s.mem.readWord (s.ia + 2).toNat

/-- The next instruction's words lie in memory. -/
def State.fetchFits (s : State) : Prop := wordFits s.ia ∧ (doubleWord s.firstWord = true → wordFits (s.ia + 2))

/-- The state after a fetch that fits: IR holds the first word, DR the second or 0, PC is past the instruction (R34, R460). -/
def State.fetched (s : State) : State :=
  if doubleWord s.firstWord then ({ s with ir := s.firstWord, dr := s.secondWord } : State).write .pc (s.read .pc + 4)
  else ({ s with ir := s.firstWord, dr := 0 } : State).write .pc (s.read .pc + 2)

/-- The address at which a host's request fails its range check, if it does (R522). -/
def hostFaultAt : HostAction → Option Int
  | .read a .byte | .write a .byte _ => if 0 ≤ a ∧ a ≤ 4095 then none else some a
  | .read a .word | .write a .word _ => if 0 ≤ a ∧ a ≤ 4094 then none else some a
  | .setReg _ _ => none

/-- What a host's request that passes its range check does (R522). -/
def State.hostApplied (s : State) : HostAction → State
  | .read _ _ => s
  | .write a .byte v => { s with mem := s.mem.writeByte a.toNat (v.setWidth 8) }
  | .write a .word v => { s with mem := s.mem.writeWord a.toNat v }
  | .setReg .a0 v => s.write .a0 v
  | .setReg .a1 v => s.write .a1 v
  | .setReg .a2 v => s.write .a2 v
  | .setReg .a3 v => s.write .a3 v
  | .setReg .rv v => s.write .rv v

/-- The host's requests performed in order up to the first that fails its range check, and the address at which it fails
(R522). -/
def State.hostRan (s : State) : List HostAction → State × Option Int
  | [] => (s, none)
  | x :: rest =>
    match hostFaultAt x with
    | some a => (s, some a)
    | none => (s.hostApplied x).hostRan rest

/-- The state after an answer of the host to a call with a selector: the requests performed, a failed one a MemoryFault at its
address, or the fault the host answers (R522). -/
def State.afterAnswer (s : State) (selector : Byte) : HostAnswer → State
  | .values actions =>
    match s.hostRan actions with
    | (t, some a) => t.raise .memoryFault a
    | (t, none) => t
  | .memoryFault a => s.raise .memoryFault a
  | .serviceError => s.raise .serviceError selector.toNat

/-- What a service may have changed, by its name (R520, R522, R527): the registers, memory, and the faults it may have
raised. -/
structure ServiceFrame (h : HostService) (selector : Byte) (s t : State) : Prop where
  /-- Nothing changes but registers, memory, the count of calls and, in a fault, the status and the fault record. -/
  rest : t = { s with regs := t.regs, mem := t.mem, hostCalls := t.hostCalls, status := t.status, fault := t.fault }
  /-- Of the registers only A0 to A3 and RV change. -/
  registers : ∀ q, q ∉ [.a0, .a1, .a2, .a3, .rv] → t.read q = s.read q
  /-- "RV or A0". -/
  console : h ∈ [.rchr, .wchr, .rint, .wint] → ∀ q, q ∉ [.rv, .a0] → t.read q = s.read q
  /-- "RV". -/
  result : h ∈ [.atoi, .rfile, .dirent, .rnd, .timer, .joystick] → ∀ q, q ≠ .rv → t.read q = s.read q
  /-- `sleep`: "all state survives" (R528). -/
  noResult : h = .sleep → t.regs = s.regs
  /-- A class without memory, or with memory read. -/
  memory : h ∈ [.rchr, .wchr, .rint, .wint, .printf, .atoi, .rnd, .timer, .joystick, .sleep, .fbreset, .fbrect, .fbflush,
    .scolor] ∨ h = .drawimg ∧ s.spriteLoaded = true → t.mem = s.mem
  /-- A fault is a MemoryFault of a service that accesses memory, or a ServiceError: of the formatted print, or of a sprite draw
  with an index outside the loaded sprites. -/
  fault : t.status = s.status ∧ t.fault = s.fault ∨
    t.status = .permanentError ∧
      (t.fault.cause = .memoryFault ∧ ¬ wordFits t.fault.info ∧
          (h ∈ [.rstr, .wstr, .printf, .atoi, .rfile, .cwd, .chdir, .dirent, .memcopy] ∨
            h = .drawimg ∧ s.spriteLoaded = false) ∨
        t.fault.cause = .serviceError ∧ t.fault.info = selector.toNat ∧
          (h = .printf ∨ h = .drawimg ∧ s.spriteLoaded = false))

/-- The state with one more call of the host counted. -/
def State.called (s : State) : State := { s with hostCalls := s.hostCalls + 1 }

/-- Every byte a raw memory copy reads or writes lies in memory (R524). -/
def copyFits (c : CopyArgs) : Prop := ∀ i < c.len, byteFits (c.src + i) ∧ byteFits (c.dst + i)

/-- The two ranges of a raw memory copy share no byte (R524). -/
def copyDisjoint (c : CopyArgs) : Prop := c.src + c.len ≤ c.dst ∨ c.dst + c.len ≤ c.src

/-- The instructions that write T: the ALU instructions, `sop` and the TEST instructions (R39). -/
def writesTest : Instr → Bool
  | .add .. | .sub .. | .mul .. | .div .. | .mod .. | .and .. | .or .. | .xor .. | .shl .. | .shr .. | .min .. | .max ..
  | .not .. | .lnot .. | .neg .. | .addi .. | .subi .. | .muli .. | .divi .. | .modi .. | .andi .. | .ori .. | .xori ..
  | .shli .. | .shri .. | .mini .. | .maxi .. | .sop .. | .eq .. | .neq .. | .gt .. | .gte .. | .lt .. | .lte ..
  | .eqi .. | .neqi .. | .gti .. | .gtei .. | .lti .. | .ltei .. => true
  | .mov .. | .sys .. | .inc .. | .dec .. | .seti .. | .nop | .push .. | .pop .. | .dup .. | .swap .. | .drop ..
  | .overItem .. | .rot .. | .pushi .. | .lwr .. | .lbr .. | .swr .. | .sbr .. | .lw .. | .lwo .. | .lb .. | .lbo ..
  | .sw .. | .swo .. | .sb .. | .sbo .. | .li .. | .la .. | .jr .. | .ret | .j .. | .jz .. | .jnz .. | .jal .. => false

/-- The instructions that read T (R39). -/
def readsTest : Instr → Bool
  | .jz .. | .jnz .. => true
  | .add .. | .sub .. | .mul .. | .div .. | .mod .. | .and .. | .or .. | .xor .. | .shl .. | .shr .. | .min .. | .max ..
  | .not .. | .lnot .. | .neg .. | .addi .. | .subi .. | .muli .. | .divi .. | .modi .. | .andi .. | .ori .. | .xori ..
  | .shli .. | .shri .. | .mini .. | .maxi .. | .sop .. | .eq .. | .neq .. | .gt .. | .gte .. | .lt .. | .lte ..
  | .eqi .. | .neqi .. | .gti .. | .gtei .. | .lti .. | .ltei ..
  | .mov .. | .sys .. | .inc .. | .dec .. | .seti .. | .nop | .push .. | .pop .. | .dup .. | .swap .. | .drop ..
  | .overItem .. | .rot .. | .pushi .. | .lwr .. | .lbr .. | .swr .. | .sbr .. | .lw .. | .lwo .. | .lb .. | .lbo ..
  | .sw .. | .swo .. | .sb .. | .sbo .. | .li .. | .la .. | .jr .. | .ret | .j .. | .jal .. => false

end Sys2Proof.Machine
end

