-- ==== Sys2Proof/Certificates/Slice0/Obligations.lean ====
section
/-! DEFINITION. The statements for the provers.  The 16-bit operations on patterns (`+`, `sdiv`, `slt`, `<<<`, ...) stand for
what the rules write with `s16` and `trunc16`; `Ends`, `Sets` and the other terms are those of Sys2Proof/Safety.lean.
The numbers of the encodings are the spec's own decisions D2 to D9 (log 13); a docstring names the other decisions of the
spec, and the log entries, that its statement rests on. -/

open Sys2Proof Sys2Proof.Machine

/-! ### Encoding -/

/-- Words of the spec's own examples, numbered as opcode_table.json numbers bits, decode to the instructions they show. -/
def Obligations.SampleWordsDecode : Prop :=
  decodeTableWord 16 0x0061 = some (.mov .a0 .t1) ∧ decodeTableWord 16 0x0100 = some (.sys 0x00) ∧
  decodeTableWord 16 0x0403 = some (.seti .t0 3) ∧ decodeTableWord 16 0x1301 = some (.div .t0 .t1) ∧
  decodeTableWord 32 0x000A1F00 = some (.addi .t0 10) ∧ decodeTableWord 16 0x200D = some (.push .t0 .sp) ∧
  decodeTableWord 16 0x271D = some (.sop .sub .sp) ∧ decodeTableWord 32 0x03E82F0D = some (.pushi 1000 .sp) ∧
  decodeTableWord 16 0x3A2F = some (.gti .t2 15) ∧ decodeTableWord 16 0x4012 = some (.lwr .t0 .t1 .t2) ∧
  decodeTableWord 32 0x00148301 = some (.lbo .t0 .t1 20) ∧ decodeTableWord 16 0x900B = some .ret ∧
  decodeTableWord 16 0xF010 = some (.jal 16)

/-- Decoding the bytes of a well-formed instruction gives it back and leaves the bytes after it, whatever they are and
whatever STRICT_UNUSED_FIELDS is. -/
def Obligations.DecodeOfEncode : Prop :=
  ∀ i : Instr, i.wellFormed = true →
    (∀ rest, decodeBytes (encodeBytes i ++ rest) = .ok i rest) ∧
    ∀ strict dr, decodeWith strict ((encode i).headD 0) ((encode i).tail.headD dr) = .ok i

/-- A word that decodes gives a well-formed instruction, whose encoding is the word with its unused fields at their canonical
value, followed by the second word where there is one. -/
def Obligations.EncodeOfDecode : Prop :=
  ∀ w dr i, decode w dr = .ok i →
    i.wellFormed = true ∧ encode i = if doubleWord w then [canonicalWord w, dr] else [canonicalWord w]

/-- Length: the double-word first words, from bits 15:8 alone; every instruction is as long as its first word says
(the spec's decision D12). -/
def Obligations.InstructionLength : Prop :=
  (∀ w : Word, doubleWord w = true ↔
    w.extractLsb' 8 8 = 0x1F ∨ w.extractLsb' 8 8 = 0x2F ∨
      0x80 ≤ (w.extractLsb' 8 8).toNat ∧ (w.extractLsb' 8 8).toNat ≤ 0x89) ∧
  ∀ i : Instr, (encode i).length = if doubleWord ((encode i).headD 0) then 2 else 1

/-- The reserved and illegal first words are exactly those R125 lists; STRICT_UNUSED_FIELDS adds the words with a nonzero
unused field other than those of `nop`; executing one raises IllegalInstruction(IR) and halts in DEFECT (the spec's decisions D10,
D11, D17). -/
def Obligations.ReservedWords : Prop :=
  let t (w : Word) := (w.extractLsb' 12 4).toNat
  let op (w : Word) := (w.extractLsb' 8 4).toNat
  let hi (w : Word) := (w.extractLsb' 4 4).toNat
  let lo (w : Word) := (w.extractLsb' 0 4).toNat
  let reserved (w : Word) : Prop :=
    t w = 0xA ∨ t w = 0xB ∨ t w = 0x0 ∧ 0x5 ≤ op w ∧ op w ≤ 0xE ∨ t w = 0x1 ∧ op w = 0xF ∧ 0xC ≤ lo w ∨
    t w = 0x2 ∧ 0x8 ≤ op w ∧ op w ≤ 0xE ∨ t w = 0x2 ∧ op w = 0x7 ∧ hi w = 0xF ∨
    t w = 0x3 ∧ (op w = 0x6 ∨ op w = 0x7 ∨ op w = 0xE ∨ op w = 0xF) ∨ t w = 0x8 ∧ 0xA ≤ op w
  let unused (w : Word) : Prop :=
    t w = 0x1 ∧ 0xC ≤ op w ∧ op w ≤ 0xE ∧ lo w ≠ 0 ∨
    t w = 0x2 ∧ (0x2 ≤ op w ∧ op w ≤ 0x6 ∨ op w = 0xF) ∧ hi w ≠ 0 ∨
    t w = 0x8 ∧ (op w = 0x0 ∨ op w = 0x2 ∨ op w = 0x4 ∨ op w = 0x6 ∨ op w = 0x8 ∨ op w = 0x9) ∧ lo w ≠ 0 ∨
    t w = 0x9 ∧ (op w ≠ 0 ∨ hi w ≠ 0)
  (∀ w dr, (∃ e, decode w dr = .illegal e) ↔ reserved w) ∧
  (∀ w dr, (∃ e, decodeWith true w dr = .illegal e) ↔ reserved w ∨ unused w) ∧
  ∀ s : State, reserved s.ir → Ends (FaultTaken .illegalInstruction s.ir.toNat .defect s) s.executeDecoded

/-- An unused field is ignored: the word decodes as if it held its canonical value, the one the assembler emits (the
spec's decision D10). -/
def Obligations.UnusedFieldsIgnored : Prop :=
  (∀ x y dr, decode (nibbles 0x0 0xF x y) dr = .ok .nop) ∧ encode .nop = [0x0FFF] ∧
  (∀ (r : Reg) x dr,
    decode (nibbles 0x1 0xC r.toNib x) dr = .ok (.not r) ∧ encode (.not r) = [nibbles 0x1 0xC r.toNib 0] ∧
    decode (nibbles 0x1 0xD r.toNib x) dr = .ok (.lnot r) ∧ encode (.lnot r) = [nibbles 0x1 0xD r.toNib 0] ∧
    decode (nibbles 0x1 0xE r.toNib x) dr = .ok (.neg r) ∧ encode (.neg r) = [nibbles 0x1 0xE r.toNib 0]) ∧
  (∀ (r : Reg) x dr,
    decode (nibbles 0x2 0x2 x r.toNib) dr = .ok (.dup r) ∧ encode (.dup r) = [nibbles 0x2 0x2 0 r.toNib] ∧
    decode (nibbles 0x2 0x3 x r.toNib) dr = .ok (.swap r) ∧ encode (.swap r) = [nibbles 0x2 0x3 0 r.toNib] ∧
    decode (nibbles 0x2 0x4 x r.toNib) dr = .ok (.drop r) ∧ encode (.drop r) = [nibbles 0x2 0x4 0 r.toNib] ∧
    decode (nibbles 0x2 0x5 x r.toNib) dr = .ok (.overItem r) ∧ encode (.overItem r) = [nibbles 0x2 0x5 0 r.toNib] ∧
    decode (nibbles 0x2 0x6 x r.toNib) dr = .ok (.rot r) ∧ encode (.rot r) = [nibbles 0x2 0x6 0 r.toNib] ∧
    decode (nibbles 0x2 0xF x r.toNib) dr = .ok (.pushi dr r) ∧ encode (.pushi dr r) = [nibbles 0x2 0xF 0 r.toNib, dr]) ∧
  (∀ (r : Reg) x dr,
    decode (nibbles 0x8 0x0 r.toNib x) dr = .ok (.lw r dr) ∧ encode (.lw r dr) = [nibbles 0x8 0x0 r.toNib 0, dr] ∧
    decode (nibbles 0x8 0x2 r.toNib x) dr = .ok (.lb r dr) ∧ encode (.lb r dr) = [nibbles 0x8 0x2 r.toNib 0, dr] ∧
    decode (nibbles 0x8 0x4 r.toNib x) dr = .ok (.sw r dr) ∧ encode (.sw r dr) = [nibbles 0x8 0x4 r.toNib 0, dr] ∧
    decode (nibbles 0x8 0x6 r.toNib x) dr = .ok (.sb r dr) ∧ encode (.sb r dr) = [nibbles 0x8 0x6 r.toNib 0, dr] ∧
    decode (nibbles 0x8 0x8 r.toNib x) dr = .ok (.li r dr) ∧ encode (.li r dr) = [nibbles 0x8 0x8 r.toNib 0, dr] ∧
    decode (nibbles 0x8 0x9 r.toNib x) dr = .ok (.la r dr) ∧ encode (.la r dr) = [nibbles 0x8 0x9 r.toNib 0, dr]) ∧
  (∀ (r : Reg) x y dr,
    decode (nibbles 0x9 x y r.toNib) dr = .ok (if r = .ra then .ret else .jr r) ∧
    encode (if r = .ra then .ret else .jr r) = [nibbles 0x9 0 0 r.toNib])

/-! ### The cycle -/

/-- A step at a decodable instruction is `exec` of it in the state after the fetch: IR holds the first word, DR the second
or 0, PC the address after the instruction. -/
def Obligations.StepRunsDecoded : Prop :=
  ∀ s : State, s.status = .executing → wordFits s.ia →
    (doubleWord s.firstWord = false → ∀ i, decode s.firstWord 0 = .ok i →
      step s = exec i (({ s with ir := s.firstWord, dr := 0 } : State).write .pc (s.read .pc + 2))) ∧
    (doubleWord s.firstWord = true → wordFits (s.ia + 2) → ∀ i, decode s.firstWord s.secondWord = .ok i →
      step s = exec i (({ s with ir := s.firstWord, dr := s.secondWord } : State).write .pc (s.read .pc + 4)))

/-- A fetch out of range faults at the word's address: at the first word nothing has changed, at the second word IR holds the
first word and nothing else has changed; an illegal word faults after the fetch. -/
def Obligations.FetchFaults : Prop :=
  ∀ s : State, s.status = .executing →
    (¬ wordFits s.ia → Ends (FaultTaken .memoryFault s.ia .permanentError s) (step s)) ∧
    (wordFits s.ia → doubleWord s.firstWord = true → ¬ wordFits (s.ia + 2) →
      Ends (FaultTaken .memoryFault (s.ia + 2) .permanentError { s with ir := s.firstWord }) (step s)) ∧
    (s.fetchFits → (∃ e, decode s.firstWord s.fetched.dr = .illegal e) →
      Ends (FaultTaken .illegalInstruction s.firstWord.toNat .defect s.fetched) (step s))

/-- Every instruction in every state, and every step, answers a next state, under any values of the named parameters (R7);
`exec` and `step` are the ones under the defaults. -/
def Obligations.StepAlwaysAnswers : Prop :=
  (∀ (p : Params) (i : Instr) (s : State), ∃ t, execWith p i s = .next t) ∧
  (∀ (p : Params) (s : State), ∃ t, stepWith p s = .next t) ∧
  (∀ (i : Instr) (s : State), exec i s = execWith Config.params i s) ∧ ∀ s : State, step s = stepWith Config.params s

/-- After a step that ends in a fault PC is the instruction's address if the fetch faulted, else the address after the
instruction; IR and DR hold what the fetch had read by then (the spec's decision D29). -/
def Obligations.PcAfterFault : Prop :=
  ∀ s : State, s.status = .executing → Ends (fun t => t.failed →
    (¬ wordFits s.ia → t.read .pc = s.read .pc ∧ t.ir = s.ir ∧ t.dr = s.dr) ∧
    (wordFits s.ia → ¬ s.fetchFits → t.read .pc = s.read .pc ∧ t.ir = s.firstWord ∧ t.dr = s.dr) ∧
    (s.fetchFits → t.read .pc = s.fetched.read .pc ∧ t.ir = s.firstWord ∧ t.dr = s.fetched.dr)) (step s)

/-! ### Invariants of the machine -/

/-- The reset state meets the invariant. -/
def Obligations.ResetMeetsInvariant : Prop := State.reset.Inv

/-- Every step keeps the invariant: memory in canonical form inside [0, 4095], FLAGS bits 15:1 zero, IO zero, the records in
agreement with the status; so does every step under other values of the named parameters (R7). -/
def Obligations.StepKeepsInvariant : Prop :=
  ∀ s : State, s.Inv → Ends State.Inv (step s) ∧ ∀ p : Params, Ends State.Inv (stepWith p s)

/-- How a step of an executing machine can change the status, and what the finish cause and the fault record then hold. -/
def Obligations.StatusTransitions : Prop :=
  ∀ s : State, s.status = .executing → Ends (fun t =>
    t.status = .executing ∧ t.finishCause = s.finishCause ∧ t.fault = s.fault ∨
    t.status = .finished ∧ t.finishCause = some .exit ∧ t.fault = s.fault ∨
    t.status = .permanentError ∧ t.finishCause = s.finishCause ∧
      (t.fault.cause = .memoryFault ∨ t.fault.cause = .divideByZero ∨ t.fault.cause = .serviceError ∨
        t.fault.cause = .programError) ∨
    t.status = .defect ∧ t.finishCause = s.finishCause ∧ t.fault.cause = .illegalInstruction) (step s)

/-- CB, DB, IO and the sprites keep their values in every instruction and every step (IO: the spec's decision D45; that the
sprites stand in the state and no instruction writes them is the model's choice, log 17). -/
def Obligations.LoadOnlyStateKept : Prop :=
  (∀ (i : Instr) (s : State),
    Ends (fun t => t.cb = s.cb ∧ t.db = s.db ∧ t.io = s.io ∧ t.sprites = s.sprites) (exec i s)) ∧
  ∀ s : State, Ends (fun t => t.cb = s.cb ∧ t.db = s.db ∧ t.io = s.io ∧ t.sprites = s.sprites) (step s)

/-- No instruction and no step reads CB, DB or IO: with other values in them it does the same to everything else. -/
def Obligations.UnreadRegisters : Prop :=
  ∀ (s : State) (cb db io : Word),
    (∀ i : Instr, ∃ t, exec i s = .next t ∧ exec i (s.withUnread cb db io) = .next (t.withUnread cb db io)) ∧
    ∃ t, step s = .next t ∧ step (s.withUnread cb db io) = .next (t.withUnread cb db io)

/-- An instruction other than the ALU instructions, `sop` and the TEST instructions leaves FLAGS alone. -/
def Obligations.TestBitWriters : Prop :=
  ∀ (i : Instr) (s : State), writesTest i = false → Ends (fun t => t.flags = s.flags) (exec i s)

/-- An instruction other than `jz` and `jnz` does not read T: with T at either value it does the same to everything else. -/
def Obligations.TestBitReaders : Prop :=
  ∀ (i : Instr) (s : State) (b : Bool), readsTest i = false →
    ∃ t u, exec i s = .next t ∧ exec i (s.setTest b) = .next u ∧ u.withoutTest = t.withoutTest

/-! ### MISC -/

/-- `mov`, `seti` and `li` set their register and nothing else. -/
def Obligations.RegisterLoads : Prop :=
  (∀ d r, Encodes (.mov d r) (nibbles 0x0 0x0 d.toNib r.toNib) ∧ Sets (.mov d r) d fun s => s.read r) ∧
  (∀ r n, Encodes (.seti r n) (nibbles 0x0 0x4 r.toNib n) ∧ Sets (.seti r n) r fun _ => n.setWidth 16) ∧
  ∀ t w, EncodesPair (.li t w) (nibbles 0x8 0x8 t.toNib 0) w ∧ Sets (.li t w) t fun _ => w

/-- `la` sets its register to the second word, as `li` does under an opcode of its own (the spec's decision D8). -/
def Obligations.LoadAddress : Prop :=
  ∀ t w, EncodesPair (.la t w) (nibbles 0x8 0x9 t.toNib 0) w ∧ (Sets (.la t w) t fun _ => w) ∧
    ∀ s : State, exec (.la t w) s = exec (.li t w) s

/-- `inc` and `dec` add and subtract a constant 0 to 15, wrapping, and leave T alone, and the assembler's default constant is
1; `nop` does nothing, and every word 0x0Fxx is a `nop`. -/
def Obligations.CountsAndNop : Prop :=
  (∀ r n, Encodes (.inc r n) (nibbles 0x0 0x2 r.toNib n) ∧ Sets (.inc r n) r fun s => s.read r + n.setWidth 16) ∧
  (∀ r n, Encodes (.dec r n) (nibbles 0x0 0x3 r.toNib n) ∧ Sets (.dec r n) r fun s => s.read r - n.setWidth 16) ∧
  (∀ o, assembleLine "inc".toList [o] = assembleLine "inc".toList [o, .num 1] ∧
    assembleLine "dec".toList [o] = assembleLine "dec".toList [o, .num 1]) ∧
  Encodes .nop 0x0FFF ∧ (∀ x y dr, decode (nibbles 0x0 0xF x y) dr = .ok .nop) ∧ ∀ s : State, exec .nop s = .next s

/-! ### ALU -/

/-- Addition, subtraction and multiplication, register and immediate forms. -/
def Obligations.AddSubMul : Prop :=
  (∀ d r, Encodes (.add d r) (nibbles 0x1 0x0 d.toNib r.toNib) ∧
    SetsWithTest (.add d r) d fun s => s.read d + s.read r) ∧
  (∀ d r, Encodes (.sub d r) (nibbles 0x1 0x1 d.toNib r.toNib) ∧
    SetsWithTest (.sub d r) d fun s => s.read d - s.read r) ∧
  (∀ d r, Encodes (.mul d r) (nibbles 0x1 0x2 d.toNib r.toNib) ∧
    SetsWithTest (.mul d r) d fun s => s.read d * s.read r) ∧
  (∀ d w, EncodesPair (.addi d w) (nibbles 0x1 0xF d.toNib 0x0) w ∧ SetsWithTest (.addi d w) d fun s => s.read d + w) ∧
  (∀ d w, EncodesPair (.subi d w) (nibbles 0x1 0xF d.toNib 0x1) w ∧ SetsWithTest (.subi d w) d fun s => s.read d - w) ∧
  ∀ d w, EncodesPair (.muli d w) (nibbles 0x1 0xF d.toNib 0x2) w ∧ SetsWithTest (.muli d w) d fun s => s.read d * w

/-- Division and remainder, register and immediate forms: toward zero, sign of the dividend; a zero divisor raises
DivideByZero(IR) and writes nothing else (the spec's decisions D13, D14). -/
def Obligations.DivMod : Prop :=
  (∀ d r, Encodes (.div d r) (nibbles 0x1 0x3 d.toNib r.toNib) ∧ ∀ s : State,
    (s.read r ≠ 0 → SetsWithTestAt s (.div d r) d ((s.read d).sdiv (s.read r))) ∧
    (s.read r = 0 → Ends (FaultTaken .divideByZero s.ir.toNat .permanentError s) (exec (.div d r) s))) ∧
  (∀ d r, Encodes (.mod d r) (nibbles 0x1 0x4 d.toNib r.toNib) ∧ ∀ s : State,
    (s.read r ≠ 0 → SetsWithTestAt s (.mod d r) d ((s.read d).srem (s.read r))) ∧
    (s.read r = 0 → Ends (FaultTaken .divideByZero s.ir.toNat .permanentError s) (exec (.mod d r) s))) ∧
  (∀ d w, EncodesPair (.divi d w) (nibbles 0x1 0xF d.toNib 0x3) w ∧ ∀ s : State,
    (w ≠ 0 → SetsWithTestAt s (.divi d w) d ((s.read d).sdiv w)) ∧
    (w = 0 → Ends (FaultTaken .divideByZero s.ir.toNat .permanentError s) (exec (.divi d w) s))) ∧
  ∀ d w, EncodesPair (.modi d w) (nibbles 0x1 0xF d.toNib 0x4) w ∧ ∀ s : State,
    (w ≠ 0 → SetsWithTestAt s (.modi d w) d ((s.read d).srem w)) ∧
    (w = 0 → Ends (FaultTaken .divideByZero s.ir.toNat .permanentError s) (exec (.modi d w) s))

/-- The bitwise operations, register and immediate forms. -/
def Obligations.Bitwise : Prop :=
  (∀ d r, Encodes (.and d r) (nibbles 0x1 0x5 d.toNib r.toNib) ∧
    SetsWithTest (.and d r) d fun s => s.read d &&& s.read r) ∧
  (∀ d r, Encodes (.or d r) (nibbles 0x1 0x6 d.toNib r.toNib) ∧
    SetsWithTest (.or d r) d fun s => s.read d ||| s.read r) ∧
  (∀ d r, Encodes (.xor d r) (nibbles 0x1 0x7 d.toNib r.toNib) ∧
    SetsWithTest (.xor d r) d fun s => s.read d ^^^ s.read r) ∧
  (∀ d, Encodes (.not d) (nibbles 0x1 0xC d.toNib 0) ∧ SetsWithTest (.not d) d fun s => ~~~ s.read d) ∧
  (∀ d w, EncodesPair (.andi d w) (nibbles 0x1 0xF d.toNib 0x5) w ∧ SetsWithTest (.andi d w) d fun s => s.read d &&& w) ∧
  (∀ d w, EncodesPair (.ori d w) (nibbles 0x1 0xF d.toNib 0x6) w ∧ SetsWithTest (.ori d w) d fun s => s.read d ||| w) ∧
  ∀ d w, EncodesPair (.xori d w) (nibbles 0x1 0xF d.toNib 0x7) w ∧ SetsWithTest (.xori d w) d fun s => s.read d ^^^ w

/-- The shifts, register and immediate forms: the count is signed, a count outside [0, 15] gives 0 for `shl` and the sign for
`shr` (SHIFT_OUT_OF_RANGE = saturate, the default; the spec's decision D15). -/
def Obligations.Shifts : Prop :=
  let left (a b : Word) : Word := if b.toNat ≤ 15 then a <<< b.toNat else 0
  let right (a b : Word) : Word := if b.toNat ≤ 15 then a.sshiftRight b.toNat else if a.msb then 0xFFFF else 0
  (∀ d r, Encodes (.shl d r) (nibbles 0x1 0x8 d.toNib r.toNib) ∧
    SetsWithTest (.shl d r) d fun s => left (s.read d) (s.read r)) ∧
  (∀ d r, Encodes (.shr d r) (nibbles 0x1 0x9 d.toNib r.toNib) ∧
    SetsWithTest (.shr d r) d fun s => right (s.read d) (s.read r)) ∧
  (∀ d w, EncodesPair (.shli d w) (nibbles 0x1 0xF d.toNib 0x8) w ∧
    SetsWithTest (.shli d w) d fun s => left (s.read d) w) ∧
  ∀ d w, EncodesPair (.shri d w) (nibbles 0x1 0xF d.toNib 0x9) w ∧
    SetsWithTest (.shri d w) d fun s => right (s.read d) w

/-- Minimum and maximum, register and immediate forms, logical not and negation. -/
def Obligations.MinMaxLnotNeg : Prop :=
  (∀ d r, Encodes (.min d r) (nibbles 0x1 0xA d.toNib r.toNib) ∧
    SetsWithTest (.min d r) d fun s => if (s.read d).sle (s.read r) then s.read d else s.read r) ∧
  (∀ d r, Encodes (.max d r) (nibbles 0x1 0xB d.toNib r.toNib) ∧
    SetsWithTest (.max d r) d fun s => if (s.read r).sle (s.read d) then s.read d else s.read r) ∧
  (∀ d, Encodes (.lnot d) (nibbles 0x1 0xD d.toNib 0) ∧ SetsWithTest (.lnot d) d fun s => if s.read d = 0 then 1 else 0) ∧
  (∀ d, Encodes (.neg d) (nibbles 0x1 0xE d.toNib 0) ∧ SetsWithTest (.neg d) d fun s => - s.read d) ∧
  (∀ d w, EncodesPair (.mini d w) (nibbles 0x1 0xF d.toNib 0xA) w ∧
    SetsWithTest (.mini d w) d fun s => if (s.read d).sle w then s.read d else w) ∧
  ∀ d w, EncodesPair (.maxi d w) (nibbles 0x1 0xF d.toNib 0xB) w ∧
    SetsWithTest (.maxi d w) d fun s => if w.sle (s.read d) then s.read d else w

/-- The ALU function on all operands, under both values of SHIFT_OUT_OF_RANGE: it divides by zero exactly for `div` and `mod`
with a zero divisor, its result is free exactly under `draw` for a shift by a negative count or one of 32 or more, and
otherwise its low 16 bits are `aluWord` (the spec's decisions D13, D14, D15). -/
def Obligations.AluFunction : Prop :=
  ∀ (p : ShiftPolicy) (op : AluOp) (a b : Word),
    if dividesByZero op b then alu p op (s16 a) (s16 b) = .divideByZero
    else if p = .draw ∧ (op = .shl ∨ op = .shr) ∧ (s16 b < 0 ∨ 32 ≤ s16 b) then alu p op (s16 a) (s16 b) = .free
    else ∃ z, alu p op (s16 a) (s16 b) = .value z ∧ trunc16 z = aluWord op a b

/-! ### STACK -/

/-- `push` and `pushi`: the value as it was before the stack register goes down by 2 (the spec's decision D20). -/
def Obligations.PushStores : Prop :=
  (∀ v r, Encodes (.push v r) (nibbles 0x2 0x0 v.toNib r.toNib)) ∧
  (∀ w r, EncodesPair (.pushi w r) (nibbles 0x2 0xF 0 r.toNib) w) ∧
  ∀ s : State, s.mem.wf = true → ∀ v r w,
    Pushes (.push v r) r (fun s => s.read v) s ∧ Pushes (.pushi w r) r (fun _ => w) s

/-- `pop`: the stack register goes up by 2, then the value is written, so that the value wins where both are one register
(the spec's decision D20). -/
def Obligations.PopLoads : Prop :=
  ∀ v r, Encodes (.pop v r) (nibbles 0x2 0x1 v.toNib r.toNib) ∧ ∀ s : State,
    (wordFits (s16 (s.read r)) →
      Ends (fun t => t.read v = s.mem.readWord (s16 (s.read r)).toNat ∧ (r ≠ v → t.read r = s.read r + 2) ∧
        Unchanged [v, r] false nowhere s t) (exec (.pop v r) s)) ∧
    (¬ wordFits (s16 (s.read r)) →
      Ends (FaultTaken .memoryFault (s16 (s.read r)) .permanentError s) (exec (.pop v r) s))

/-- `dup` and `over` push a copy of the first and of the second item; the read comes first; an omitted register is `sp`. -/
def Obligations.DupOverPush : Prop :=
  assembleLine "dup".toList [] = assembleLine "dup".toList [.name "sp".toList] ∧
  assembleLine "over".toList [] = assembleLine "over".toList [.name "sp".toList] ∧
  ∀ r, Encodes (.dup r) (nibbles 0x2 0x2 0 r.toNib) ∧ Encodes (.overItem r) (nibbles 0x2 0x5 0 r.toNib) ∧
    ∀ s : State, s.mem.wf = true →
      (wordFits (s16 (s.read r)) → Pushes (.dup r) r (fun s => s.mem.readWord (s16 (s.read r)).toNat) s) ∧
      (¬ wordFits (s16 (s.read r)) →
        Ends (FaultTaken .memoryFault (s16 (s.read r)) .permanentError s) (exec (.dup r) s)) ∧
      (wordFits (s16 (s.read r) + 2) →
        Pushes (.overItem r) r (fun s => s.mem.readWord (s16 (s.read r) + 2).toNat) s) ∧
      (¬ wordFits (s16 (s.read r) + 2) →
        Ends (FaultTaken .memoryFault (s16 (s.read r) + 2) .permanentError s) (exec (.overItem r) s))

/-- `drop`: the stack register goes up by 2; nothing faults and memory is not touched (the spec's decision D19). -/
def Obligations.DropDiscards : Prop :=
  ∀ r, Encodes (.drop r) (nibbles 0x2 0x4 0 r.toNib) ∧ Sets (.drop r) r fun s => s.read r + 2

/-- `swap`: the top two items change places; the first access that fails is the one reported and nothing is written; an
omitted register is `sp`. -/
def Obligations.SwapExchanges : Prop :=
  assembleLine "swap".toList [] = assembleLine "swap".toList [.name "sp".toList] ∧
  ∀ r, Encodes (.swap r) (nibbles 0x2 0x3 0 r.toNib) ∧ ∀ s : State, s.mem.wf = true →
    let p := s16 (s.read r)
    (wordFits p → wordFits (p + 2) →
      Ends (fun t => t.mem.readWord p.toNat = s.mem.readWord (p + 2).toNat ∧
        t.mem.readWord (p + 2).toNat = s.mem.readWord p.toNat ∧
        Unchanged [] false (fun a => wordAt p a ∨ wordAt (p + 2) a) s t) (exec (.swap r) s)) ∧
    (¬ wordFits p → Ends (FaultTaken .memoryFault p .permanentError s) (exec (.swap r) s)) ∧
    (wordFits p → ¬ wordFits (p + 2) → Ends (FaultTaken .memoryFault (p + 2) .permanentError s) (exec (.swap r) s))

/-- `rot`: third, second, top `a b c` become `b c a`; the first access that fails is the one reported
(the spec's decision D19). -/
def Obligations.RotRotates : Prop :=
  ∀ r, Encodes (.rot r) (nibbles 0x2 0x6 0 r.toNib) ∧ ∀ s : State, s.mem.wf = true →
    let p := s16 (s.read r)
    (wordFits p → wordFits (p + 2) → wordFits (p + 4) →
      Ends (fun t => t.mem.readWord p.toNat = s.mem.readWord (p + 4).toNat ∧
        t.mem.readWord (p + 2).toNat = s.mem.readWord p.toNat ∧
        t.mem.readWord (p + 4).toNat = s.mem.readWord (p + 2).toNat ∧
        Unchanged [] false (fun a => wordAt p a ∨ wordAt (p + 2) a ∨ wordAt (p + 4) a) s t) (exec (.rot r) s)) ∧
    (¬ wordFits p → Ends (FaultTaken .memoryFault p .permanentError s) (exec (.rot r) s)) ∧
    (wordFits p → ¬ wordFits (p + 2) → Ends (FaultTaken .memoryFault (p + 2) .permanentError s) (exec (.rot r) s)) ∧
    (wordFits p → wordFits (p + 2) → ¬ wordFits (p + 4) →
      Ends (FaultTaken .memoryFault (p + 4) .permanentError s) (exec (.rot r) s))

/-- Three rotations restore the whole state. -/
def Obligations.RotThrice : Prop :=
  ∀ (s : State) (r : Reg), s.mem.wf = true → wordFits (s16 (s.read r)) → wordFits (s16 (s.read r) + 4) →
    ∃ t u, exec (.rot r) s = .next t ∧ exec (.rot r) t = .next u ∧ exec (.rot r) u = .next s

/-- `push r` then `pop r2` moves the value from `r` to `r2` and leaves the stack register where it was. -/
def Obligations.PushThenPop : Prop :=
  ∀ (s : State) (r r2 q : Reg), s.mem.wf = true → r2 ≠ q → wordFits (s16 (s.read q - 2)) →
    ∃ t u, exec (.push r q) s = .next t ∧ t.read q = s.read q - 2 ∧ exec (.pop r2 q) t = .next u ∧
      u.read r2 = s.read r ∧ u.read q = s.read q ∧ Unchanged [r2] false (wordAt (s16 (s.read q - 2))) s u

/-- `sop` with a binary operation: the result, `second op top`, replaces both items, T is set from it; a failed read or a
zero divisor leaves everything else as it was (the spec's decision D18). -/
def Obligations.SopBinary : Prop :=
  ∀ f r, f.unary = false → Encodes (.sop f r) (nibbles 0x2 0x7 f.toNib r.toNib) ∧ ∀ s : State, s.mem.wf = true →
    let p := s16 (s.read r)
    let b := s.mem.readWord p.toNat
    let a := s.mem.readWord (p + 2).toNat
    (wordFits p → wordFits (p + 2) → dividesByZero f b = false →
      Ends (fun t => t.read r = s.read r + 2 ∧ t.mem.readWord (p + 2).toNat = aluWord f a b ∧
        t.testBit = decide (aluWord f a b ≠ 0) ∧ Unchanged [r] true (wordAt (p + 2)) s t) (exec (.sop f r) s)) ∧
    (wordFits p → wordFits (p + 2) → dividesByZero f b = true →
      Ends (FaultTaken .divideByZero s.ir.toNat .permanentError s) (exec (.sop f r) s)) ∧
    (¬ wordFits p → Ends (FaultTaken .memoryFault p .permanentError s) (exec (.sop f r) s)) ∧
    (wordFits p → ¬ wordFits (p + 2) → Ends (FaultTaken .memoryFault (p + 2) .permanentError s) (exec (.sop f r) s))

/-- `sop` with a unary operation: the result replaces the top item, T is set from it, the stack register stays (the spec's
decision D18). -/
def Obligations.SopUnary : Prop :=
  ∀ f r, f.unary = true → Encodes (.sop f r) (nibbles 0x2 0x7 f.toNib r.toNib) ∧ ∀ s : State, s.mem.wf = true →
    let p := s16 (s.read r)
    let v := aluWord f (s.mem.readWord p.toNat) 0
    (wordFits p → Ends (fun t => t.mem.readWord p.toNat = v ∧ t.testBit = decide (v ≠ 0) ∧
      Unchanged [] true (wordAt p) s t) (exec (.sop f r) s)) ∧
    (¬ wordFits p → Ends (FaultTaken .memoryFault p .permanentError s) (exec (.sop f r) s))

/-! ### TEST -/

/-- The comparisons of two registers, signed; only T changes. -/
def Obligations.TestRegisters : Prop :=
  ∀ r q,
    (Encodes (.eq r q) (nibbles 0x3 0x0 r.toNib q.toNib) ∧ SetsTest (.eq r q) fun s => decide (s.read r = s.read q)) ∧
    (Encodes (.neq r q) (nibbles 0x3 0x1 r.toNib q.toNib) ∧ SetsTest (.neq r q) fun s => decide (s.read r ≠ s.read q)) ∧
    (Encodes (.gt r q) (nibbles 0x3 0x2 r.toNib q.toNib) ∧ SetsTest (.gt r q) fun s => (s.read q).slt (s.read r)) ∧
    (Encodes (.gte r q) (nibbles 0x3 0x3 r.toNib q.toNib) ∧ SetsTest (.gte r q) fun s => (s.read q).sle (s.read r)) ∧
    (Encodes (.lt r q) (nibbles 0x3 0x4 r.toNib q.toNib) ∧ SetsTest (.lt r q) fun s => (s.read r).slt (s.read q)) ∧
    (Encodes (.lte r q) (nibbles 0x3 0x5 r.toNib q.toNib) ∧ SetsTest (.lte r q) fun s => (s.read r).sle (s.read q))

/-- The comparisons of a register with a constant 0 to 15, signed; only T changes. -/
def Obligations.TestConstants : Prop :=
  ∀ (r : Reg) (n : Nib),
    let c : Word := n.setWidth 16
    (Encodes (.eqi r n) (nibbles 0x3 0x8 r.toNib n) ∧ SetsTest (.eqi r n) fun s => decide (s.read r = c)) ∧
    (Encodes (.neqi r n) (nibbles 0x3 0x9 r.toNib n) ∧ SetsTest (.neqi r n) fun s => decide (s.read r ≠ c)) ∧
    (Encodes (.gti r n) (nibbles 0x3 0xA r.toNib n) ∧ SetsTest (.gti r n) fun s => c.slt (s.read r)) ∧
    (Encodes (.gtei r n) (nibbles 0x3 0xB r.toNib n) ∧ SetsTest (.gtei r n) fun s => c.sle (s.read r)) ∧
    (Encodes (.lti r n) (nibbles 0x3 0xC r.toNib n) ∧ SetsTest (.lti r n) fun s => (s.read r).slt c) ∧
    (Encodes (.ltei r n) (nibbles 0x3 0xD r.toNib n) ∧ SetsTest (.ltei r n) fun s => (s.read r).sle c)

/-! ### Loads and stores -/

/-- The word loads: register-indexed, absolute, absolute plus offset register. -/
def Obligations.WordLoads : Prop :=
  let word (s : State) (a : Nat) : Word := s.mem.readByte a ++ s.mem.readByte (a + 1)
  (∀ b o t, Encodes (.lwr b o t) (nibbles 0x4 b.toNib o.toNib t.toNib) ∧
    LoadsFrom (.lwr b o t) t (fun s => s16 (s.read b) + s16 (s.read o)) wordFits word) ∧
  (∀ t w, EncodesPair (.lw t w) (nibbles 0x8 0x0 t.toNib 0) w ∧ LoadsFrom (.lw t w) t (fun _ => s16 w) wordFits word) ∧
  ∀ t o w, EncodesPair (.lwo t o w) (nibbles 0x8 0x1 t.toNib o.toNib) w ∧
    LoadsFrom (.lwo t o w) t (fun s => s16 w + s16 (s.read o)) wordFits word

/-- The byte loads, extended by sign (BYTE_LOAD_EXTENSION = sign, the default; the spec's decision D24). -/
def Obligations.ByteLoads : Prop :=
  let byte (s : State) (a : Nat) : Word := (s.mem.readByte a).signExtend 16
  (∀ b o t, Encodes (.lbr b o t) (nibbles 0x5 b.toNib o.toNib t.toNib) ∧
    LoadsFrom (.lbr b o t) t (fun s => s16 (s.read b) + s16 (s.read o)) byteFits byte) ∧
  (∀ t w, EncodesPair (.lb t w) (nibbles 0x8 0x2 t.toNib 0) w ∧ LoadsFrom (.lb t w) t (fun _ => s16 w) byteFits byte) ∧
  ∀ t o w, EncodesPair (.lbo t o w) (nibbles 0x8 0x3 t.toNib o.toNib) w ∧
    LoadsFrom (.lbo t o w) t (fun s => s16 w + s16 (s.read o)) byteFits byte

/-- The word stores. -/
def Obligations.WordStores : Prop :=
  (∀ b o t, Encodes (.swr b o t) (nibbles 0x6 b.toNib o.toNib t.toNib) ∧
    StoresWord (.swr b o t) (fun s => s16 (s.read b) + s16 (s.read o)) fun s => s.read t) ∧
  (∀ t w, EncodesPair (.sw t w) (nibbles 0x8 0x4 t.toNib 0) w ∧ StoresWord (.sw t w) (fun _ => s16 w) fun s => s.read t) ∧
  ∀ t o w, EncodesPair (.swo t o w) (nibbles 0x8 0x5 t.toNib o.toNib) w ∧
    StoresWord (.swo t o w) (fun s => s16 w + s16 (s.read o)) fun s => s.read t

/-- The byte stores: the low 8 bits of the register. -/
def Obligations.ByteStores : Prop :=
  (∀ b o t, Encodes (.sbr b o t) (nibbles 0x7 b.toNib o.toNib t.toNib) ∧
    StoresByte (.sbr b o t) (fun s => s16 (s.read b) + s16 (s.read o)) fun s => (s.read t).setWidth 8) ∧
  (∀ t w, EncodesPair (.sb t w) (nibbles 0x8 0x6 t.toNib 0) w ∧
    StoresByte (.sb t w) (fun _ => s16 w) fun s => (s.read t).setWidth 8) ∧
  ∀ t o w, EncodesPair (.sbo t o w) (nibbles 0x8 0x7 t.toNib o.toNib) w ∧
    StoresByte (.sbo t o w) (fun s => s16 w + s16 (s.read o)) fun s => (s.read t).setWidth 8

/-! ### Control transfer -/

/-- `jr` and `ret`: PC takes the register; `ret` is the reading of the word of `jr ra`, and both do the same; the source
lines `ret`, `jr` and `jr ra` are one instruction. -/
def Obligations.RegisterJumps : Prop :=
  (assembleLine "ret".toList [] = .ok (.ret, none) ∧ assembleLine "jr".toList [] = .ok (.ret, none) ∧
    assembleLine "jr".toList [.name "ra".toList] = .ok (.ret, none)) ∧
  (∀ r, r ≠ .ra → Encodes (.jr r) (nibbles 0x9 0 0 r.toNib)) ∧ Encodes .ret (nibbles 0x9 0 0 0xB) ∧
  (∀ r, JumpsTo (.jr r) fun s => s.read r) ∧ JumpsTo .ret (fun s => s.read .ra) ∧
  ∀ s : State, exec .ret s = exec (.jr .ra) s

/-- `j`, `jz` and `jnz`: the 12-bit target is an absolute address; a jump not taken leaves PC alone. -/
def Obligations.Jumps : Prop :=
  (∀ a : Target, Encodes (.j a) (0xC#4 ++ a) ∧ JumpsTo (.j a) fun _ => a.setWidth 16) ∧
  (∀ a : Target, Encodes (.jz a) (0xD#4 ++ a) ∧
    JumpsTo (.jz a) fun s => if s.testBit = false then a.setWidth 16 else s.read .pc) ∧
  ∀ a : Target, Encodes (.jnz a) (0xE#4 ++ a) ∧
    JumpsTo (.jnz a) fun s => if s.testBit = true then a.setWidth 16 else s.read .pc

/-- `jal`: `ra` takes the PC, which is the address of the next instruction, then PC takes the target. -/
def Obligations.JumpAndLink : Prop :=
  ∀ a : Target, Encodes (.jal a) (0xF#4 ++ a) ∧ ∀ s : State,
    Ends (fun t => t.read .ra = s.read .pc ∧ t.read .pc = a.setWidth 16 ∧
      Unchanged [.ra, .pc] false nowhere s t) (exec (.jal a) s)

/-! ### Services -/

/-- `sys` by what its selector selects: no service, exit, the error service, the formatted print, `sleep`, which changes
nothing but the model's count of calls, or another service the host answers.  Each of these has the effects of its class and no
other (R520): the registers, memory and faults of `ServiceFrame`.  A class that names no register has all of A0 to A3
and RV (R522), and a sprite draw with an index outside the loaded sprites has all of R522's frame (R527).  (The spec's decisions
D32, D33, D34, D35, D36; the answer's form and the count are the model's, log 5; how the classes are read and which services
answer a fault are the model's, logs 6 and 8; that a `sleep` never faults is its deduction from R528, log 25.) -/
def Obligations.SystemCall : Prop :=
  (∀ k : Byte, Encodes (.sys k) (0x01#8 ++ k)) ∧ Config.serviceOf 0x00 = some .exit ∧
  Config.serviceOf 0xFF = some .error ∧
  (∀ s : State, exec (.sys 0x00) s = .next { s with status := .finished, finishCause := some .exit }) ∧
  (∀ (k : Byte) (s : State), exec (.sys k) s =
    match Config.serviceOf k with
    | none => .next { s with status := .defect, fault := { cause := .illegalInstruction, info := s.ir.toNat } }
    | some .exit => .next { s with status := .finished, finishCause := some .exit }
    | some .error => s.errorService
    | some (.host .printf) => s.perform k (.host .printf)
    | some (.host .sleep) => .next s.called
    | some (.host h) => s.callHost k h) ∧
  ∀ (k : Byte) (s : State), Ends (fun t =>
    match Config.serviceOf k with
    | none => FaultTaken .illegalInstruction s.ir.toNat .defect s t
    | some .exit => t = { s with status := .finished, finishCause := some .exit }
    | some .error => t.status = .permanentError ∧
        t = { s with status := t.status, fault := t.fault, errorMessage := t.errorMessage }
    | some (.host h) => ServiceFrame h k s t)
    (exec (.sys k) s)

/-- The error service reads the bytes at A0 up to the first zero, hands them over as the message and raises ProgramError with
their address; a byte it cannot read raises MemoryFault instead (the spec's decision D36; the message is held in
`errorMessage`, log 9). -/
def Obligations.ErrorService : Prop :=
  ∀ s : State, let msg := s16 (s.read .a0)
    (∀ n : Nat, 0 ≤ msg → msg + n ≤ 4095 → (∀ i < n, s.mem.readByte (msg.toNat + i) ≠ 0) →
      s.mem.readByte (msg.toNat + n) = 0 →
      Ends (FaultTaken .programError msg .permanentError
        { s with errorMessage := some ((List.range n).map fun i => s.mem.readByte (msg.toNat + i)) })
        (exec (.sys 0xFF) s)) ∧
    (¬ byteFits msg → Ends (FaultTaken .memoryFault msg .permanentError s) (exec (.sys 0xFF) s)) ∧
    (byteFits msg → (∀ a : Nat, msg.toNat ≤ a → a ≤ 4095 → s.mem.readByte a ≠ 0) →
      Ends (FaultTaken .memoryFault 4096 .permanentError s) (exec (.sys 0xFF) s))

/-- The formatted print, for a format without `%%` before the specifier or the zero byte: a `%d`, `%c` or `%s` before the zero
byte raises ServiceError with the selector and the host is not called; a format without one is handed to the host.  A
format whose first byte is out of range raises MemoryFault.  The specifiers are the spec's (its decision D35); that the machine
scans the format byte by byte up to a zero byte, before the host is called, is the model's choice, and which register holds
its address and what `%%` does are open (log 7). -/
def Obligations.FormatSpecifiers : Prop :=
  ∀ (k : Byte) (s : State), let a := s16 (s.read (serviceReg Config.printfFormatReg))
    let char (i : Nat) : Byte := s.mem.readByte (a.toNat + i)
    let plain (n : Nat) : Prop :=
      ∀ i < n, char i ≠ 0 ∧ (char i = 0x25 → char (i + 1) ∉ [(0x25 : Byte), 0x64, 0x63, 0x73])
    (∀ n : Nat, 0 ≤ a → a + n + 1 ≤ 4095 → plain n → char n = 0x25 → char (n + 1) ∈ [(0x64 : Byte), 0x63, 0x73] →
      Ends (FaultTaken .serviceError k.toNat .permanentError s) (s.perform k (.host .printf))) ∧
    (∀ n : Nat, 0 ≤ a → a + n ≤ 4095 → plain n → char n = 0 →
      s.perform k (.host .printf) = s.callHost k .printf) ∧
    (¬ byteFits a → Ends (FaultTaken .memoryFault a .permanentError s) (s.perform k (.host .printf)))

/-- The host's requests are performed in order; the first that fails its range check raises MemoryFault at its address, what
came before it stays and nothing follows.  A call of a service other than the raw memory copy does what the host answers,
held to the effect class of the service, and an answer of the class is performed as it is; so is every answer to a sprite draw
with an index outside the loaded sprites (R527), a MemoryFault being at an address whose check fails; the answer is values
and accesses, or a fault, which changes nothing else.  The raw memory copy copies: where both ranges lie in memory the
destination takes the source's bytes (free bytes where the ranges overlap) and the machine goes on, else MemoryFault is
raised at an address out of range; it changes no byte outside the destination and no register but A0 to A3 and RV (the
spec's decision D33; the list of requests, and the copy's operands as a function of the argument registers, are the model's
form, log 5; how an answer is held to its class is the model's, logs 6 and 8; that a copy in range ends without a fault of the
host is its deduction from R524, log 25). -/
def Obligations.HostRequestsInOrder : Prop :=
  (∀ (s : State) (as : List HostAction) (k : State → Result), (∀ x ∈ as, hostFaultAt x = none) →
    s.hostActions as k = k (as.foldl State.hostApplied s)) ∧
  (∀ (s : State) (as rest : List HostAction) (x : HostAction) (a : Int) (k : State → Result),
    (∀ x ∈ as, hostFaultAt x = none) → hostFaultAt x = some a →
    Ends (FaultTaken .memoryFault a .permanentError (as.foldl State.hostApplied s)) (s.hostActions (as ++ x :: rest) k)) ∧
  (∀ (s : State) (k : Byte) (h : HostService), h ≠ .memcopy →
    s.callHost k h = .next (s.called.afterAnswer k (heldTo (serviceEffects h s.spriteLoaded) .allow
      (Config.hostAnswer s.hostCalls h s.serviceArgs s.mem s.sprites)))) ∧
  (∀ (e : ServiceEffects) (as : List HostAction), (∀ x ∈ as, e.permits x = true) →
    heldTo e .allow (.values as) = .values as) ∧
  (∀ (e : ServiceEffects) (a : Int), e.reads = true ∨ e.writes = true → ¬ wordFits a →
    heldTo e .allow (.memoryFault a) = .memoryFault a) ∧
  (∀ ans : HostAnswer, (∀ a, ans = .memoryFault a → ¬ wordFits a) →
    heldTo (serviceEffects .drawimg false) .allow ans = ans) ∧
  (∀ (s : State) (k : Byte) (a : Int),
    FaultTaken .memoryFault a .permanentError s (s.afterAnswer k (.memoryFault a)) ∧
    FaultTaken .serviceError k.toNat .permanentError s (s.afterAnswer k .serviceError)) ∧
  (∀ (s : State) (k : Byte),
    s.callHost k .memcopy = .next (s.called.afterAnswer k (s.copyAnswer (Config.copyArgs s.serviceArgs)))) ∧
  ∀ (s : State) (k : Byte) (c : CopyArgs), s.mem.wf = true →
    let t := s.called.afterAnswer k (s.copyAnswer c)
    t = { s.called with regs := t.regs, mem := t.mem, status := t.status, fault := t.fault } ∧
    (∀ q, q ∉ [Reg.a0, .a1, .a2, .a3, .rv] → t.read q = s.read q) ∧
    (∀ x : Nat, (x < c.dst ∨ c.dst + c.len ≤ x) → t.mem.readByte x = s.mem.readByte x) ∧
    (copyFits c → t.status = s.status ∧ t.fault = s.fault ∧
      (copyDisjoint c → ∀ i < c.len, t.mem.readByte (c.dst + i).toNat = s.mem.readByte (c.src + i).toNat)) ∧
    (¬ copyFits c → t.status = .permanentError ∧ t.fault.cause = .memoryFault ∧ ¬ byteFits t.fault.info ∧
      ∃ i < c.len, t.fault.info = c.src + i ∨ t.fault.info = c.dst + i)

/-! ### Memory -/

/-- The range check of every bus request: a request whose first or last byte is outside [0, 4095] is not performed and raises
MemoryFault at its address (a word at 4095: the spec's decision D22), and under MISALIGNED_POLICY = fault so does a word at
an odd address; under the default, allow, a word at an odd address is like any other. -/
def Obligations.BusRangeCheck : Prop :=
  (∀ (p : Params) (s : State) (q : BusRequest) (k : Word → State → Result),
    q.addr < 0 ∨ q.addr + accessBytes q.width - 1 > 4095 ∨
      p.misalignedPolicy = .fault ∧ q.width = .word ∧ q.addr % 2 ≠ 0 →
      Ends (FaultTaken .memoryFault q.addr .permanentError s) (s.bus q k p)) ∧
  Config.params.misalignedPolicy = .allow ∧
  ∀ (p : Params) (s : State) (a : Int) (k : Word → State → Result), p.misalignedPolicy = .allow → wordFits a →
    s.bus (.read a .word) k p = k (s.mem.readWord a.toNat) s

/-- Byte order: what bytes and words read as after a word or a byte is stored in the 4096 bytes of memory (data
words: the spec's decision D21). -/
def Obligations.BigEndianWords : Prop :=
  (∀ (m : Memory) (a : Nat), m.readWord a = m.readByte a ++ m.readByte (a + 1)) ∧
  (∀ (m : Memory) (a : Nat) (v : Word), m.wf = true → a ≤ 4094 →
    (m.writeWord a v).readByte a = v.extractLsb' 8 8 ∧ (m.writeWord a v).readByte (a + 1) = v.extractLsb' 0 8 ∧
    (∀ b, b ≠ a → b ≠ a + 1 → (m.writeWord a v).readByte b = m.readByte b) ∧ (m.writeWord a v).wf = true) ∧
  ∀ (m : Memory) (a : Nat) (v : Byte), m.wf = true → a ≤ 4094 →
    (m.writeByte a v).readWord a = v ++ (m.readWord a).extractLsb' 0 8

/-! ### The run -/

/-- The start of a run: READY becomes EXECUTING, the pulse counter starts at 0; any other machine is left as it is. -/
def Obligations.StartOfRun : Prop :=
  (∀ s : State, s.status = .ready → s.startOfRun = { s with status := .executing, pulse := 0 }) ∧
  ∀ s : State, s.status ≠ .ready → s.startOfRun = s

/-- A machine that is not EXECUTING steps to itself and stays as it is through any number of moves of the run loop (the run
loop as moves is the model's form, log 10). -/
def Obligations.HaltStands : Prop :=
  ∀ s : State, s.status ≠ .executing → step s = .next s ∧ ∀ n : Nat, runMoves n s = .next s

/-- The host stops the machine only between pulses, when it reports its window closed, and changes nothing but the status, the
finish cause, the pulse counter and the count of its polls (the spec's decisions D31, D41; log 10). -/
def Obligations.HostStopBetweenPulses : Prop :=
  ∀ s : State, s.status = .executing → Ends (fun t =>
    if s.pulse < Config.pulseCycles then
      (t.finishCause = s.finishCause ∨ t.finishCause = some .exit) ∧ t.pulse = s.pulse + 1 ∧ t.sleeps = s.sleeps
    else if Config.windowClosed s.sleeps then
      t = { s with status := .finished, finishCause := some .hostStop, pulse := 0, sleeps := s.sleeps + 1 }
    else t = { s with pulse := 0, sleeps := s.sleeps + 1 }) (runMove s)

/-- From any state with the invariant and at most PULSE_CYCLES cycles counted, any number of moves of the run loop ends in
such a state. -/
def Obligations.RunKeepsInvariant : Prop :=
  ∀ (n : Nat) (s : State), s.Inv → s.pulse ≤ Config.pulseCycles →
    Ends (fun t => t.Inv ∧ t.pulse ≤ Config.pulseCycles) (runMoves n s)

/-! ### Load and reset -/

/-- The containers a load refuses: a wrong format tag, more than 4096 bytes, more than 10 sprites; no other (the spec's
decision D39).  That a container with an entry outside -128 to 127 is not refused for it is the model's choice (log 26). -/
def Obligations.LoadRefusals : Prop :=
  ∀ (c : Container) (arg : Option (List Byte)),
    (∃ r, load c arg = .refused r) ↔
      c.format ≠ "Orc1" ∨ c.code.length + c.data.length > 4096 ∨ c.sprites.length > 10

/-- The state after a load without an argument, under any INITIAL_SP, whose default is 4096: every byte of memory, every
register and every other piece of state (the spec's decisions D26, D27, D28).  That an entry outside -128 to 127 is stored
modulo 256 (log 26), that the sprites stand in the state (log 17),
and the reset values of the model's own fields, the error message, the pulse counter, the counts of polls, of host calls and
of shift draws (logs 5, 9, 10, 12), are the model's choices. -/
def Obligations.LoadedState : Prop :=
  Config.params.initialSp = 4096 ∧ ∀ (p : Params) (c : Container) (s : State), load c none p = .machine s →
    (∀ (a : Nat) (h : a < c.code.length), s.mem.readByte a = BitVec.ofInt 8 c.code[a]) ∧
    (∀ (a : Nat) (h : a < c.data.length), s.mem.readByte (c.code.length + a) = BitVec.ofInt 8 c.data[a]) ∧
    (∀ a, c.code.length + c.data.length ≤ a → s.mem.readByte a = 0) ∧
    (∀ q, q ∉ [Reg.sp, .bp] → s.read q = 0) ∧ s.read .sp = p.initialSp ∧
    s.read .bp = BitVec.ofNat 16 (c.code.length + c.data.length) ∧
    s.cb = BitVec.ofNat 16 c.code.length - 1 ∧ s.db = BitVec.ofNat 16 (c.code.length + c.data.length) - 1 ∧
    s.ir = s.mem.readByte 0 ++ s.mem.readByte 1 ∧ s.dr = 0 ∧ s.flags = 0 ∧ s.io = 0 ∧ s.status = .ready ∧
    s.finishCause = none ∧ s.fault = { cause := .none, info := 0 } ∧ s.sprites = c.sprites ∧
    s.errorMessage = none ∧ s.pulse = 0 ∧ s.sleeps = 0 ∧ s.hostCalls = 0 ∧ s.shiftDraws = 0

/-- Every machine a load gives, with or without an argument, meets the invariant, and so does the machine started. -/
def Obligations.LoadMeetsInvariant : Prop :=
  ∀ (c : Container) (arg : Option (List Byte)) (s : State), load c arg = .machine s → s.Inv ∧ s.startOfRun.Inv

/-- `State.reset` is what the load of an empty container gives (the model's choice of a reset state, log 1). -/
def Obligations.ResetIsEmptyLoad : Prop :=
  load { format := "Orc1", code := [], data := [], sprites := [] } none = .machine State.reset

/-! ### The assembler's patch -/

/-- Patching a jump replaces the low 12 bits of its word and keeps the rest; patching a LOAD instruction replaces the whole
second word.  A patched jump is the jump to the address. -/
def Obligations.PatchRewritesAddressBits : Prop :=
  (∀ (w : Word) (a : Nat), a < 4096 →
    (patchWord false w a).extractLsb' 12 4 = w.extractLsb' 12 4 ∧ ((patchWord false w a).extractLsb' 0 12).toNat = a) ∧
  (∀ (w : Word) (a : Nat), a < 4096 → (patchWord true w a).toNat = a) ∧
  ∀ a : Target, encode (.j a) = [patchWord false 0xC000 a.toNat] ∧ encode (.jz a) = [patchWord false 0xD000 a.toNat] ∧
    encode (.jnz a) = [patchWord false 0xE000 a.toNat] ∧ encode (.jal a) = [patchWord false 0xF000 a.toNat]
end

