-- ==== Sys2Proof/Laws/State.lean ====
section
/-! SUPPORT. The small lemmas of the state: register reads after writes, and one lemma for each field and each update. -/

namespace Sys2Proof.Machine

@[simp] theorem RegFile.read_write (f : RegFile) (r q : Reg) (v : Word) :
    (f.write r v).read q = if q = r then v else f.read q := by
  cases r <;> cases q <;> rfl

@[simp] theorem RegFile.write_read (f : RegFile) (r : Reg) : f.write r (f.read r) = f := by
  cases r <;> rfl

@[simp] theorem State.read_write (s : State) (r q : Reg) (v : Word) :
    (s.write r v).read q = if q = r then v else s.read q := RegFile.read_write s.regs r q v

@[simp] theorem State.write_read (s : State) (r : Reg) : s.write r (s.read r) = s := by
  simp [State.write, State.read]

theorem RegFile.ext_read (f g : RegFile) (h : ∀ r, f.read r = g.read r) : f = g := by
  cases f; cases g
  have := h .t0; have := h .t1; have := h .t2; have := h .t3; have := h .t4; have := h .t5
  have := h .a0; have := h .a1; have := h .a2; have := h .a3; have := h .rv; have := h .ra
  have := h .fp; have := h .sp; have := h .bp; have := h .pc
  simp_all [RegFile.read]

/-! ### Fields after a register write -/

@[simp] theorem State.write_regs (s : State) (r : Reg) (v : Word) : (s.write r v).regs = s.regs.write r v := rfl
@[simp] theorem State.write_ir (s : State) (r : Reg) (v : Word) : (s.write r v).ir = s.ir := rfl
@[simp] theorem State.write_dr (s : State) (r : Reg) (v : Word) : (s.write r v).dr = s.dr := rfl
@[simp] theorem State.write_cb (s : State) (r : Reg) (v : Word) : (s.write r v).cb = s.cb := rfl
@[simp] theorem State.write_db (s : State) (r : Reg) (v : Word) : (s.write r v).db = s.db := rfl
@[simp] theorem State.write_io (s : State) (r : Reg) (v : Word) : (s.write r v).io = s.io := rfl
@[simp] theorem State.write_flags (s : State) (r : Reg) (v : Word) : (s.write r v).flags = s.flags := rfl
@[simp] theorem State.write_mem (s : State) (r : Reg) (v : Word) : (s.write r v).mem = s.mem := rfl
@[simp] theorem State.write_status (s : State) (r : Reg) (v : Word) : (s.write r v).status = s.status := rfl
@[simp] theorem State.write_finishCause (s : State) (r : Reg) (v : Word) : (s.write r v).finishCause = s.finishCause := rfl
@[simp] theorem State.write_fault (s : State) (r : Reg) (v : Word) : (s.write r v).fault = s.fault := rfl
@[simp] theorem State.write_errorMessage (s : State) (r : Reg) (v : Word) : (s.write r v).errorMessage = s.errorMessage := rfl
@[simp] theorem State.write_pulse (s : State) (r : Reg) (v : Word) : (s.write r v).pulse = s.pulse := rfl
@[simp] theorem State.write_sleeps (s : State) (r : Reg) (v : Word) : (s.write r v).sleeps = s.sleeps := rfl
@[simp] theorem State.write_hostCalls (s : State) (r : Reg) (v : Word) : (s.write r v).hostCalls = s.hostCalls := rfl
@[simp] theorem State.write_shiftDraws (s : State) (r : Reg) (v : Word) : (s.write r v).shiftDraws = s.shiftDraws := rfl
@[simp] theorem State.write_sprites (s : State) (r : Reg) (v : Word) : (s.write r v).sprites = s.sprites := rfl

/-! ### Fields after an update of T -/

@[simp] theorem State.read_setTest (s : State) (b : Bool) (q : Reg) : (s.setTest b).read q = s.read q := rfl
@[simp] theorem State.setTest_regs (s : State) (b : Bool) : (s.setTest b).regs = s.regs := rfl
@[simp] theorem State.setTest_ir (s : State) (b : Bool) : (s.setTest b).ir = s.ir := rfl
@[simp] theorem State.setTest_dr (s : State) (b : Bool) : (s.setTest b).dr = s.dr := rfl
@[simp] theorem State.setTest_cb (s : State) (b : Bool) : (s.setTest b).cb = s.cb := rfl
@[simp] theorem State.setTest_db (s : State) (b : Bool) : (s.setTest b).db = s.db := rfl
@[simp] theorem State.setTest_io (s : State) (b : Bool) : (s.setTest b).io = s.io := rfl
@[simp] theorem State.setTest_mem (s : State) (b : Bool) : (s.setTest b).mem = s.mem := rfl
@[simp] theorem State.setTest_status (s : State) (b : Bool) : (s.setTest b).status = s.status := rfl
@[simp] theorem State.setTest_finishCause (s : State) (b : Bool) : (s.setTest b).finishCause = s.finishCause := rfl
@[simp] theorem State.setTest_fault (s : State) (b : Bool) : (s.setTest b).fault = s.fault := rfl
@[simp] theorem State.setTest_errorMessage (s : State) (b : Bool) : (s.setTest b).errorMessage = s.errorMessage := rfl
@[simp] theorem State.setTest_pulse (s : State) (b : Bool) : (s.setTest b).pulse = s.pulse := rfl
@[simp] theorem State.setTest_sleeps (s : State) (b : Bool) : (s.setTest b).sleeps = s.sleeps := rfl
@[simp] theorem State.setTest_hostCalls (s : State) (b : Bool) : (s.setTest b).hostCalls = s.hostCalls := rfl
@[simp] theorem State.setTest_shiftDraws (s : State) (b : Bool) : (s.setTest b).shiftDraws = s.shiftDraws := rfl
@[simp] theorem State.setTest_sprites (s : State) (b : Bool) : (s.setTest b).sprites = s.sprites := rfl

@[simp] theorem State.testBit_setTest (s : State) (b : Bool) : (s.setTest b).testBit = b := by
  cases b <;> simp [State.testBit, State.setTest]

theorem State.setTest_reserved (s : State) (b : Bool) (i : Nat) (h : i ≠ 0) :
    (s.setTest b).flags.getLsbD i = s.flags.getLsbD i := by
  by_cases hi : i < 16
  · cases b <;> simp only [State.setTest] <;>
      (interval_cases i <;> simp_all)
  · rw [BitVec.getLsbD_of_ge _ _ (by omega), BitVec.getLsbD_of_ge _ _ (by omega)]

/-- The last update of T counts. -/
@[simp] theorem State.setTest_setTest (s : State) (a b : Bool) : (s.setTest a).setTest b = s.setTest b := by
  have h : ((s.flags &&& 0xFFFE ||| if a then 1 else 0) &&& 0xFFFE) = s.flags &&& (0xFFFE : Word) := by
    apply BitVec.eq_of_getLsbD_eq
    intro i hi
    cases a <;> interval_cases i <;> simp
  simp only [State.setTest, h]

@[simp] theorem State.testBit_write (s : State) (r : Reg) (v : Word) : (s.write r v).testBit = s.testBit := rfl

/-! ### Fields after a fault is taken -/

theorem State.raise_of_halt (s : State) (c : FaultCause) (info : Int) (h : Status) (hc : c.haltStatus = some h) :
    s.raise c info = { s with status := h, fault := { cause := c, info := info } } := by
  simp [State.raise, hc]

@[simp] theorem State.read_raise (s : State) (c : FaultCause) (info : Int) (q : Reg) : (s.raise c info).read q = s.read q := by
  cases c <;> rfl
@[simp] theorem State.raise_regs (s : State) (c : FaultCause) (info : Int) : (s.raise c info).regs = s.regs := by cases c <;> rfl
@[simp] theorem State.raise_ir (s : State) (c : FaultCause) (info : Int) : (s.raise c info).ir = s.ir := by cases c <;> rfl
@[simp] theorem State.raise_dr (s : State) (c : FaultCause) (info : Int) : (s.raise c info).dr = s.dr := by cases c <;> rfl
@[simp] theorem State.raise_cb (s : State) (c : FaultCause) (info : Int) : (s.raise c info).cb = s.cb := by cases c <;> rfl
@[simp] theorem State.raise_db (s : State) (c : FaultCause) (info : Int) : (s.raise c info).db = s.db := by cases c <;> rfl
@[simp] theorem State.raise_io (s : State) (c : FaultCause) (info : Int) : (s.raise c info).io = s.io := by cases c <;> rfl
@[simp] theorem State.raise_flags (s : State) (c : FaultCause) (info : Int) : (s.raise c info).flags = s.flags := by cases c <;> rfl
@[simp] theorem State.raise_mem (s : State) (c : FaultCause) (info : Int) : (s.raise c info).mem = s.mem := by cases c <;> rfl
@[simp] theorem State.raise_finishCause (s : State) (c : FaultCause) (info : Int) : (s.raise c info).finishCause = s.finishCause := by cases c <;> rfl
@[simp] theorem State.raise_errorMessage (s : State) (c : FaultCause) (info : Int) : (s.raise c info).errorMessage = s.errorMessage := by cases c <;> rfl
@[simp] theorem State.raise_pulse (s : State) (c : FaultCause) (info : Int) : (s.raise c info).pulse = s.pulse := by cases c <;> rfl
@[simp] theorem State.raise_sleeps (s : State) (c : FaultCause) (info : Int) : (s.raise c info).sleeps = s.sleeps := by cases c <;> rfl
@[simp] theorem State.raise_hostCalls (s : State) (c : FaultCause) (info : Int) : (s.raise c info).hostCalls = s.hostCalls := by cases c <;> rfl
@[simp] theorem State.raise_shiftDraws (s : State) (c : FaultCause) (info : Int) : (s.raise c info).shiftDraws = s.shiftDraws := by cases c <;> rfl
@[simp] theorem State.raise_sprites (s : State) (c : FaultCause) (info : Int) : (s.raise c info).sprites = s.sprites := by cases c <;> rfl

/-! ### Fields after the machine finishes -/

@[simp] theorem State.read_finish (s : State) (c : FinishCause) (q : Reg) : (s.finish c).read q = s.read q := rfl
@[simp] theorem State.finish_status (s : State) (c : FinishCause) : (s.finish c).status = .finished := rfl
@[simp] theorem State.finish_finishCause (s : State) (c : FinishCause) : (s.finish c).finishCause = some c := rfl
@[simp] theorem State.finish_regs (s : State) (c : FinishCause) : (s.finish c).regs = s.regs := rfl
@[simp] theorem State.finish_ir (s : State) (c : FinishCause) : (s.finish c).ir = s.ir := rfl
@[simp] theorem State.finish_dr (s : State) (c : FinishCause) : (s.finish c).dr = s.dr := rfl
@[simp] theorem State.finish_cb (s : State) (c : FinishCause) : (s.finish c).cb = s.cb := rfl
@[simp] theorem State.finish_db (s : State) (c : FinishCause) : (s.finish c).db = s.db := rfl
@[simp] theorem State.finish_io (s : State) (c : FinishCause) : (s.finish c).io = s.io := rfl
@[simp] theorem State.finish_flags (s : State) (c : FinishCause) : (s.finish c).flags = s.flags := rfl
@[simp] theorem State.finish_mem (s : State) (c : FinishCause) : (s.finish c).mem = s.mem := rfl
@[simp] theorem State.finish_fault (s : State) (c : FinishCause) : (s.finish c).fault = s.fault := rfl
@[simp] theorem State.finish_errorMessage (s : State) (c : FinishCause) : (s.finish c).errorMessage = s.errorMessage := rfl
@[simp] theorem State.finish_pulse (s : State) (c : FinishCause) : (s.finish c).pulse = s.pulse := rfl
@[simp] theorem State.finish_sleeps (s : State) (c : FinishCause) : (s.finish c).sleeps = s.sleeps := rfl
@[simp] theorem State.finish_hostCalls (s : State) (c : FinishCause) : (s.finish c).hostCalls = s.hostCalls := rfl
@[simp] theorem State.finish_shiftDraws (s : State) (c : FinishCause) : (s.finish c).shiftDraws = s.shiftDraws := rfl
@[simp] theorem State.finish_sprites (s : State) (c : FinishCause) : (s.finish c).sprites = s.sprites := rfl

/-! ### Reads after an update of another field -/

@[simp] theorem State.read_mem (s : State) (m : Memory) (q : Reg) : ({ s with mem := m } : State).read q = s.read q := rfl
@[simp] theorem State.read_ir (s : State) (w : Word) (q : Reg) : ({ s with ir := w } : State).read q = s.read q := rfl
@[simp] theorem State.read_dr (s : State) (w : Word) (q : Reg) : ({ s with dr := w } : State).read q = s.read q := rfl
@[simp] theorem State.read_errorMessage (s : State) (b : Option (List Byte)) (q : Reg) :
    ({ s with errorMessage := b } : State).read q = s.read q := rfl
@[simp] theorem State.read_hostCalls (s : State) (n : Nat) (q : Reg) :
    ({ s with hostCalls := n } : State).read q = s.read q := rfl
@[simp] theorem State.read_shiftDraws (s : State) (n : Nat) (q : Reg) :
    ({ s with shiftDraws := n } : State).read q = s.read q := rfl

/-! ### Derived updates -/

theorem State.bump_eq (s : State) (r : Reg) (n : Int) : s.bump r n = s.write r (trunc16 (s16 (s.read r) + n)) := rfl

/-- A register update by an integer is the 16-bit sum (R30). -/
theorem trunc16_add (w : Word) (n : Int) : trunc16 (s16 w + n) = w + BitVec.ofInt 16 n := by
  simp [BitVec.ofInt_add]

end Sys2Proof.Machine
end

