-- ==== Sys2Proof/Laws/Memory.lean ====
section
/-! SUPPORT. The laws of memory: reads after writes, byte order, and every operation keeps the canonical form. -/

namespace Sys2Proof

/-! ### Bytes of a word -/

@[simp] theorem hiByte_joinBytes (h l : Byte) : hiByte (joinBytes h l) = h := by
  apply BitVec.eq_of_toNat_eq; simp [hiByte, joinBytes]; omega

@[simp] theorem loByte_joinBytes (h l : Byte) : loByte (joinBytes h l) = l := by
  apply BitVec.eq_of_toNat_eq
  simp only [loByte, joinBytes, BitVec.toNat_ofNat]
  omega

@[simp] theorem joinBytes_hi_lo (w : Word) : joinBytes (hiByte w) (loByte w) = w := by
  apply BitVec.eq_of_toNat_eq; simp [hiByte, loByte, joinBytes]; omega

@[simp] theorem loByte_setWidth (b : Byte) : loByte (b.setWidth 16) = b := by
  apply BitVec.eq_of_toNat_eq
  simp only [loByte, BitVec.toNat_setWidth, BitVec.toNat_ofNat]
  omega

end Sys2Proof

namespace Sys2Proof.Machine

/-! ### The canonical form -/

theorem Memory.wfFrom_cons (lo a : Nat) (v : Byte) (rest : Memory) :
    Memory.wfFrom lo ((a, v) :: rest) = true ↔
      lo ≤ a ∧ a < 4096 ∧ v ≠ 0 ∧ Memory.wfFrom (a + 1) rest = true := by
  simp only [Memory.wfFrom, Bool.and_eq_true, decide_eq_true_eq, and_assoc]
  rfl

theorem Memory.wfFrom_mono {m : Memory} {lo lo' : Nat} (h : lo ≤ lo') (hm : Memory.wfFrom lo' m = true) :
    Memory.wfFrom lo m = true := by
  cases m with
  | nil => rfl
  | cons c rest =>
    obtain ⟨a, v⟩ := c
    rw [Memory.wfFrom_cons] at hm ⊢
    exact ⟨h.trans hm.1, hm.2⟩

/-- Below the first listed address memory reads as unlisted. -/
theorem Memory.readByte_below {m : Memory} {lo a : Nat} (hm : Memory.wfFrom lo m = true) (h : a < lo) :
    m.readByte a = 0 := by
  induction m generalizing lo with
  | nil => rfl
  | cons c rest ih =>
    obtain ⟨b, v⟩ := c
    rw [Memory.wfFrom_cons] at hm
    rw [Memory.readByte, if_neg (by omega)]
    exact ih hm.2.2.2 (by omega)

/-- From address 4096 up memory reads as unlisted. -/
theorem Memory.readByte_above {m : Memory} {lo a : Nat} (hm : Memory.wfFrom lo m = true) (h : 4096 ≤ a) :
    m.readByte a = 0 := by
  induction m generalizing lo with
  | nil => rfl
  | cons c rest ih =>
    obtain ⟨b, v⟩ := c
    rw [Memory.wfFrom_cons] at hm
    rw [Memory.readByte, if_neg (by omega)]
    exact ih hm.2.2.2

/-! ### One byte -/

/-- A write leaves every other byte alone, in any list. -/
theorem Memory.readByte_writeByte_ne (m : Memory) (a b : Nat) (v : Byte) (h : b ≠ a) :
    (m.writeByte a v).readByte b = m.readByte b := by
  induction m with
  | nil =>
    by_cases hv : v = Memory.unlisted
    · simp [Memory.writeByte, hv]
    · simp [Memory.writeByte, hv, Memory.readByte, h]
  | cons c rest ih =>
    obtain ⟨x, y⟩ := c
    simp only [Memory.writeByte]
    split_ifs with h1 h2 h3 h4
    · rfl
    · simp [Memory.readByte, h]
    · subst h3; simp [Memory.readByte, h]
    · subst h3; simp [Memory.readByte, h]
    · simp only [Memory.readByte, ih]

/-- A read after a write to the same address gives the value written. -/
theorem Memory.readByte_writeByte_self {m : Memory} {lo : Nat} (hm : Memory.wfFrom lo m = true) (a : Nat) (v : Byte) :
    (m.writeByte a v).readByte a = v := by
  induction m generalizing lo with
  | nil =>
    by_cases hv : v = Memory.unlisted
    · simp [Memory.writeByte, hv, Memory.readByte]
    · simp [Memory.writeByte, hv, Memory.readByte]
  | cons c rest ih =>
    obtain ⟨x, y⟩ := c
    have hm' := (Memory.wfFrom_cons _ _ _ _).mp hm
    simp only [Memory.writeByte]
    split_ifs with h1 h2 h3 h4
    · subst h2
      exact Memory.readByte_below (lo := x) ((Memory.wfFrom_cons _ _ _ _).mpr ⟨le_rfl, hm'.2⟩) h1
    · simp [Memory.readByte]
    · subst h3; subst h4
      exact Memory.readByte_below hm'.2.2.2 (by omega)
    · simp [Memory.readByte]
    · rw [Memory.readByte, if_neg h3]; exact ih hm'.2.2.2

theorem Memory.wfFrom_writeByte {m : Memory} {lo : Nat} (hm : Memory.wfFrom lo m = true) (a : Nat) (v : Byte)
    (hlo : lo ≤ a) (ha : a < 4096) : Memory.wfFrom lo (m.writeByte a v) = true := by
  induction m generalizing lo with
  | nil =>
    by_cases hv : v = Memory.unlisted
    · simp [Memory.writeByte, hv, Memory.wfFrom]
    · rw [Memory.writeByte, if_neg hv, Memory.wfFrom_cons]
      exact ⟨hlo, ha, hv, rfl⟩
  | cons c rest ih =>
    obtain ⟨x, y⟩ := c
    have hm' := (Memory.wfFrom_cons _ _ _ _).mp hm
    simp only [Memory.writeByte]
    split_ifs with h1 h2 h3 h4
    · exact hm
    · rw [Memory.wfFrom_cons]
      exact ⟨hlo, ha, h2, (Memory.wfFrom_cons _ _ _ _).mpr ⟨h1, hm'.2⟩⟩
    · exact Memory.wfFrom_mono (by omega) hm'.2.2.2
    · rw [Memory.wfFrom_cons]; subst h3
      exact ⟨hlo, ha, h4, hm'.2.2.2⟩
    · rw [Memory.wfFrom_cons]
      exact ⟨hm'.1, hm'.2.1, hm'.2.2.1, ih hm'.2.2.2 (by omega)⟩

/-- Storing a byte inside memory keeps the canonical form. -/
theorem Memory.wf_writeByte {m : Memory} (hm : m.wf = true) (a : Nat) (v : Byte) (ha : a < 4096) :
    (m.writeByte a v).wf = true := Memory.wfFrom_writeByte hm a v (Nat.zero_le _) ha

/-- What a byte reads as after a byte is stored. -/
theorem Memory.readByte_writeByte {m : Memory} (hm : m.wf = true) (a b : Nat) (v : Byte) :
    (m.writeByte a v).readByte b = if b = a then v else m.readByte b := by
  split_ifs with h
  · subst h; exact Memory.readByte_writeByte_self hm b v
  · exact Memory.readByte_writeByte_ne m a b v h

/-! ### Words -/

/-- Storing a word inside memory keeps the canonical form. -/
theorem Memory.wf_writeWord {m : Memory} (hm : m.wf = true) (a : Nat) (v : Word) (ha : a + 1 < 4096) :
    (m.writeWord a v).wf = true :=
  Memory.wf_writeByte (Memory.wf_writeByte hm a _ (by omega)) (a + 1) _ ha

/-- What a byte reads as after a word is stored: the high byte is at the lower address (R74, R75). -/
theorem Memory.readByte_writeWord {m : Memory} (hm : m.wf = true) (a b : Nat) (v : Word) (ha : a < 4096) :
    (m.writeWord a v).readByte b = if b = a then hiByte v else if b = a + 1 then loByte v else m.readByte b := by
  rw [Memory.writeWord, Memory.readByte_writeByte (Memory.wf_writeByte hm a _ ha), Memory.readByte_writeByte hm]
  split_ifs <;> simp_all

theorem Memory.readByte_writeWord_ne (m : Memory) (a b : Nat) (v : Word) (h : b ≠ a) (h' : b ≠ a + 1) :
    (m.writeWord a v).readByte b = m.readByte b := by
  rw [Memory.writeWord, Memory.readByte_writeByte_ne _ _ _ _ h', Memory.readByte_writeByte_ne _ _ _ _ h]

/-- A word read after a word stored at the same address gives that word. -/
theorem Memory.readWord_writeWord {m : Memory} (hm : m.wf = true) (a : Nat) (v : Word) (ha : a < 4096) :
    (m.writeWord a v).readWord a = v := by
  simp [Memory.readWord, Memory.readByte_writeWord hm _ _ _ ha]

/-- A word whose bytes lie apart from the stored ones reads as before. -/
theorem Memory.readWord_writeWord_ne (m : Memory) (a b : Nat) (v : Word) (h : b + 1 < a ∨ a + 1 < b) :
    (m.writeWord a v).readWord b = m.readWord b := by
  rw [Memory.readWord, Memory.readWord, Memory.readByte_writeWord_ne _ _ _ _ (by omega) (by omega),
    Memory.readByte_writeWord_ne _ _ _ _ (by omega) (by omega)]

/-! ### Accesses of a width, byte sequences, cells -/

theorem Memory.wf_writeWidth {m : Memory} (hm : m.wf = true) (a : Int) (n : Width) (v : Word)
    (h : inRange a n = true) : (m.writeWidth a.toNat n v).wf = true := by
  cases n <;> simp [inRange, accessBytes] at h
  · exact Memory.wf_writeByte hm _ _ (by omega)
  · exact Memory.wf_writeWord hm _ _ (by omega)

theorem Memory.wf_writeBytes {m : Memory} (hm : m.wf = true) (a : Nat) (vs : List Byte) :
    (m.writeBytes a vs).wf = true := by
  induction vs generalizing m a with
  | nil => exact hm
  | cons v vs ih =>
    rw [Memory.writeBytes]
    apply ih
    split_ifs with h
    · exact Memory.wf_writeByte hm a v h
    · exact hm

/-- What a byte reads as after consecutive bytes are stored. -/
theorem Memory.readByte_writeBytes {m : Memory} (hm : m.wf = true) (a b : Nat) (vs : List Byte) :
    (m.writeBytes a vs).readByte b =
      if h : a ≤ b ∧ b < a + vs.length ∧ b < 4096 then vs[b - a]'(by omega) else m.readByte b := by
  induction vs generalizing m a with
  | nil => rw [dif_neg (by simp; omega)]; rfl
  | cons v vs ih =>
    have hm' : (if a < memorySize then m.writeByte a v else m).wf = true := by
      split_ifs with h
      · exact Memory.wf_writeByte hm a v h
      · exact hm
    rw [Memory.writeBytes, ih hm']
    by_cases hb : b = a
    · subst hb
      rw [dif_neg (by omega)]
      by_cases h4 : b < 4096
      · rw [dif_pos ⟨le_rfl, by simp, h4⟩, if_pos (show b < memorySize from h4), Memory.readByte_writeByte hm]; simp
      · rw [dif_neg (by omega), if_neg (show ¬ b < memorySize from h4)]
    · have hread : (if a < memorySize then m.writeByte a v else m).readByte b = m.readByte b := by
        split_ifs
        · exact Memory.readByte_writeByte_ne m a b v hb
        · rfl
      rw [hread]
      by_cases h : a + 1 ≤ b ∧ b < a + 1 + vs.length ∧ b < 4096
      · rw [dif_pos h, dif_pos ⟨by omega, by simp; omega, h.2.2⟩]
        obtain ⟨k, rfl⟩ : ∃ k, b = a + 1 + k := ⟨b - (a + 1), by omega⟩
        have h1 : a + 1 + k - a = k + 1 := by omega
        have h2 : a + 1 + k - (a + 1) = k := by omega
        simp only [h1, h2, List.getElem_cons_succ]
      · rw [dif_neg h, dif_neg (by simp; omega)]

theorem Memory.wf_writeCells {m : Memory} (hm : m.wf = true) (cells : List Host.Cell) :
    (m.writeCells cells).wf = true := by
  induction cells generalizing m with
  | nil => exact hm
  | cons c cs ih =>
    rw [Memory.writeCells, List.foldl_cons]
    apply ih
    split_ifs with h
    · exact Memory.wf_writeByte hm _ _ h
    · exact hm

/-- The memory at reset is in canonical form. -/
theorem reset_mem_wf : State.reset.mem.wf = true := rfl

/-- Memory after any load is in canonical form. -/
theorem loadedMemory_wf (c : Container) (arg : Option (List Byte)) : (loadedMemory c arg).wf = true := by
  cases arg with
  | none => exact Memory.wf_writeBytes rfl 0 _
  | some bytes => exact Memory.wf_writeCells (Memory.wf_writeBytes rfl 0 _) _

/-- Two memories in canonical form that read alike are equal, so equal memories are equal data. -/
theorem Memory.ext_readByte {m m' : Memory} {lo lo' : Nat} (hm : Memory.wfFrom lo m = true)
    (hm' : Memory.wfFrom lo' m' = true) (h : ∀ a, m.readByte a = m'.readByte a) : m = m' := by
  induction m generalizing m' lo lo' with
  | nil =>
    cases m' with
    | nil => rfl
    | cons c rest =>
      obtain ⟨a, v⟩ := c
      rw [Memory.wfFrom_cons] at hm'
      have := h a
      simp only [Memory.readByte, if_true, Memory.unlisted] at this
      exact absurd this.symm hm'.2.2.1
  | cons c rest ih =>
    obtain ⟨a, v⟩ := c
    have hc := (Memory.wfFrom_cons _ _ _ _).mp hm
    cases m' with
    | nil =>
      have := h a
      simp only [Memory.readByte, if_true, Memory.unlisted] at this
      exact absurd this hc.2.2.1
    | cons c' rest' =>
      obtain ⟨a', v'⟩ := c'
      have hc' := (Memory.wfFrom_cons _ _ _ _).mp hm'
      have haa : a = a' := by
        rcases Nat.lt_trichotomy a a' with hlt | heq | hgt
        · have := h a
          rw [Memory.readByte_below (lo := a') ((Memory.wfFrom_cons _ _ _ _).mpr ⟨le_rfl, hc'.2⟩) hlt] at this
          simp only [Memory.readByte, if_true] at this
          exact absurd this hc.2.2.1
        · exact heq
        · have := h a'
          rw [Memory.readByte_below (lo := a) ((Memory.wfFrom_cons _ _ _ _).mpr ⟨le_rfl, hc.2⟩) hgt] at this
          simp only [Memory.readByte, if_true] at this
          exact absurd this.symm hc'.2.2.1
      subst haa
      have hv : v = v' := by simpa [Memory.readByte] using h a
      subst hv
      have hrest : rest = rest' := by
        refine ih hc.2.2.2 hc'.2.2.2 fun b => ?_
        by_cases hb : b = a
        · subst hb
          rw [Memory.readByte_below hc.2.2.2 (by omega), Memory.readByte_below hc'.2.2.2 (by omega)]
        · have := h b
          simpa [Memory.readByte, hb] using this
      rw [hrest]

end Sys2Proof.Machine
end

