-- ==== Sys2Proof/Laws/Exec.lean ====
section
/-! SUPPORT. The meaning of each constructor as its shared operations, one equation for each arm of `exec`. -/

namespace Sys2Proof.Machine

@[simp] theorem exec_mov (d s : Reg) (st : State) : exec (.mov d s) st = .next (st.write d (st.read s)) := rfl

@[simp] theorem exec_sys (k : Byte) (st : State) :
    exec (.sys k) st =
      match Config.serviceOf k with
      | none => .next (st.raise .illegalInstruction st.ir.toNat)
      | some svc => st.perform k svc := rfl

@[simp] theorem exec_inc (r : Reg) (n : Nib) (st : State) : exec (.inc r n) st = .next (st.bump r (zext4 n)) := rfl

@[simp] theorem exec_dec (r : Reg) (n : Nib) (st : State) : exec (.dec r n) st = .next (st.bump r (-zext4 n)) := rfl

@[simp] theorem exec_seti (r : Reg) (n : Nib) (st : State) :
    exec (.seti r n) st = .next (st.write r (trunc16 (zext4 n))) := rfl

@[simp] theorem exec_nop (st : State) : exec (.nop) st = .next st := rfl

@[simp] theorem exec_add (d s : Reg) (st : State) : exec (.add d s) st = st.aluInto .add d (s16 (st.read s)) := rfl

@[simp] theorem exec_sub (d s : Reg) (st : State) : exec (.sub d s) st = st.aluInto .sub d (s16 (st.read s)) := rfl

@[simp] theorem exec_mul (d s : Reg) (st : State) : exec (.mul d s) st = st.aluInto .mul d (s16 (st.read s)) := rfl

@[simp] theorem exec_div (d s : Reg) (st : State) : exec (.div d s) st = st.aluInto .div d (s16 (st.read s)) := rfl

@[simp] theorem exec_mod (d s : Reg) (st : State) : exec (.mod d s) st = st.aluInto .mod d (s16 (st.read s)) := rfl

@[simp] theorem exec_and (d s : Reg) (st : State) : exec (.and d s) st = st.aluInto .and d (s16 (st.read s)) := rfl

@[simp] theorem exec_or (d s : Reg) (st : State) : exec (.or d s) st = st.aluInto .or d (s16 (st.read s)) := rfl

@[simp] theorem exec_xor (d s : Reg) (st : State) : exec (.xor d s) st = st.aluInto .xor d (s16 (st.read s)) := rfl

@[simp] theorem exec_shl (d s : Reg) (st : State) : exec (.shl d s) st = st.aluInto .shl d (s16 (st.read s)) := rfl

@[simp] theorem exec_shr (d s : Reg) (st : State) : exec (.shr d s) st = st.aluInto .shr d (s16 (st.read s)) := rfl

@[simp] theorem exec_min (d s : Reg) (st : State) : exec (.min d s) st = st.aluInto .min d (s16 (st.read s)) := rfl

@[simp] theorem exec_max (d s : Reg) (st : State) : exec (.max d s) st = st.aluInto .max d (s16 (st.read s)) := rfl

@[simp] theorem exec_not (d : Reg) (st : State) : exec (.not d) st = st.aluInto .not d 0 := rfl

@[simp] theorem exec_lnot (d : Reg) (st : State) : exec (.lnot d) st = st.aluInto .lnot d 0 := rfl

@[simp] theorem exec_neg (d : Reg) (st : State) : exec (.neg d) st = st.aluInto .neg d 0 := rfl

@[simp] theorem exec_addi (d : Reg) (imm : Word) (st : State) :
    exec (.addi d imm) st = st.aluInto .add d (s16 imm) := rfl

@[simp] theorem exec_subi (d : Reg) (imm : Word) (st : State) :
    exec (.subi d imm) st = st.aluInto .sub d (s16 imm) := rfl

@[simp] theorem exec_muli (d : Reg) (imm : Word) (st : State) :
    exec (.muli d imm) st = st.aluInto .mul d (s16 imm) := rfl

@[simp] theorem exec_divi (d : Reg) (imm : Word) (st : State) :
    exec (.divi d imm) st = st.aluInto .div d (s16 imm) := rfl

@[simp] theorem exec_modi (d : Reg) (imm : Word) (st : State) :
    exec (.modi d imm) st = st.aluInto .mod d (s16 imm) := rfl

@[simp] theorem exec_andi (d : Reg) (imm : Word) (st : State) :
    exec (.andi d imm) st = st.aluInto .and d (s16 imm) := rfl

@[simp] theorem exec_ori (d : Reg) (imm : Word) (st : State) :
    exec (.ori d imm) st = st.aluInto .or d (s16 imm) := rfl

@[simp] theorem exec_xori (d : Reg) (imm : Word) (st : State) :
    exec (.xori d imm) st = st.aluInto .xor d (s16 imm) := rfl

@[simp] theorem exec_shli (d : Reg) (imm : Word) (st : State) :
    exec (.shli d imm) st = st.aluInto .shl d (s16 imm) := rfl

@[simp] theorem exec_shri (d : Reg) (imm : Word) (st : State) :
    exec (.shri d imm) st = st.aluInto .shr d (s16 imm) := rfl

@[simp] theorem exec_mini (d : Reg) (imm : Word) (st : State) :
    exec (.mini d imm) st = st.aluInto .min d (s16 imm) := rfl

@[simp] theorem exec_maxi (d : Reg) (imm : Word) (st : State) :
    exec (.maxi d imm) st = st.aluInto .max d (s16 imm) := rfl

@[simp] theorem exec_push (v s : Reg) (st : State) : exec (.push v s) st = st.pushWord s (st.read v) := rfl

@[simp] theorem exec_pop (v s : Reg) (st : State) :
    exec (.pop v s) st = st.loadWord (st.slot s 0) fun val => .next ((st.bump s 2).write v val) := rfl

@[simp] theorem exec_dup (s : Reg) (st : State) :
    exec (.dup s) st = st.loadWord (st.slot s 0) fun val => st.pushWord s val := rfl

@[simp] theorem exec_swap (s : Reg) (st : State) :
    exec (.swap s) st =
      st.loadWord (st.slot s 0) fun a =>
      st.loadWord (st.slot s 1) fun b =>
      st.storeWord (st.slot s 0) b fun st1 =>
      st1.storeWord (st.slot s 1) a .next := rfl

@[simp] theorem exec_drop (s : Reg) (st : State) : exec (.drop s) st = .next (st.bump s 2) := rfl

@[simp] theorem exec_overItem (s : Reg) (st : State) :
    exec (.overItem s) st = st.loadWord (st.slot s 1) fun val => st.pushWord s val := rfl

@[simp] theorem exec_rot (s : Reg) (st : State) :
    exec (.rot s) st =
      st.loadWord (st.slot s 0) fun c =>
      st.loadWord (st.slot s 1) fun b =>
      st.loadWord (st.slot s 2) fun a =>
      st.storeWord (st.slot s 0) a fun st1 =>
      st1.storeWord (st.slot s 1) c fun st2 =>
      st2.storeWord (st.slot s 2) b .next := rfl

@[simp] theorem exec_sop (f : AluOp) (s : Reg) (st : State) :
    exec (.sop f s) st = if f.unary then st.sopUnary f s else st.sopBinary f s := rfl

@[simp] theorem exec_pushi (imm : Word) (s : Reg) (st : State) : exec (.pushi imm s) st = st.pushWord s imm := rfl

@[simp] theorem exec_eq (r s : Reg) (st : State) :
    exec (.eq r s) st = .next (st.setTest (decide (s16 (st.read r) = s16 (st.read s)))) := rfl

@[simp] theorem exec_neq (r s : Reg) (st : State) :
    exec (.neq r s) st = .next (st.setTest (decide (s16 (st.read r) ≠ s16 (st.read s)))) := rfl

@[simp] theorem exec_gt (r s : Reg) (st : State) :
    exec (.gt r s) st = .next (st.setTest (decide (s16 (st.read r) > s16 (st.read s)))) := rfl

@[simp] theorem exec_gte (r s : Reg) (st : State) :
    exec (.gte r s) st = .next (st.setTest (decide (s16 (st.read r) ≥ s16 (st.read s)))) := rfl

@[simp] theorem exec_lt (r s : Reg) (st : State) :
    exec (.lt r s) st = .next (st.setTest (decide (s16 (st.read r) < s16 (st.read s)))) := rfl

@[simp] theorem exec_lte (r s : Reg) (st : State) :
    exec (.lte r s) st = .next (st.setTest (decide (s16 (st.read r) ≤ s16 (st.read s)))) := rfl

@[simp] theorem exec_eqi (r : Reg) (n : Nib) (st : State) :
    exec (.eqi r n) st = .next (st.setTest (decide (s16 (st.read r) = zext4 n))) := rfl

@[simp] theorem exec_neqi (r : Reg) (n : Nib) (st : State) :
    exec (.neqi r n) st = .next (st.setTest (decide (s16 (st.read r) ≠ zext4 n))) := rfl

@[simp] theorem exec_gti (r : Reg) (n : Nib) (st : State) :
    exec (.gti r n) st = .next (st.setTest (decide (s16 (st.read r) > zext4 n))) := rfl

@[simp] theorem exec_gtei (r : Reg) (n : Nib) (st : State) :
    exec (.gtei r n) st = .next (st.setTest (decide (s16 (st.read r) ≥ zext4 n))) := rfl

@[simp] theorem exec_lti (r : Reg) (n : Nib) (st : State) :
    exec (.lti r n) st = .next (st.setTest (decide (s16 (st.read r) < zext4 n))) := rfl

@[simp] theorem exec_ltei (r : Reg) (n : Nib) (st : State) :
    exec (.ltei r n) st = .next (st.setTest (decide (s16 (st.read r) ≤ zext4 n))) := rfl

@[simp] theorem exec_lwr (b o t : Reg) (st : State) :
    exec (.lwr b o t) st = st.loadWordInto t (st.eaIndexed b o) := rfl

@[simp] theorem exec_lbr (b o t : Reg) (st : State) :
    exec (.lbr b o t) st = st.loadByteInto t (st.eaIndexed b o) := rfl

@[simp] theorem exec_swr (b o t : Reg) (st : State) :
    exec (.swr b o t) st = st.storeWord (st.eaIndexed b o) (st.read t) .next := rfl

@[simp] theorem exec_sbr (b o t : Reg) (st : State) :
    exec (.sbr b o t) st = st.storeByte (st.eaIndexed b o) (st.read t) .next := rfl

@[simp] theorem exec_lw (t : Reg) (addr : Word) (st : State) :
    exec (.lw t addr) st = st.loadWordInto t (eaAbsolute addr) := rfl

@[simp] theorem exec_lwo (t o : Reg) (addr : Word) (st : State) :
    exec (.lwo t o addr) st = st.loadWordInto t (st.eaOffset addr o) := rfl

@[simp] theorem exec_lb (t : Reg) (addr : Word) (st : State) :
    exec (.lb t addr) st = st.loadByteInto t (eaAbsolute addr) := rfl

@[simp] theorem exec_lbo (t o : Reg) (addr : Word) (st : State) :
    exec (.lbo t o addr) st = st.loadByteInto t (st.eaOffset addr o) := rfl

@[simp] theorem exec_sw (t : Reg) (addr : Word) (st : State) :
    exec (.sw t addr) st = st.storeWord (eaAbsolute addr) (st.read t) .next := rfl

@[simp] theorem exec_swo (t o : Reg) (addr : Word) (st : State) :
    exec (.swo t o addr) st = st.storeWord (st.eaOffset addr o) (st.read t) .next := rfl

@[simp] theorem exec_sb (t : Reg) (addr : Word) (st : State) :
    exec (.sb t addr) st = st.storeByte (eaAbsolute addr) (st.read t) .next := rfl

@[simp] theorem exec_sbo (t o : Reg) (addr : Word) (st : State) :
    exec (.sbo t o addr) st = st.storeByte (st.eaOffset addr o) (st.read t) .next := rfl

@[simp] theorem exec_li (t : Reg) (imm : Word) (st : State) : exec (.li t imm) st = .next (st.write t imm) := rfl

@[simp] theorem exec_la (t : Reg) (addr : Word) (st : State) : exec (.la t addr) st = .next (st.write t addr) := rfl

@[simp] theorem exec_jr (r : Reg) (st : State) : exec (.jr r) st = .next (st.jump (st.read r)) := rfl

@[simp] theorem exec_ret (st : State) : exec (.ret) st = .next (st.jump (st.read .ra)) := rfl

@[simp] theorem exec_j (a : Target) (st : State) : exec (.j a) st = .next (st.jump (zext12 a)) := rfl

@[simp] theorem exec_jz (a : Target) (st : State) :
    exec (.jz a) st = .next (if st.testBit then st else st.jump (zext12 a)) := rfl

@[simp] theorem exec_jnz (a : Target) (st : State) :
    exec (.jnz a) st = .next (if st.testBit then st.jump (zext12 a) else st) := rfl

@[simp] theorem exec_jal (a : Target) (st : State) :
    exec (.jal a) st = .next ((st.write .ra (st.read .pc)).jump (zext12 a)) := rfl

end Sys2Proof.Machine
end

