-- ==== Sys2Proof/Laws/Ops.lean ====
section
/-! SUPPORT. One lemma for each shared operation that says all it can do: the bus and what goes through it, the fetch, the
push, the ALU. -/

namespace Sys2Proof.Machine

/-! ### The parameters at their defaults -/

@[simp] theorem params_shiftPolicy : Config.params.shiftPolicy = Config.shiftPolicy := rfl
@[simp] theorem params_misalignedPolicy : Config.params.misalignedPolicy = Config.misalignedPolicy := rfl
@[simp] theorem params_byteExtension : Config.params.byteExtension = Config.byteExtension := rfl
@[simp] theorem params_initialSp : Config.params.initialSp = Config.initialSp := rfl
@[simp] theorem params_service (k : Byte) : Config.params.syscalls.service k = Config.serviceOf k := rfl
@[simp] theorem params_printfFormatReg : Config.params.syscalls.printfFormatReg = Config.printfFormatReg := rfl
@[simp] theorem params_spriteIndex (a : ServiceArgs) : Config.params.syscalls.spriteIndex a = Config.spriteIndex a := rfl
@[simp] theorem params_copyArgs (a : ServiceArgs) : Config.params.syscalls.copyArgs a = Config.copyArgs a := rfl
@[simp] theorem params_doubleWord (w : Word) : Config.params.encoding.doubleWord w = doubleWord w := rfl
@[simp] theorem params_decode (w dr : Word) : Config.params.decode w dr = decode w dr := rfl

/-- The step is the parametric step at the defaults (R7). -/
theorem execWith_params (i : Instr) (s : State) : execWith Config.params i s = exec i s := by cases i <;> rfl

theorem stepWith_params (s : State) : stepWith Config.params s = step s := by
  have h : execWith Config.params = exec := by funext i t; exact execWith_params i t
  rw [stepWith, step, h]

/-- Decode and execute, at the default parameters. -/
theorem State.executeDecoded_eq (s : State) :
    s.executeDecoded =
      match decode s.ir s.dr with
      | .ok i => exec i s
      | .illegal _ => .next (s.raise .illegalInstruction s.ir.toNat) := rfl

/-! ### The bus -/

/-- A request that passes its check is in range, under either MISALIGNED_POLICY (R73, R76). -/
theorem inRange_of_accessOk {m : MisalignedPolicy} {a : Int} {n : Width} (h : accessOk m a n = true) : inRange a n = true := by
  simp only [accessOk, Bool.and_eq_true] at h; exact h.1

/-- Under the default MISALIGNED_POLICY the check is the range check (R73, R76). -/
theorem accessOk_default (a : Int) (n : Width) : accessOk Config.misalignedPolicy a n = inRange a n := by
  simp [accessOk, Config.misalignedPolicy]

theorem inRange_byte (a : Int) : inRange a .byte = true ↔ 0 ≤ a ∧ a ≤ 4095 := by
  simp [inRange, accessBytes]

theorem inRange_word (a : Int) : inRange a .word = true ↔ 0 ≤ a ∧ a ≤ 4094 := by
  simp [inRange, accessBytes]; omega

/-- Fetch of a word: the word, or MemoryFault at its address. -/
theorem State.fetchWord_eq (s : State) (a : Int) (k : Word → Result) :
    s.fetchWord a k = if 0 ≤ a ∧ a ≤ 4094 then k (s.mem.readWord a.toNat) else .next (s.raise .memoryFault a) := by
  simp only [State.fetchWord, State.bus, params_misalignedPolicy, accessOk_default, BusRequest.addr, BusRequest.width, inRange_word]
  rfl

/-- Load of a word: the word, or MemoryFault at its address. -/
theorem State.loadWord_eq (s : State) (a : Int) (k : Word → Result) :
    s.loadWord a k = if 0 ≤ a ∧ a ≤ 4094 then k (s.mem.readWord a.toNat) else .next (s.raise .memoryFault a) := by
  simp only [State.loadWord, State.bus, params_misalignedPolicy, accessOk_default, BusRequest.addr, BusRequest.width, inRange_word]
  rfl

/-- Load of a byte: the byte, or MemoryFault at its address. -/
theorem State.loadByte_eq (s : State) (a : Int) (k : Byte → Result) :
    s.loadByte a k = if 0 ≤ a ∧ a ≤ 4095 then k (s.mem.readByte a.toNat) else .next (s.raise .memoryFault a) := by
  simp only [State.loadByte, State.bus, params_misalignedPolicy, accessOk_default, BusRequest.addr, BusRequest.width, inRange_byte,
    Memory.readWidth, loByte_setWidth]

/-- Store of a word: memory written, or MemoryFault and nothing written. -/
theorem State.storeWord_eq (s : State) (a : Int) (v : Word) (k : State → Result) :
    s.storeWord a v k =
      if 0 ≤ a ∧ a ≤ 4094 then k { s with mem := s.mem.writeWord a.toNat v } else .next (s.raise .memoryFault a) := by
  simp only [State.storeWord, State.bus, params_misalignedPolicy, accessOk_default, BusRequest.addr, BusRequest.width, inRange_word]
  rfl

/-- Store of a byte: memory written, or MemoryFault and nothing written. -/
theorem State.storeByte_eq (s : State) (a : Int) (v : Word) (k : State → Result) :
    s.storeByte a v k =
      if 0 ≤ a ∧ a ≤ 4095 then k { s with mem := s.mem.writeByte a.toNat (loByte v) }
      else .next (s.raise .memoryFault a) := by
  simp only [State.storeByte, State.bus, params_misalignedPolicy, accessOk_default, BusRequest.addr, BusRequest.width, inRange_byte]
  rfl

/-- A push: the stack register goes down by 2, then the word is stored there or the store faults (R301, R500). -/
theorem State.pushWord_eq (s : State) (r : Reg) (v : Word) :
    s.pushWord r v =
      if 0 ≤ s16 (s.read r - 2) ∧ s16 (s.read r - 2) ≤ 4094 then
        .next { s.write r (s.read r - 2) with mem := s.mem.writeWord (s16 (s.read r - 2)).toNat v }
      else .next ((s.write r (s.read r - 2)).raise .memoryFault (s16 (s.read r - 2))) := by
  have h : s.bump r (-2) = s.write r (s.read r - 2) := by
    rw [State.bump, trunc16_add, BitVec.sub_eq_add_neg]
    exact congrArg (fun z => s.write r (s.read r + z)) (by decide)
  simp only [State.pushWord, h, State.slot, State.read_write, if_true, Nat.cast_zero, mul_zero, add_zero,
    State.storeWord_eq, State.write_mem]

/-! ### The fetch -/

/-- The fetch: a first word out of range, a single word, a double word, or a second word out of range (R460, R500). -/
theorem State.fetch_eq (s : State) (k : State → Result) :
    s.fetch k =
      let ia := s16 (s.read .pc)
      let w := s.mem.readWord ia.toNat
      if 0 ≤ ia ∧ ia ≤ 4094 then
        if doubleWord w then
          if ia ≤ 4092 then
            k (({ s with ir := w, dr := s.mem.readWord (ia + 2).toNat } : State).write .pc (trunc16 (ia + 4)))
          else .next (({ s with ir := w } : State).raise .memoryFault (ia + 2))
        else k (({ s with ir := w, dr := 0 } : State).write .pc (trunc16 (ia + 2)))
      else .next (s.raise .memoryFault ia) := by
  simp only [State.fetch, State.fetchWord_eq, params_doubleWord]
  by_cases h : 0 ≤ s16 (s.read .pc) ∧ s16 (s.read .pc) ≤ 4094
  · rw [if_pos h, if_pos h]
    by_cases hd : doubleWord (s.mem.readWord (s16 (s.read .pc)).toNat) = true
    · rw [if_pos hd, if_pos hd]
      by_cases h2 : s16 (s.read .pc) ≤ 4092
      · rw [if_pos h2, if_pos (by omega)]
      · rw [if_neg h2, if_neg (by omega)]
    · rw [if_neg hd, if_neg hd]
  · rw [if_neg h, if_neg h]

/-- One cycle, by what the fetch meets (R460, R500). -/
theorem State.cycle_eq (s : State) :
    s.cycle =
      if wordFits s.ia then
        if doubleWord s.firstWord then
          if wordFits (s.ia + 2) then
            (({ s with ir := s.firstWord, dr := s.secondWord } : State).write .pc (s.read .pc + 4)).executeDecoded
          else .next (({ s with ir := s.firstWord } : State).raise .memoryFault (s.ia + 2))
        else (({ s with ir := s.firstWord, dr := 0 } : State).write .pc (s.read .pc + 2)).executeDecoded
      else .next (s.raise .memoryFault s.ia) := by
  rw [State.cycle, State.fetch_eq]
  simp only [trunc16_add, show BitVec.ofInt 16 2 = (2 : Word) by decide, show BitVec.ofInt 16 4 = (4 : Word) by decide]
  by_cases h : wordFits s.ia
  · rw [if_pos (show 0 ≤ s16 (s.read .pc) ∧ s16 (s.read .pc) ≤ 4094 from h), if_pos h]
    by_cases hd : doubleWord s.firstWord = true
    · rw [if_pos (show doubleWord (s.mem.readWord (s16 (s.read .pc)).toNat) = true from hd), if_pos hd]
      by_cases h2 : wordFits (s.ia + 2)
      · rw [if_pos (show s16 (s.read .pc) ≤ 4092 by have h3 : s.ia + 2 ≤ 4094 := h2.2; rw [State.ia] at h3; omega), if_pos h2]; rfl
      · rw [if_neg (show ¬ s16 (s.read .pc) ≤ 4092 from fun h3 => h2 ⟨by have := h.1; omega, by rw [State.ia]; omega⟩), if_neg h2]; rfl
    · rw [if_neg (show ¬ doubleWord (s.mem.readWord (s16 (s.read .pc)).toNat) = true from hd), if_neg hd]; rfl
  · rw [if_neg (show ¬ (0 ≤ s16 (s.read .pc) ∧ s16 (s.read .pc) ≤ 4094) from h), if_neg h]; rfl

/-- One cycle whose fetch fits executes the instruction in the state after the fetch. -/
theorem State.cycle_of_fits (s : State) (h : s.fetchFits) : s.cycle = s.fetched.executeDecoded := by
  rw [State.cycle_eq, if_pos h.1, State.fetched]
  by_cases hd : doubleWord s.firstWord = true
  · rw [if_pos hd, if_pos hd, if_pos (h.2 hd)]
  · rw [if_neg hd, if_neg hd]

@[simp] theorem State.fetched_ir (s : State) : s.fetched.ir = s.firstWord := by
  rw [State.fetched]; split_ifs <;> rfl

/-! ### Shape of every result: a property of the running machine and one of the machine when the instruction ends -/

/-- `P` holds of the machine while an instruction runs, `Q` when it has ended: what must be shown once for each primitive
update, so that it holds of every instruction. -/
structure Closed (P Q : State → Prop) : Prop where
  ended : ∀ s, P s → Q s
  write : ∀ s r v, P s → P (s.write r v)
  mem : ∀ s a n v, P s → inRange a n = true → P { s with mem := s.mem.writeWidth a.toNat n v }
  draw : ∀ s, P s → P { s with shiftDraws := s.shiftDraws + 1 }
  call : ∀ s, P s → P { s with hostCalls := s.hostCalls + 1 }
  message : ∀ s b, P s → P { s with errorMessage := some b }
  raised : ∀ s c h info, P s → c.haltStatus = some h →
    Q { s with status := h, fault := { cause := c, info := info } }
  finished : ∀ s, P s → Q (s.finish .exit)

variable {P Q : State → Prop} {p : Params}

theorem Ends.next {s : State} (h : Q s) : Ends Q (.next s) := ⟨s, rfl, h⟩

/-- A chain of ends: what follows holds whichever property the first part has. -/
theorem Ends.mono {R : State → Prop} {r : Result} (h : Ends Q r) (hi : ∀ t, Q t → R t) : Ends R r := by
  obtain ⟨t, rfl, ht⟩ := h
  exact ⟨t, rfl, hi t ht⟩

theorem Closed.raise (h : Closed P Q) {s : State} (hs : P s) (c : FaultCause) (info : Int) : Q (s.raise c info) := by
  cases hc : c.haltStatus with
  | none => simpa [State.raise, hc] using h.ended s hs
  | some st => rw [State.raise_of_halt s c info st hc]; exact h.raised s c st info hs hc

theorem Closed.raise_next (h : Closed P Q) {s : State} (hs : P s) (c : FaultCause) (info : Int) :
    Ends Q (.next (s.raise c info)) := Ends.next (h.raise hs c info)

theorem Closed.bus (h : Closed P Q) {s : State} (hs : P s) (q : BusRequest) {k : Word → State → Result}
    (hk : ∀ v t, P t → Ends Q (k v t)) : Ends Q (s.bus q k p) := by
  unfold State.bus
  split_ifs with hq
  · replace hq := inRange_of_accessOk hq
    cases q with
    | fetch a => exact hk _ _ hs
    | read a n => exact hk _ _ hs
    | write a n v => exact hk _ _ (h.mem s a n v hs hq)
  · exact h.raise_next hs _ _

theorem Closed.loadWord (h : Closed P Q) {s : State} (hs : P s) (a : Int) {k : Word → Result}
    (hk : ∀ v, Ends Q (k v)) : Ends Q (s.loadWord a k p) := h.bus hs _ fun v _ _ => hk v

theorem Closed.loadByte (h : Closed P Q) {s : State} (hs : P s) (a : Int) {k : Byte → Result}
    (hk : ∀ v, Ends Q (k v)) : Ends Q (s.loadByte a k p) := h.bus hs _ fun v _ _ => hk (loByte v)

theorem Closed.storeWord (h : Closed P Q) {s : State} (hs : P s) (a : Int) (v : Word) {k : State → Result}
    (hk : ∀ t, P t → Ends Q (k t)) : Ends Q (s.storeWord a v k p) := h.bus hs _ fun _ t ht => hk t ht

theorem Closed.storeByte (h : Closed P Q) {s : State} (hs : P s) (a : Int) (v : Word) {k : State → Result}
    (hk : ∀ t, P t → Ends Q (k t)) : Ends Q (s.storeByte a v k p) := h.bus hs _ fun _ t ht => hk t ht

theorem Closed.next (h : Closed P Q) {s : State} (hs : P s) : Ends Q (.next s) := Ends.next (h.ended s hs)

theorem Closed.bump (h : Closed P Q) {s : State} (hs : P s) (r : Reg) (n : Int) : P (s.bump r n) := h.write s r _ hs

theorem Closed.pushWord (h : Closed P Q) {s : State} (hs : P s) (r : Reg) (v : Word) : Ends Q (s.pushWord r v p) :=
  h.storeWord (h.bump hs r _) _ _ fun _ ht => h.next ht

theorem Closed.aluThen (h : Closed P Q) {s : State} (hs : P s) (op : AluOp) (a b : Int) {k : Word → State → Result}
    (hk : ∀ v t, P t → Ends Q (k v t)) : Ends Q (s.aluThen op a b k p) := by
  rw [State.aluThen]
  split
  · exact hk _ _ hs
  · exact h.raise_next hs _ _
  · exact hk _ _ (h.draw s hs)

theorem Closed.aluInto (h : Closed P Q) (hT : ∀ s b, P s → P (s.setTest b)) {s : State} (hs : P s) (op : AluOp) (d : Reg) (b : Int) :
    Ends Q (s.aluInto op d b p) :=
  h.aluThen hs _ _ _ fun _ t ht => h.next (hT _ _ (h.write t _ _ ht))

theorem Closed.sop (h : Closed P Q) (hT : ∀ s b, P s → P (s.setTest b)) {s : State} (hs : P s) (f : AluOp) (r : Reg) : Ends Q (execSop f r s p) := by
  rw [execSop]
  split
  · exact h.loadWord hs _ fun _ => h.aluThen hs _ _ _ fun _ _ ht => h.storeWord ht _ _ fun _ hu => h.next (hT _ _ hu)
  · exact h.loadWord hs _ fun _ => h.loadWord hs _ fun _ => h.aluThen hs _ _ _ fun _ _ ht =>
      h.storeWord (h.bump ht _ _) _ _ fun _ hu => h.next (hT _ _ hu)

theorem Closed.swap (h : Closed P Q) {s : State} (hs : P s) (r : Reg) : Ends Q (execSwap r s p) :=
  h.loadWord hs _ fun _ => h.loadWord hs _ fun _ => h.storeWord hs _ _ fun _ ht =>
    h.storeWord ht _ _ fun _ hu => h.next hu

theorem Closed.rot (h : Closed P Q) {s : State} (hs : P s) (r : Reg) : Ends Q (execRot r s p) :=
  h.loadWord hs _ fun _ => h.loadWord hs _ fun _ => h.loadWord hs _ fun _ => h.storeWord hs _ _ fun _ ht =>
    h.storeWord ht _ _ fun _ hu => h.storeWord hu _ _ fun _ hv => h.next hv

/-! ### Services -/

theorem Closed.readMessage (h : Closed P Q) {s : State} (hs : P s) (fuel : Nat) (a : Int) {k : List Byte → Result}
    (hk : ∀ v, Ends Q (k v)) : Ends Q (s.readMessage fuel a k p) := by
  induction fuel generalizing a k with
  | zero => exact h.raise_next hs _ _
  | succ n ih =>
    refine h.loadByte hs _ fun v => ?_
    split_ifs
    · exact hk _
    · exact ih _ fun vs => hk _

theorem Closed.scanFormat (h : Closed P Q) {s : State} (hs : P s) (sel : Byte) (fuel : Nat) (a : Int) (b : Bool)
    {k : Result} (hk : Ends Q k) : Ends Q (s.scanFormat sel fuel a b k p) := by
  induction fuel generalizing a b with
  | zero => exact h.raise_next hs _ _
  | succ n ih =>
    refine h.loadByte hs _ fun v => ?_
    split_ifs
    · exact hk
    · exact h.raise_next hs _ _
    · exact ih _ _

/-- The host's requests run in order: a request that fails its range check is a MemoryFault at its address, else what follows
takes the state after all of them (R522). -/
theorem State.hostActions_eq (s : State) (as : List HostAction) (k : State → Result) :
    s.hostActions as k =
      match s.hostRan as with
      | (t, some a) => .next (t.raise .memoryFault a)
      | (t, none) => k t := by
  have lo (v : Word) : loByte v = v.setWidth 8 := by apply BitVec.eq_of_toNat_eq; simp [loByte]
  induction as generalizing s with
  | nil => rfl
  | cons x rest ih =>
    cases x with
    | read a n =>
      simp only [State.hostActions, State.bus, params_misalignedPolicy, accessOk_default, ih, State.hostRan]
      cases n <;> simp only [BusRequest.addr, BusRequest.width, inRange_byte, inRange_word, hostFaultAt] <;> split_ifs <;> rfl
    | write a n v =>
      simp only [State.hostActions, State.bus, params_misalignedPolicy, accessOk_default, ih, State.hostRan]
      cases n <;> simp only [BusRequest.addr, BusRequest.width, inRange_byte, inRange_word, hostFaultAt] <;> split_ifs <;>
        simp only [Memory.writeWidth, State.hostApplied, lo]
    | setReg r v => cases r <;> exact ih _

theorem Closed.hostActions (h : Closed P Q) {s : State} (hs : P s) (as : List HostAction) {k : State → Result}
    (hk : ∀ t, P t → Ends Q (k t)) : Ends Q (s.hostActions as k p) := by
  induction as generalizing s with
  | nil => exact hk s hs
  | cons a as ih =>
    cases a with
    | read a n => exact h.bus hs _ fun _ t ht => ih ht
    | write a n v => exact h.bus hs _ fun _ t ht => ih ht
    | setReg r v => exact ih (h.write s _ _ hs)

theorem Closed.callHost (h : Closed P Q) {s : State} (hs : P s) (sel : Byte) (svc : HostService) :
    Ends Q (s.callHost sel svc p) := by
  unfold State.callHost
  cases s.hostAnswer svc p with
  | values actions => exact h.hostActions (h.call s hs) _ fun t ht => h.next ht
  | memoryFault a => exact h.raise_next (h.call s hs) _ _
  | serviceError => exact h.raise_next (h.call s hs) _ _

theorem Closed.sys (h : Closed P Q) {s : State} (hs : P s) (k : Byte) : Ends Q (execSys k s p) := by
  rw [execSys]
  split
  · exact h.raise_next hs _ _
  · rename_i svc _
    cases svc with
    | exit => exact Ends.next (h.finished s hs)
    | error => exact h.readMessage hs _ _ fun b => h.raise_next (h.message s b hs) _ _
    | host svc =>
      cases svc
      case printf => exact h.scanFormat hs _ _ _ _ (h.callHost hs _ _)
      all_goals simp only [State.perform]; exact h.callHost hs _ _

/-! ### Every instruction, every step -/

/-- Every instruction answers a next state, under any parameters: what holds of the running machine through every primitive
update holds when any instruction has ended; an update of T counts only for the instructions that write T. -/
theorem Closed.execWith (h : Closed P Q) {s : State} (hs : P s) (i : Instr)
    (hT : writesTest i = true → ∀ s b, P s → P (s.setTest b)) : Ends Q (execWith p i s) := by
  cases i
  case mov | inc | dec | seti | drop | li | la | jr | ret | j => exact h.next (h.write _ _ _ hs)
  case sys => exact h.sys hs _
  case nop => exact h.next hs
  case add | sub | mul | div | mod | and | or | xor | shl | shr | min | max | not | lnot | neg | addi
      | subi | muli | divi | modi | andi | ori | xori | shli | shri | mini | maxi =>
    simp only [Machine.execWith, execAdd, execSub, execMul, execDiv, execMod, execAnd, execOr, execXor, execShl, execShr,
      execMin, execMax, execNot, execLnot, execNeg, execAddi, execSubi, execMuli, execDivi, execModi, execAndi, execOri,
      execXori, execShli, execShri, execMini, execMaxi]
    exact h.aluInto (hT rfl) hs _ _ _
  case push | pushi => exact h.pushWord hs _ _
  case pop => exact h.loadWord hs _ fun _ => h.next (h.write _ _ _ (h.bump hs _ _))
  case dup | overItem => exact h.loadWord hs _ fun _ => h.pushWord hs _ _
  case swap => exact h.swap hs _
  case rot => exact h.rot hs _
  case sop => exact h.sop (hT rfl) hs _ _
  case eq | neq | gt | gte | lt | lte | eqi | neqi | gti | gtei | lti | ltei => exact h.next (hT rfl _ _ hs)
  case lwr | lw | lwo => exact h.loadWord hs _ fun _ => h.next (h.write _ _ _ hs)
  case lbr | lb | lbo => exact h.loadByte hs _ fun _ => h.next (h.write _ _ _ hs)
  case swr | sw | swo => exact h.storeWord hs _ _ fun _ ht => h.next ht
  case sbr | sb | sbo => exact h.storeByte hs _ _ fun _ ht => h.next ht
  case jz =>
    refine Ends.next ?_
    split_ifs <;> [exact h.ended s hs; exact h.ended _ (h.write s _ _ hs)]
  case jnz =>
    refine Ends.next ?_
    split_ifs <;> [exact h.ended _ (h.write s _ _ hs); exact h.ended s hs]
  case jal => exact h.next (h.write _ _ _ (h.write s _ _ hs))

/-- The same at the default parameters. -/
theorem Closed.exec (h : Closed P Q) {s : State} (hs : P s) (i : Instr)
    (hT : writesTest i = true → ∀ s b, P s → P (s.setTest b)) : Ends Q (exec i s) := by
  rw [← execWith_params]; exact h.execWith hs i hT

/-- Every cycle answers a next state with the property, under any parameters. -/
theorem Closed.cycleWith (h : Closed P Q) (hT : ∀ s b, P s → P (s.setTest b))
    (hir : ∀ s w, P s → P { s with ir := w }) (hdr : ∀ s w, P s → P { s with dr := w }) {s : State} (hs : P s) :
    Ends Q (s.cycle p (Machine.execWith p)) := by
  have hx : ∀ t, P t → Ends Q (t.executeDecoded p (Machine.execWith p)) := by
    intro t ht
    rw [State.executeDecoded]
    split
    · exact h.execWith ht _ fun _ => hT
    · exact h.raise_next ht _ _
  unfold State.cycle State.fetch State.fetchWord
  refine h.bus hs _ fun w _ _ => ?_
  dsimp only
  split_ifs
  · exact h.bus (hir s w hs) _ fun v _ _ => hx _ (h.write _ _ _ (hdr _ v (hir s w hs)))
  · exact hx _ (h.write _ _ _ (hdr _ 0 (hir s w hs)))

/-- The same at the default parameters. -/
theorem Closed.cycle (h : Closed P Q) (hT : ∀ s b, P s → P (s.setTest b))
    (hir : ∀ s w, P s → P { s with ir := w }) (hdr : ∀ s w, P s → P { s with dr := w }) {s : State} (hs : P s) : Ends Q s.cycle := by
  have hx := h.cycleWith (p := Config.params) hT hir hdr hs
  rwa [show Machine.execWith Config.params = Machine.exec from by funext i t; exact execWith_params i t] at hx

end Sys2Proof.Machine
end

