-- ==== Sys2Proof/Laws/Alu.lean ====
section
/-! SUPPORT. The ALU in 16-bit terms: what each operation leaves in its destination, and the two ways an ALU instruction
ends. -/

namespace Sys2Proof

/-! ### trunc16 of the operations -/

theorem trunc16_sub (a b : Word) : trunc16 (s16 a - s16 b) = a - b := by
  apply BitVec.eq_of_toInt_eq; simp

theorem trunc16_sum (a b : Word) : trunc16 (s16 a + s16 b) = a + b := by
  simp [BitVec.ofInt_add]

theorem trunc16_mul (a b : Word) : trunc16 (s16 a * s16 b) = a * b := by
  simp [BitVec.ofInt_mul]

theorem trunc16_s16 (a : Word) : trunc16 (s16 a) = a := BitVec.ofInt_toInt

theorem trunc16_neg (a : Word) : trunc16 (-s16 a) = -a := by
  rw [trunc16, BitVec.ofInt_neg, BitVec.ofInt_toInt]

/-- The quotient truncated toward zero is signed division of patterns (R251, R257). -/
theorem trunc16_tdiv (a b : Word) : trunc16 ((s16 a).tdiv (s16 b)) = a.sdiv b := by
  apply BitVec.eq_of_toInt_eq; simp [BitVec.toInt_sdiv]

/-- The remainder with the sign of the dividend is the signed remainder of patterns (R251, R258). -/
theorem trunc16_tmod (a b : Word) : trunc16 ((s16 a).tmod (s16 b)) = a.srem b := by
  rw [← BitVec.toInt_srem, trunc16_s16]

theorem trunc16_not (a : Word) : trunc16 (-s16 a - 1) = ~~~a := by
  rw [BitVec.not_eq_neg_add, show (-s16 a - 1 : Int) = -s16 a + (-1) by ring, trunc16, BitVec.ofInt_add]
  rw [show BitVec.ofInt 16 (-s16 a) = -a from trunc16_neg a, BitVec.sub_eq_add_neg]
  exact congrArg (fun z => -a + z) (by decide)

/-- A left shift of the pattern (R251, R262). -/
theorem trunc16_shl (a : Word) (k : Nat) : trunc16 (s16 a * 2 ^ k) = a <<< k := by
  rw [BitVec.shiftLeft_eq_mul_twoPow, trunc16, BitVec.ofInt_mul, BitVec.ofInt_toInt]
  congr 1
  apply BitVec.eq_of_toNat_eq
  rw [BitVec.toNat_twoPow, BitVec.toNat_ofInt]
  norm_cast

/-- An arithmetic right shift of the pattern (R251, R263). -/
theorem trunc16_shr (a : Word) (k : Nat) : trunc16 (s16 a / 2 ^ k) = a.sshiftRight k := by
  have h : s16 a / 2 ^ k = (a.sshiftRight k).toInt := by
    rw [BitVec.toInt_sshiftRight, Int.shiftRight_eq_div_pow]; norm_cast
  rw [h]; exact trunc16_s16 _

theorem s16_eq_zero (a : Word) : s16 a = 0 ↔ a = 0 := by
  constructor
  · intro h; apply BitVec.eq_of_toInt_eq; simpa using h
  · rintro rfl; rfl

end Sys2Proof

namespace Sys2Proof.Machine

/-- An ALU instruction whose operation gives an integer: its low 16 bits are the result (R250). -/
theorem State.aluInto_value {s : State} {op : AluOp} {d : Reg} {b z : Int}
    (h : alu Config.shiftPolicy op (s16 (s.read d)) b = .value z) :
    s.aluInto op d b = .next ((s.write d (trunc16 z)).setTest (decide (trunc16 z ≠ 0))) := by
  simp only [State.aluInto, State.aluThen, params_shiftPolicy, h]

/-- An ALU instruction whose divisor is zero (R250, R504). -/
theorem State.aluInto_divideByZero {s : State} {op : AluOp} {d : Reg} {b : Int}
    (h : alu Config.shiftPolicy op (s16 (s.read d)) b = .divideByZero) :
    s.aluInto op d b = .next (s.raise .divideByZero s.ir.toNat) := by
  simp only [State.aluInto, State.aluThen, params_shiftPolicy, h]

/-- Under the default SHIFT_OUT_OF_RANGE no result is free (R251). -/
theorem shiftOut_default (k z : Int) : shiftOut Config.shiftPolicy k z = .value z := by
  simp [shiftOut, Config.shiftPolicy]

/-- Every ALU operation under the default policy: an integer, or a zero divisor. -/
theorem alu_default (op : AluOp) (a b : Int) :
    (∃ z, alu Config.shiftPolicy op a b = .value z) ∨ (alu Config.shiftPolicy op a b = .divideByZero ∧ b = 0) := by
  cases op <;> simp only [alu, shiftOut_default] <;> (try split_ifs) <;> simp_all

/-- A register write followed by an update of T changes that register, T and nothing else. -/
theorem unchanged_write_setTest (s : State) (d : Reg) (v : Word) (b : Bool) :
    Unchanged [d] true nowhere s ((s.write d v).setTest b) where
  regs := fun q hq => by
    rw [State.read_setTest, State.read_write, if_neg (by simpa using hq)]
  flags := nofun
  reserved := fun _ hi => by rw [State.setTest_reserved _ _ _ hi]; rfl
  mem := fun _ _ => rfl
  ir := rfl
  dr := rfl
  cb := rfl
  db := rfl
  io := rfl
  status := rfl
  finishCause := rfl
  fault := rfl
  errorMessage := rfl
  pulse := rfl
  sleeps := rfl
  hostCalls := rfl
  shiftDraws := rfl
  sprites := rfl

/-- An update of T changes T and nothing else. -/
theorem unchanged_setTest (s : State) (b : Bool) : Unchanged [] true nowhere s (s.setTest b) where
  regs := fun _ _ => rfl
  flags := nofun
  reserved := fun _ hi => State.setTest_reserved _ _ _ hi
  mem := fun _ _ => rfl
  ir := rfl
  dr := rfl
  cb := rfl
  db := rfl
  io := rfl
  status := rfl
  finishCause := rfl
  fault := rfl
  errorMessage := rfl
  pulse := rfl
  sleeps := rfl
  hostCalls := rfl
  shiftDraws := rfl
  sprites := rfl

/-- A register write changes that register and nothing else. -/
theorem unchanged_write (s : State) (d : Reg) (v : Word) : Unchanged [d] false nowhere s (s.write d v) where
  regs := fun q hq => by rw [State.read_write, if_neg (by simpa using hq)]
  flags := fun _ => rfl
  reserved := fun _ _ => rfl
  mem := fun _ _ => rfl
  ir := rfl
  dr := rfl
  cb := rfl
  db := rfl
  io := rfl
  status := rfl
  finishCause := rfl
  fault := rfl
  errorMessage := rfl
  pulse := rfl
  sleeps := rfl
  hostCalls := rfl
  shiftDraws := rfl
  sprites := rfl

/-- A memory update changes the bytes that read differently and nothing else. -/
theorem unchanged_mem (s : State) (m : Memory) (stored : Nat → Prop)
    (h : ∀ a, ¬ stored a → m.readByte a = s.mem.readByte a) : Unchanged [] false stored s { s with mem := m } where
  regs := fun _ _ => rfl
  flags := fun _ => rfl
  reserved := fun _ _ => rfl
  mem := h
  ir := rfl
  dr := rfl
  cb := rfl
  db := rfl
  io := rfl
  status := rfl
  finishCause := rfl
  fault := rfl
  errorMessage := rfl
  pulse := rfl
  sleeps := rfl
  hostCalls := rfl
  shiftDraws := rfl
  sprites := rfl

/-- Two changes one after the other. -/
theorem Unchanged.trans {r1 r2 : List Reg} {f1 f2 : Bool} {p1 p2 : Nat → Prop} {s t u : State}
    (h1 : Unchanged r1 f1 p1 s t) (h2 : Unchanged r2 f2 p2 t u) :
    Unchanged (r1 ++ r2) (f1 || f2) (fun a => p1 a ∨ p2 a) s u where
  regs := fun q hq => by
    rw [List.mem_append, not_or] at hq
    exact (h2.regs q hq.2).trans (h1.regs q hq.1)
  flags := fun hf => by
    rw [Bool.or_eq_false_iff] at hf
    exact (h2.flags hf.2).trans (h1.flags hf.1)
  reserved := fun i hi => (h2.reserved i hi).trans (h1.reserved i hi)
  mem := fun a ha => by
    rw [not_or] at ha
    exact (h2.mem a ha.2).trans (h1.mem a ha.1)
  ir := h2.ir.trans h1.ir
  dr := h2.dr.trans h1.dr
  cb := h2.cb.trans h1.cb
  db := h2.db.trans h1.db
  io := h2.io.trans h1.io
  status := h2.status.trans h1.status
  finishCause := h2.finishCause.trans h1.finishCause
  fault := h2.fault.trans h1.fault
  errorMessage := h2.errorMessage.trans h1.errorMessage
  pulse := h2.pulse.trans h1.pulse
  sleeps := h2.sleeps.trans h1.sleeps
  hostCalls := h2.hostCalls.trans h1.hostCalls
  shiftDraws := h2.shiftDraws.trans h1.shiftDraws
  sprites := h2.sprites.trans h1.sprites

/-- Change stays within wider bounds. -/
theorem Unchanged.widen {r1 r2 : List Reg} {f1 f2 : Bool} {p1 p2 : Nat → Prop} {s t : State}
    (h : Unchanged r1 f1 p1 s t) (hr : r1 ⊆ r2) (hf : f1 = true → f2 = true) (hp : ∀ a, p1 a → p2 a) :
    Unchanged r2 f2 p2 s t :=
  { h with
    regs := fun q hq => h.regs q fun hm => hq (hr hm)
    flags := fun h2 => h.flags (by cases f1 <;> simp_all)
    mem := fun a ha => h.mem a fun h1 => ha (hp a h1) }

/-- The bytes a word store writes are those of the word at its address. -/
theorem unchanged_writeWord (s : State) (ea : Int) (v : Word) (h : wordFits ea) :
    Unchanged [] false (wordAt ea) s { s with mem := s.mem.writeWord ea.toNat v } :=
  unchanged_mem s _ _ fun a ha => Memory.readByte_writeWord_ne _ _ _ _ (by
    rintro rfl; exact ha ⟨by omega, by omega⟩) (by rintro rfl; exact ha ⟨by omega, by omega⟩)

/-- The byte a byte store writes is the one at its address. -/
theorem unchanged_writeByte (s : State) (ea : Int) (v : Byte) (h : byteFits ea) :
    Unchanged [] false (byteAt ea) s { s with mem := s.mem.writeByte ea.toNat v } :=
  unchanged_mem s _ _ fun a ha => Memory.readByte_writeByte_ne _ _ _ _ (by
    rintro rfl; exact ha (by show ((ea.toNat : Nat) : Int) = ea; omega))

/-- A fault taken says what the record, the status and the rest are. -/
theorem faultTaken_raise (s : State) (c : FaultCause) (info : Int) (h : Status) (hc : c.haltStatus = some h) :
    FaultTaken c info h s (s.raise c info) := by
  rw [State.raise_of_halt s c info h hc]
  exact ⟨rfl, rfl, rfl⟩

end Sys2Proof.Machine
end

