-- ==== Sys2Proof/Laws/Decode.lean ====
section
/-! SUPPORT. The small lemmas of the encoding: fields of a word put together from nibbles, and the numbers of registers and
ALU operations. -/

namespace Sys2Proof

/-! ### Fields -/

@[simp] theorem typeOf_nibbles (a b c d : Nib) : typeOf (nibbles a b c d) = a := by
  apply BitVec.eq_of_toNat_eq; simp [typeOf, nibbles]; omega

@[simp] theorem opOf_nibbles (a b c d : Nib) : opOf (nibbles a b c d) = b := by
  apply BitVec.eq_of_toNat_eq; simp [opOf, nibbles]; omega

@[simp] theorem fieldHi_nibbles (a b c d : Nib) : fieldHi (nibbles a b c d) = c := by
  apply BitVec.eq_of_toNat_eq; simp [fieldHi, nibbles]; omega

@[simp] theorem fieldLo_nibbles (a b c d : Nib) : fieldLo (nibbles a b c d) = d := by
  apply BitVec.eq_of_toNat_eq; simp [fieldLo, nibbles]; omega

/-- A word is its four nibbles (R8). -/
theorem nibbles_fields (w : Word) : nibbles (typeOf w) (opOf w) (fieldHi w) (fieldLo w) = w := by
  apply BitVec.eq_of_toNat_eq; simp [typeOf, opOf, fieldHi, fieldLo, nibbles]; omega

@[simp] theorem typeOf_jumpWord (n : Nat) (_ : n < 16) (a : Target) :
    typeOf (BitVec.ofNat 16 (4096 * n + a.toNat)) = BitVec.ofNat 4 n := by
  apply BitVec.eq_of_toNat_eq; simp [typeOf]; omega

@[simp] theorem targetOf_jumpWord (n : Nat) (a : Target) :
    targetOf (BitVec.ofNat 16 (4096 * n + a.toNat)) = a := by
  apply BitVec.eq_of_toNat_eq; simp [targetOf]; omega

theorem jumpWord_target (w : Word) : BitVec.ofNat 16 (4096 * (typeOf w).toNat + (targetOf w).toNat) = w := by
  apply BitVec.eq_of_toNat_eq; simp [typeOf, targetOf]; omega

theorem sysWord_fields (k : Byte) :
    typeOf (BitVec.ofNat 16 (0x0100 + k.toNat)) = 0 ∧ opOf (BitVec.ofNat 16 (0x0100 + k.toNat)) = 1 ∧
      loByte (BitVec.ofNat 16 (0x0100 + k.toNat)) = k := by
  refine ⟨?_, ?_, ?_⟩ <;> apply BitVec.eq_of_toNat_eq <;> simp [typeOf, opOf, loByte] <;> omega

/-- A word of type 0x0 and opcode 0x1 is the `sys` word of its selector (R105). -/
theorem sysWord_loByte (w : Word) (ht : typeOf w = 0) (ho : opOf w = 1) :
    BitVec.ofNat 16 (0x0100 + (loByte w).toNat) = w := by
  have h1 := congrArg BitVec.toNat ht
  have h2 := congrArg BitVec.toNat ho
  simp [typeOf] at h1
  simp [opOf] at h2
  apply BitVec.eq_of_toNat_eq; simp [loByte]; omega

/-! ### Register and operation numbers -/

@[simp] theorem Reg.ofNib_toNib (r : Reg) : Reg.ofNib r.toNib = r := by cases r <;> rfl

@[simp] theorem Reg.toNib_ofNib (n : Nib) : (Reg.ofNib n).toNib = n := by revert n; decide

theorem Reg.toNib_injective {r q : Reg} (h : r.toNib = q.toNib) : r = q := by
  rw [← Reg.ofNib_toNib r, h, Reg.ofNib_toNib]

@[simp] theorem AluOp.ofNib_toNib (f : AluOp) : AluOp.ofNib f.toNib = some f := by cases f <;> rfl

theorem AluOp.toNib_of_ofNib {n : Nib} {f : AluOp} (h : AluOp.ofNib n = some f) : f.toNib = n := by
  revert n f; decide

/-! ### Bytes -/

@[simp] theorem bytesOf_nil : bytesOf [] = [] := rfl

@[simp] theorem bytesOf_cons (w : Word) (ws : List Word) : bytesOf (w :: ws) = hiByte w :: loByte w :: bytesOf ws := rfl

theorem length_bytesOf (ws : List Word) : (bytesOf ws).length = 2 * ws.length := by
  induction ws with
  | nil => rfl
  | cons w ws ih => simp [ih]; omega

end Sys2Proof
end

