-- ==== Sys2Proof/Laws/Relate.lean ====
section
/-! SUPPORT. What an instruction reads: two states alike in the fields that instructions read stay related through every
instruction, for any relation that every primitive update keeps. -/

namespace Sys2Proof.Machine

/-- Two results that are both next states, related. -/
def EndsAlike (R : State → State → Prop) (r r' : Result) : Prop := ∃ t t', r = .next t ∧ r' = .next t' ∧ R t t'

/-- `R` relates states alike in what instructions other than `jz` and `jnz` read, and every primitive update keeps it. -/
structure Alike (R : State → State → Prop) : Prop where
  regs : ∀ {s s'}, R s s' → s'.regs = s.regs
  mem : ∀ {s s'}, R s s' → s'.mem = s.mem
  ir : ∀ {s s'}, R s s' → s'.ir = s.ir
  hostCalls : ∀ {s s'}, R s s' → s'.hostCalls = s.hostCalls
  shiftDraws : ∀ {s s'}, R s s' → s'.shiftDraws = s.shiftDraws
  sprites : ∀ {s s'}, R s s' → s'.sprites = s.sprites
  write : ∀ {s s'} (r v), R s s' → R (s.write r v) (s'.write r v)
  test : ∀ {s s'} (b), R s s' → R (s.setTest b) (s'.setTest b)
  setMem : ∀ {s s'} (m : Memory), R s s' → R { s with mem := m } { s' with mem := m }
  setDraws : ∀ {s s'} (n : Nat), R s s' → R { s with shiftDraws := n } { s' with shiftDraws := n }
  setCalls : ∀ {s s'} (n : Nat), R s s' → R { s with hostCalls := n } { s' with hostCalls := n }
  message : ∀ {s s'} (b), R s s' → R { s with errorMessage := some b } { s' with errorMessage := some b }
  raised : ∀ {s s'} (h : Status) (f : FaultRecord), R s s' →
    R { s with status := h, fault := f } { s' with status := h, fault := f }
  finished : ∀ {s s'} (c), R s s' → R (s.finish c) (s'.finish c)

variable {R : State → State → Prop} {s s' : State}

theorem EndsAlike.next (h : R s s') : EndsAlike R (.next s) (.next s') := ⟨s, s', rfl, rfl, h⟩

theorem Alike.read (h : Alike R) (hs : R s s') (r : Reg) : s'.read r = s.read r := by
  rw [State.read, State.read, h.regs hs]

theorem Alike.raise (h : Alike R) (hs : R s s') (c : FaultCause) (info : Int) :
    EndsAlike R (.next (s.raise c info)) (.next (s'.raise c info)) := by
  refine EndsAlike.next ?_
  cases hc : c.haltStatus with
  | none => simpa [State.raise, hc] using hs
  | some st =>
    rw [State.raise_of_halt s c info st hc, State.raise_of_halt s' c info st hc]
    exact h.raised st _ hs

theorem Alike.bus (h : Alike R) (hs : R s s') (q : BusRequest) {k k' : Word → State → Result}
    (hk : ∀ v t t', R t t' → EndsAlike R (k v t) (k' v t')) : EndsAlike R (s.bus q k) (s'.bus q k') := by
  unfold State.bus
  split_ifs with hq
  · cases q with
    | fetch a => dsimp only; rw [h.mem hs]; exact hk _ _ _ hs
    | read a n => dsimp only; rw [h.mem hs]; exact hk _ _ _ hs
    | write a n v => dsimp only; rw [h.mem hs]; exact hk _ _ _ (h.setMem _ hs)
  · exact h.raise hs _ _

theorem Alike.loadWord (h : Alike R) (hs : R s s') (a : Int) {k k' : Word → Result}
    (hk : ∀ v, EndsAlike R (k v) (k' v)) : EndsAlike R (s.loadWord a k) (s'.loadWord a k') :=
  h.bus hs _ fun v _ _ _ => hk v

theorem Alike.loadByte (h : Alike R) (hs : R s s') (a : Int) {k k' : Byte → Result}
    (hk : ∀ v, EndsAlike R (k v) (k' v)) : EndsAlike R (s.loadByte a k) (s'.loadByte a k') :=
  h.bus hs _ fun v _ _ _ => hk (loByte v)

theorem Alike.storeWord (h : Alike R) (hs : R s s') (a : Int) (v : Word) {k k' : State → Result}
    (hk : ∀ t t', R t t' → EndsAlike R (k t) (k' t')) : EndsAlike R (s.storeWord a v k) (s'.storeWord a v k') :=
  h.bus hs _ fun _ t t' ht => hk t t' ht

theorem Alike.storeByte (h : Alike R) (hs : R s s') (a : Int) (v : Word) {k k' : State → Result}
    (hk : ∀ t t', R t t' → EndsAlike R (k t) (k' t')) : EndsAlike R (s.storeByte a v k) (s'.storeByte a v k') :=
  h.bus hs _ fun _ t t' ht => hk t t' ht

theorem Alike.slot (h : Alike R) (hs : R s s') (r : Reg) (i : Nat) : s'.slot r i = s.slot r i := by
  rw [State.slot, State.slot, h.read hs]

theorem Alike.bump (h : Alike R) (hs : R s s') (r : Reg) (n : Int) : R (s.bump r n) (s'.bump r n) := by
  rw [State.bump, State.bump, h.read hs]; exact h.write r _ hs

theorem Alike.pushWord (h : Alike R) (hs : R s s') (r : Reg) (v : Word) :
    EndsAlike R (s.pushWord r v) (s'.pushWord r v) := by
  have hb := h.bump hs r (-2)
  rw [State.pushWord, State.pushWord, h.slot hb]
  exact h.storeWord hb _ _ fun _ _ ht => EndsAlike.next ht

theorem Alike.aluThen (h : Alike R) (hs : R s s') (op : AluOp) (a b : Int) {k k' : Word → State → Result}
    (hk : ∀ v t t', R t t' → EndsAlike R (k v t) (k' v t')) : EndsAlike R (s.aluThen op a b k) (s'.aluThen op a b k') := by
  rw [State.aluThen, State.aluThen]
  split
  · exact hk _ _ _ hs
  · rw [h.ir hs]; exact h.raise hs _ _
  · rw [h.shiftDraws hs]; exact hk _ _ _ (h.setDraws _ hs)

theorem Alike.aluInto (h : Alike R) (hs : R s s') (op : AluOp) (d : Reg) (b : Int) :
    EndsAlike R (s.aluInto op d b) (s'.aluInto op d b) := by
  rw [State.aluInto, State.aluInto, h.read hs]
  exact h.aluThen hs _ _ _ fun _ _ _ ht => EndsAlike.next (h.test _ (h.write _ _ ht))

theorem Alike.sop (h : Alike R) (hs : R s s') (f : AluOp) (r : Reg) : EndsAlike R (execSop f r s) (execSop f r s') := by
  rw [execSop, execSop]
  split
  · rw [State.sopUnary, State.sopUnary, h.slot hs]
    refine h.loadWord hs _ fun _ => h.aluThen hs _ _ _ fun _ _ _ ht => ?_
    exact h.storeWord ht _ _ fun _ _ hu => EndsAlike.next (h.test _ hu)
  · rw [State.sopBinary, State.sopBinary, h.slot hs, h.slot hs]
    refine h.loadWord hs _ fun _ => h.loadWord hs _ fun _ => h.aluThen hs _ _ _ fun _ _ _ ht => ?_
    exact h.storeWord (h.bump ht r 2) _ _ fun _ _ hu => EndsAlike.next (h.test _ hu)

theorem Alike.swap (h : Alike R) (hs : R s s') (r : Reg) : EndsAlike R (execSwap r s) (execSwap r s') := by
  rw [execSwap, execSwap, h.slot hs, h.slot hs]
  refine h.loadWord hs _ fun _ => h.loadWord hs _ fun _ => h.storeWord hs _ _ fun _ _ ht => ?_
  exact h.storeWord ht _ _ fun _ _ hu => EndsAlike.next hu

theorem Alike.rot (h : Alike R) (hs : R s s') (r : Reg) : EndsAlike R (execRot r s) (execRot r s') := by
  rw [execRot, execRot, h.slot hs, h.slot hs, h.slot hs]
  refine h.loadWord hs _ fun _ => h.loadWord hs _ fun _ => h.loadWord hs _ fun _ => h.storeWord hs _ _ fun _ _ ht => ?_
  refine h.storeWord ht _ _ fun _ _ hu => ?_
  exact h.storeWord hu _ _ fun _ _ hv => EndsAlike.next hv

/-! ### Services -/

theorem Alike.readMessage (h : Alike R) (hs : R s s') (fuel : Nat) (a : Int) {k k' : List Byte → Result}
    (hk : ∀ v, EndsAlike R (k v) (k' v)) : EndsAlike R (s.readMessage fuel a k) (s'.readMessage fuel a k') := by
  induction fuel generalizing a k k' with
  | zero => exact h.raise hs _ _
  | succ n ih =>
    refine h.loadByte hs _ fun v => ?_
    split_ifs
    · exact hk _
    · exact ih _ fun vs => hk _

theorem Alike.scanFormat (h : Alike R) (hs : R s s') (sel : Byte) (fuel : Nat) (a : Int) (p : Bool)
    {k k' : Result} (hk : EndsAlike R k k') : EndsAlike R (s.scanFormat sel fuel a p k) (s'.scanFormat sel fuel a p k') := by
  induction fuel generalizing a p with
  | zero => exact h.raise hs _ _
  | succ n ih =>
    refine h.loadByte hs _ fun v => ?_
    split_ifs
    · exact hk
    · exact h.raise hs _ _
    · exact ih _ _

theorem Alike.hostActions (h : Alike R) (hs : R s s') (as : List HostAction) {k k' : State → Result}
    (hk : ∀ t t', R t t' → EndsAlike R (k t) (k' t')) : EndsAlike R (s.hostActions as k) (s'.hostActions as k') := by
  induction as generalizing s s' with
  | nil => exact hk s s' hs
  | cons a as ih =>
    cases a with
    | read a n => exact h.bus hs _ fun _ _ _ ht => ih ht
    | write a n v => exact h.bus hs _ fun _ _ _ ht => ih ht
    | setReg r v => exact ih (h.write _ _ hs)

theorem Alike.hostAnswer (h : Alike R) (hs : R s s') (svc : HostService) : s'.hostAnswer svc = s.hostAnswer svc := by
  have hargs : s'.serviceArgs = s.serviceArgs := by simp only [State.serviceArgs, h.read hs]
  unfold State.hostAnswer State.copyAnswer State.copiedByte State.spriteLoaded
  rw [h.hostCalls hs, h.mem hs, h.sprites hs, hargs]

theorem Alike.callHost (h : Alike R) (hs : R s s') (sel : Byte) (svc : HostService) :
    EndsAlike R (s.callHost sel svc) (s'.callHost sel svc) := by
  simp only [State.callHost]
  rw [h.hostAnswer hs, show s'.hostCalls + 1 = s.hostCalls + 1 by rw [h.hostCalls hs]]
  cases s.hostAnswer svc with
  | values actions => exact h.hostActions (h.setCalls _ hs) _ fun t t' ht => EndsAlike.next ht
  | memoryFault a => exact h.raise (h.setCalls _ hs) .memoryFault a
  | serviceError => exact h.raise (h.setCalls _ hs) .serviceError sel.toNat

theorem Alike.perform (h : Alike R) (hs : R s s') (k : Byte) (svc : Service) :
    EndsAlike R (s.perform k svc) (s'.perform k svc) := by
  cases svc with
  | exit => exact EndsAlike.next (h.finished _ hs)
  | error =>
    rw [State.perform, State.perform, State.errorService, State.errorService, h.read hs]
    exact h.readMessage hs _ _ fun b => h.raise (h.message b hs) _ _
  | host svc =>
    cases svc
    case printf =>
      rw [State.perform, State.perform, h.read hs]
      exact h.scanFormat hs _ _ _ _ (h.callHost hs _ _)
    all_goals simp only [State.perform]; exact h.callHost hs _ _

theorem Alike.sys (h : Alike R) (hs : R s s') (k : Byte) : EndsAlike R (execSys k s) (execSys k s') := by
  rw [execSys, execSys]
  split
  · rw [h.ir hs]; exact h.raise hs _ _
  · exact h.perform hs _ _

/-! ### Every instruction -/

/-- Every instruction but `jz` and `jnz` takes related states to related states; `jz` and `jnz` do so where T is alike. -/
theorem Alike.exec (h : Alike R) (hs : R s s') (i : Instr) (hi : readsTest i = true → s'.testBit = s.testBit) :
    EndsAlike R (exec i s) (exec i s') := by
  cases i
  case sys => exact h.sys hs _
  case nop => exact EndsAlike.next hs
  case swap => exact h.swap hs _
  case rot => exact h.rot hs _
  case sop => exact h.sop hs _ _
  case inc | dec | drop =>
    simp only [exec_inc, exec_dec, exec_drop]
    exact EndsAlike.next (h.bump hs _ _)
  case mov | seti | li | la | jr | ret | j =>
    simp only [exec_mov, exec_seti, exec_li, exec_la, exec_jr, exec_ret, exec_j, State.jump, h.read hs]
    exact EndsAlike.next (h.write _ _ hs)
  case add | sub | mul | div | mod | and | or | xor | shl | shr | min | max | not | lnot | neg | addi
      | subi | muli | divi | modi | andi | ori | xori | shli | shri | mini | maxi =>
    simp only [exec_add, exec_sub, exec_mul, exec_div, exec_mod, exec_and, exec_or, exec_xor, exec_shl,
      exec_shr, exec_min, exec_max, exec_not, exec_lnot, exec_neg, exec_addi, exec_subi, exec_muli, exec_divi,
      exec_modi, exec_andi, exec_ori, exec_xori, exec_shli, exec_shri, exec_mini, exec_maxi, h.read hs]
    exact h.aluInto hs _ _ _
  case push | pushi =>
    simp only [exec_push, exec_pushi, h.read hs]
    exact h.pushWord hs _ _
  case pop v r =>
    simp only [exec_pop, h.slot hs]
    exact h.loadWord hs _ fun _ => EndsAlike.next (h.write _ _ (h.bump hs r 2))
  case dup | overItem =>
    simp only [exec_dup, exec_overItem, h.slot hs]
    exact h.loadWord hs _ fun _ => h.pushWord hs _ _
  case eq | neq | gt | gte | lt | lte | eqi | neqi | gti | gtei | lti | ltei =>
    simp only [exec_eq, exec_neq, exec_gt, exec_gte, exec_lt, exec_lte, exec_eqi, exec_neqi, exec_gti,
      exec_gtei, exec_lti, exec_ltei, h.read hs]
    exact EndsAlike.next (h.test _ hs)
  case lwr | lw | lwo =>
    simp only [exec_lwr, exec_lw, exec_lwo, State.eaIndexed, State.eaOffset, h.read hs]
    exact h.loadWord hs _ fun _ => EndsAlike.next (h.write _ _ hs)
  case lbr | lb | lbo =>
    simp only [exec_lbr, exec_lb, exec_lbo, State.eaIndexed, State.eaOffset, h.read hs]
    exact h.loadByte hs _ fun _ => EndsAlike.next (h.write _ _ hs)
  case swr | sw | swo =>
    simp only [exec_swr, exec_sw, exec_swo, State.eaIndexed, State.eaOffset, h.read hs]
    exact h.storeWord hs _ _ fun _ _ ht => EndsAlike.next ht
  case sbr | sb | sbo =>
    simp only [exec_sbr, exec_sb, exec_sbo, State.eaIndexed, State.eaOffset, h.read hs]
    exact h.storeByte hs _ _ fun _ _ ht => EndsAlike.next ht
  case jz =>
    simp only [exec_jz, hi rfl]
    split_ifs
    · exact EndsAlike.next hs
    · exact EndsAlike.next (h.write _ _ hs)
  case jnz =>
    simp only [exec_jnz, hi rfl]
    split_ifs
    · exact EndsAlike.next (h.write _ _ hs)
    · exact EndsAlike.next hs
  case jal =>
    simp only [exec_jal, State.jump, h.read hs]
    exact EndsAlike.next (h.write _ _ (h.write _ _ hs))

end Sys2Proof.Machine
end

