-- ==== Sys2Proof/Tests/Slice0.lean ====
section
/-! SUPPORT. Tests.  Expected results are those of spec/95_test_vectors.md (the row is named with each test) or worked out by
hand from the rule named.  The `witness_` theorems show that the hypotheses of each statement can be met, at the ends of each
clause's range. -/

namespace Sys2Proof.Tests

open Sys2Proof.Machine

/-! ### Helpers -/

/-- A started machine with these words from address 0 up. -/
def machine (words : List Word) : State :=
  { State.reset with status := .executing, mem := Memory.writeBytes [] 0 (bytesOf words) }

/-- A machine with some registers set. -/
def withRegs (s : State) (rs : List (Reg × Word)) : State := rs.foldl (fun s p => s.write p.1 p.2) s

/-- A machine with some words stored. -/
def withWords (s : State) (ws : List (Nat × Word)) : State :=
  { s with mem := ws.foldl (fun m p => m.writeWord p.1 p.2) s.mem }

/-- The next step gives a state with the property. -/
def after (s : State) (p : State → Bool) : Bool :=
  match step s with
  | .next t => p t
  | .fault _ => false
  | .refused _ => false

/-- A register's value, T and PC. -/
def shows (r : Reg) (v : Word) (test : Bool) (pc : Word) (t : State) : Bool :=
  decide (t.read r = v) && (t.testBit == test) && decide (t.read .pc = pc) && decide (t.status = .executing)

/-- A word of memory, the stack pointer and T. -/
def stacked (a : Nat) (v sp : Word) (test : Bool) (t : State) : Bool :=
  decide (t.mem.readWord a = v) && decide (t.read .sp = sp) && (t.testBit == test) && decide (t.status = .executing)

/-- A halt by a fault, and the PC it leaves. -/
def halted (c : FaultCause) (info : Int) (st : Status) (pc : Word) (t : State) : Bool :=
  decide (t.fault = { cause := c, info := info }) && decide (t.status = st) && decide (t.read .pc = pc)

/-! ### Well-formed terms -/

/-- The word of `jr ra` is read as `ret`, so the term `jr ra` stands for no word (R452). -/
theorem test_wellFormed_refuses_jr_ra : (Instr.jr .ra).wellFormed = false := by decide

theorem test_wellFormed_admits_ret : Instr.ret.wellFormed = true ∧ (Instr.jr .pc).wellFormed = true := by decide

/-! ### Decoding: words written out from the fields of 30_encoding.md, the words of 95_test_vectors.md among them -/

theorem test_decode_misc :
    decodeTableWord 16 0x0061 = some (.mov .a0 .t1) ∧
    decodeTableWord 16 0x0100 = some (.sys 0x00) ∧
    decodeTableWord 16 0x01FF = some (.sys 0xFF) ∧
    decodeTableWord 16 0x02F4 = some (.inc .pc 4) ∧
    decodeTableWord 16 0x030F = some (.dec .t0 15) ∧
    decodeTableWord 16 0x045F = some (.seti .t5 15) ∧
    decodeTableWord 16 0x0FFF = some (.nop) := by
  decide

theorem test_decode_alu :
    decodeTableWord 16 0x1001 = some (.add .t0 .t1) ∧
    decodeTableWord 16 0x1123 = some (.sub .t2 .t3) ∧
    decodeTableWord 16 0x1245 = some (.mul .t4 .t5) ∧
    decodeTableWord 16 0x1367 = some (.div .a0 .a1) ∧
    decodeTableWord 16 0x1489 = some (.mod .a2 .a3) ∧
    decodeTableWord 16 0x15AB = some (.and .rv .ra) ∧
    decodeTableWord 16 0x16CD = some (.or .fp .sp) ∧
    decodeTableWord 16 0x17EF = some (.xor .bp .pc) ∧
    decodeTableWord 16 0x1810 = some (.shl .t1 .t0) ∧
    decodeTableWord 16 0x1932 = some (.shr .t3 .t2) ∧
    decodeTableWord 16 0x1A54 = some (.min .t5 .t4) ∧
    decodeTableWord 16 0x1B76 = some (.max .a1 .a0) ∧
    decodeTableWord 16 0x1C20 = some (.not .t2) ∧
    decodeTableWord 16 0x1D30 = some (.lnot .t3) ∧
    decodeTableWord 16 0x1E40 = some (.neg .t4) := by
  decide

theorem test_decode_aluImmediate :
    decodeTableWord 32 0x000A1F00 = some (.addi .t0 10) ∧
    decodeTableWord 32 0x00011F11 = some (.subi .t1 1) ∧
    decodeTableWord 32 0x012C1F22 = some (.muli .t2 300) ∧
    decodeTableWord 32 0xFFF91F33 = some (.divi .t3 0xFFF9) ∧
    decodeTableWord 32 0x00071F44 = some (.modi .t4 7) ∧
    decodeTableWord 32 0x00FF1F55 = some (.andi .t5 0xFF) ∧
    decodeTableWord 32 0x12001F66 = some (.ori .a0 0x1200) ∧
    decodeTableWord 32 0xFFFF1F77 = some (.xori .a1 0xFFFF) ∧
    decodeTableWord 32 0x000F1F88 = some (.shli .a2 15) ∧
    decodeTableWord 32 0x00011F99 = some (.shri .a3 1) ∧
    decodeTableWord 32 0x000A1FAA = some (.mini .rv 10) ∧
    decodeTableWord 32 0x80001FBB = some (.maxi .ra 0x8000) := by
  decide

theorem test_decode_stack :
    decodeTableWord 16 0x200D = some (.push .t0 .sp) ∧
    decodeTableWord 16 0x21FD = some (.pop .pc .sp) ∧
    decodeTableWord 16 0x220D = some (.dup .sp) ∧
    decodeTableWord 16 0x230C = some (.swap .fp) ∧
    decodeTableWord 16 0x240D = some (.drop .sp) ∧
    decodeTableWord 16 0x250E = some (.overItem .bp) ∧
    decodeTableWord 16 0x260D = some (.rot .sp) ∧
    decodeTableWord 16 0x271D = some (.sop .sub .sp) ∧
    decodeTableWord 16 0x27E2 = some (.sop .neg .t2) ∧
    decodeTableWord 32 0x03E82F0D = some (.pushi 1000 .sp) := by
  decide

theorem test_decode_test :
    decodeTableWord 16 0x3001 = some (.eq .t0 .t1) ∧
    decodeTableWord 16 0x3112 = some (.neq .t1 .t2) ∧
    decodeTableWord 16 0x3223 = some (.gt .t2 .t3) ∧
    decodeTableWord 16 0x3334 = some (.gte .t3 .t4) ∧
    decodeTableWord 16 0x3445 = some (.lt .t4 .t5) ∧
    decodeTableWord 16 0x3556 = some (.lte .t5 .a0) ∧
    decodeTableWord 16 0x380F = some (.eqi .t0 15) ∧
    decodeTableWord 16 0x3910 = some (.neqi .t1 0) ∧
    decodeTableWord 16 0x3A2F = some (.gti .t2 15) ∧
    decodeTableWord 16 0x3B31 = some (.gtei .t3 1) ∧
    decodeTableWord 16 0x3C42 = some (.lti .t4 2) ∧
    decodeTableWord 16 0x3D53 = some (.ltei .t5 3) := by
  decide

theorem test_decode_loadStore :
    decodeTableWord 16 0x4012 = some (.lwr .t0 .t1 .t2) ∧
    decodeTableWord 16 0x5601 = some (.lbr .a0 .t0 .t1) ∧
    decodeTableWord 16 0x6012 = some (.swr .t0 .t1 .t2) ∧
    decodeTableWord 16 0x7D3F = some (.sbr .sp .t3 .pc) ∧
    decodeTableWord 32 0x001C8000 = some (.lw .t0 28) ∧
    decodeTableWord 32 0x00148123 = some (.lwo .t2 .t3 20) ∧
    decodeTableWord 32 0x0FFF8210 = some (.lb .t1 4095) ∧
    decodeTableWord 32 0x00148301 = some (.lbo .t0 .t1 20) ∧
    decodeTableWord 32 0x001C84A0 = some (.sw .rv 28) ∧
    decodeTableWord 32 0x00288501 = some (.swo .t0 .t1 40) ∧
    decodeTableWord 32 0x0FFF8650 = some (.sb .t5 4095) ∧
    decodeTableWord 32 0x00648746 = some (.sbo .t4 .a0 100) ∧
    decodeTableWord 32 0xFFFF8820 = some (.li .t2 0xFFFF) ∧
    decodeTableWord 32 0x00148960 = some (.la .a0 20) := by
  decide

theorem test_decode_control :
    decodeTableWord 16 0x9000 = some (.jr .t0) ∧
    decodeTableWord 16 0x900F = some (.jr .pc) ∧
    decodeTableWord 16 0x900B = some (.ret) ∧
    decodeTableWord 16 0xC006 = some (.j 6) ∧
    decodeTableWord 16 0xD010 = some (.jz 16) ∧
    decodeTableWord 16 0xEFFF = some (.jnz 4095) ∧
    decodeTableWord 16 0xF010 = some (.jal 16) := by
  decide

/-- Reserved and illegal words (R125; M18, M19, I15, S25, S26, T18, T19, L26, C10, C11). -/
theorem test_decode_illegal :
    decode 0x0500 0 = .illegal .reservedMisc ∧ decode 0x0E00 0 = .illegal .reservedMisc ∧
    decode 0x1F0C 0 = .illegal .immediateOp ∧ decode 0x2800 0 = .illegal .reservedStack ∧
    decode 0x2E00 0 = .illegal .reservedStack ∧ decode 0x27FD 0 = .illegal .stackOp ∧
    decode 0x3600 0 = .illegal .reservedTest ∧ decode 0x3F00 0 = .illegal .reservedTest ∧
    decode 0x8A00 0 = .illegal .reservedLoad ∧ decode 0xA000 0 = .illegal .reservedType ∧
    decode 0xBFFF 0 = .illegal .reservedType := by
  decide

/-- Unused fields are ignored, and are illegal only where they are strict (R126). -/
theorem test_decode_unused :
    decode 0x1C05 0 = .ok (.not .t0) ∧ decode 0x22AD 0 = .ok (.dup .sp) ∧ decode 0x8801 7 = .ok (.li .t0 7) ∧
    decode 0x9120 0 = .ok (.jr .t0) ∧ decodeWith true 0x1C05 0 = .illegal .unusedField ∧
    decodeWith true 0x0F00 0 = .ok .nop := by
  decide

/-! ### One step of each instruction -/

/-- M1. -/
theorem test_mov : after (withRegs (machine [0x0061]) [(.t1, 0x1234)]) (shows .a0 0x1234 false 2) = true := by decide

/-- M4. -/
theorem test_mov_into_pc : after (withRegs (machine [0x00FB]) [(.ra, 40)]) (shows .pc 40 false 40) = true := by decide

/-- M9, with T set before (R200). -/
theorem test_inc_wraps_and_keeps_test :
    after ((withRegs (machine [0x0201]) [(.t0, 0x7FFF)]).setTest true)
      (shows .t0 0x8000 true 2) = true := by decide

/-- M11. -/
theorem test_inc_pc : after (machine [0x02F4]) (shows .pc 6 false 6) = true := by decide

/-- M12. -/
theorem test_dec_wraps : after (machine [0x0301]) (shows .t0 0xFFFF false 2) = true := by decide

/-- M14. -/
theorem test_dec_fifteen : after (machine [0x030F]) (shows .t0 0xFFF1 false 2) = true := by decide

/-- M16. -/
theorem test_seti : after (withRegs (machine [0x045F]) [(.t5, 0xFFFF)]) (shows .t5 15 false 2) = true := by decide

/-- M17. -/
theorem test_nop : after (machine [0x0FFF]) (shows .t0 0 false 2) = true := by decide

/-- M5 at address 0. -/
theorem test_sys_exit :
    after (machine [0x0100])
      (fun t => decide (t.status = .finished ∧ t.finishCause = some .exit ∧ t.read .pc = 2)) = true := by decide

/-- M6. -/
theorem test_sys_error :
    after (withRegs (withWords (machine [0x01FF]) [(20, 0x6800)]) [(.a0, 20)])
      (fun t => halted .programError 20 .permanentError 2 t && decide (t.errorMessage = some [0x68])) = true := by decide

/-- A2. -/
theorem test_add_overflows :
    after (withRegs (machine [0x1001]) [(.t0, 0x7FFF), (.t1, 1)])
      (shows .t0 0x8000 true 2) = true := by decide

/-- A3, with T set before. -/
theorem test_add_to_zero :
    after ((withRegs (machine [0x1001]) [(.t0, 0xFFFF), (.t1, 1)]).setTest true)
      (shows .t0 0 false 2) = true := by decide

/-- A4. -/
theorem test_sub : after (withRegs (machine [0x1101]) [(.t0, 5), (.t1, 7)]) (shows .t0 0xFFFE true 2) = true := by decide

/-- A5. -/
theorem test_sub_wraps :
    after (withRegs (machine [0x1101]) [(.t0, 0x8000), (.t1, 1)])
      (shows .t0 0x7FFF true 2) = true := by decide

/-- A7. -/
theorem test_mul_low_half :
    after (withRegs (machine [0x1201]) [(.t0, 300), (.t1, 300)])
      (shows .t0 0x5F90 true 2) = true := by decide

/-- A8. -/
theorem test_mul_to_zero :
    after (withRegs (machine [0x1201]) [(.t0, 256), (.t1, 256)])
      (shows .t0 0 false 2) = true := by decide

/-- A9. -/
theorem test_div_toward_zero :
    after (withRegs (machine [0x1301]) [(.t0, 0xFFF9), (.t1, 2)])
      (shows .t0 0xFFFD true 2) = true := by decide

/-- A11. -/
theorem test_div_by_zero :
    after (withRegs (machine [0x1301]) [(.t0, 5)])
      (halted .divideByZero 0x1301 .permanentError 2) = true := by decide

/-- A12. -/
theorem test_mod_sign_of_dividend :
    after (withRegs (machine [0x1401]) [(.t0, 0xFFF9), (.t1, 2)])
      (shows .t0 0xFFFF true 2) = true := by decide

/-- A13. -/
theorem test_mod_negative_divisor :
    after (withRegs (machine [0x1401]) [(.t0, 7), (.t1, 0xFFFE)])
      (shows .t0 1 true 2) = true := by decide

/-- A15. -/
theorem test_and :
    after (withRegs (machine [0x1501]) [(.t0, 0x0F0F), (.t1, 0x00FF)])
      (shows .t0 0x000F true 2) = true := by decide

/-- A16. -/
theorem test_or :
    after (withRegs (machine [0x1601]) [(.t0, 0xF000), (.t1, 0x000F)])
      (shows .t0 0xF00F true 2) = true := by decide

/-- A17. -/
theorem test_xor :
    after (withRegs (machine [0x1701]) [(.t0, 0xFFFF), (.t1, 0x0F0F)])
      (shows .t0 0xF0F0 true 2) = true := by decide

/-- A18. -/
theorem test_xor_same_register :
    after (withRegs (machine [0x1700]) [(.t0, 0x1234)])
      (shows .t0 0 false 2) = true := by decide

/-- A20. -/
theorem test_shl_fifteen :
    after (withRegs (machine [0x1801]) [(.t0, 1), (.t1, 15)])
      (shows .t0 0x8000 true 2) = true := by decide

/-- A22. -/
theorem test_shl_negative_count :
    after (withRegs (machine [0x1801]) [(.t0, 1), (.t1, 0xFFFF)])
      (shows .t0 0 false 2) = true := by decide

/-- A23. -/
theorem test_shr :
    after (withRegs (machine [0x1901]) [(.t0, 0xFFF0), (.t1, 2)])
      (shows .t0 0xFFFC true 2) = true := by decide

/-- A25. -/
theorem test_shr_saturates :
    after (withRegs (machine [0x1901]) [(.t0, 0xFFFF), (.t1, 20)])
      (shows .t0 0xFFFF true 2) = true := by decide

/-- A28. -/
theorem test_min_signed :
    after (withRegs (machine [0x1A01]) [(.t0, 0xFFFB), (.t1, 3)])
      (shows .t0 0xFFFB true 2) = true := by decide

/-- A29. -/
theorem test_max_signed :
    after (withRegs (machine [0x1B01]) [(.t0, 0xFFFB), (.t1, 3)])
      (shows .t0 3 true 2) = true := by decide

/-- A31. -/
theorem test_not : after (withRegs (machine [0x1C00]) [(.t0, 0x00FF)]) (shows .t0 0xFF00 true 2) = true := by decide

/-- A33. -/
theorem test_lnot_zero : after (machine [0x1D00]) (shows .t0 1 true 2) = true := by decide

/-- A34. -/
theorem test_lnot_nonzero : after (withRegs (machine [0x1D00]) [(.t0, 0x8000)]) (shows .t0 0 false 2) = true := by decide

/-- A35. -/
theorem test_neg : after (withRegs (machine [0x1E00]) [(.t0, 5)]) (shows .t0 0xFFFB true 2) = true := by decide

/-- A36. -/
theorem test_neg_least : after (withRegs (machine [0x1E00]) [(.t0, 0x8000)]) (shows .t0 0x8000 true 2) = true := by decide

/-- V2. -/
theorem test_addi : after (withRegs (machine [0x1F00, 0x000A]) [(.t0, 5)]) (shows .t0 15 true 4) = true := by decide

/-- I14. -/
theorem test_addi_wraps : after (withRegs (machine [0x1F00, 0xFFFF]) [(.t0, 1)]) (shows .t0 0 false 4) = true := by decide

/-- I2. -/
theorem test_subi : after (withRegs (machine [0x1F01, 0x000A]) [(.t0, 10)]) (shows .t0 0 false 4) = true := by decide

/-- I3. -/
theorem test_muli : after (withRegs (machine [0x1F02, 0x012C]) [(.t0, 300)]) (shows .t0 0x5F90 true 4) = true := by decide

/-- I4. -/
theorem test_divi : after (withRegs (machine [0x1F03, 0xFFF9]) [(.t0, 100)]) (shows .t0 0xFFF2 true 4) = true := by decide

/-- I6. -/
theorem test_divi_by_zero :
    after (withRegs (machine [0x1F03, 0x0000]) [(.t0, 100)])
      (halted .divideByZero 0x1F03 .permanentError 4) = true := by decide

/-- I5. -/
theorem test_modi : after (withRegs (machine [0x1F04, 0xFFF9]) [(.t0, 100)]) (shows .t0 2 true 4) = true := by decide

/-- I7. -/
theorem test_andi : after (withRegs (machine [0x1F05, 0x00FF]) [(.t0, 0x1234)]) (shows .t0 0x0034 true 4) = true := by decide

/-- I8. -/
theorem test_ori : after (withRegs (machine [0x1F06, 0x1200]) [(.t0, 0x0034)]) (shows .t0 0x1234 true 4) = true := by decide

/-- I9. -/
theorem test_xori : after (withRegs (machine [0x1F07, 0xFFFF]) [(.t0, 0x00FF)]) (shows .t0 0xFF00 true 4) = true := by decide

/-- I10. -/
theorem test_shli : after (withRegs (machine [0x1F08, 0x000F]) [(.t0, 1)]) (shows .t0 0x8000 true 4) = true := by decide

/-- I11. -/
theorem test_shri : after (withRegs (machine [0x1F09, 0x000F]) [(.t0, 0x8000)]) (shows .t0 0xFFFF true 4) = true := by decide

/-- I12. -/
theorem test_mini : after (withRegs (machine [0x1F0A, 0x000A]) [(.t0, 50)]) (shows .t0 10 true 4) = true := by decide

/-- I13. -/
theorem test_maxi : after (withRegs (machine [0x1F0B, 0x0000]) [(.t0, 0xFFCE)]) (shows .t0 0 false 4) = true := by decide

/-- I15. -/
theorem test_illegal_immediate_operation :
    after (withRegs (machine [0x1F0C, 0x0000]) [(.t0, 7)])
      (halted .illegalInstruction 0x1F0C .defect 4) = true := by decide

/-- S2. -/
theorem test_push_stack_register : after (machine [0x20DD]) (stacked 4094 0x1000 4094 false) = true := by decide

/-- S3. -/
theorem test_push_below_memory :
    after (withRegs (machine [0x200D]) [(.sp, 0)])
      (fun t => halted .memoryFault (-2) .permanentError 2 t && decide (t.read .sp = 0xFFFE)) = true := by decide

/-- S5. -/
theorem test_pop :
    after (withRegs (withWords (machine [0x211D]) [(4094, 7)]) [(.sp, 4094)])
      (fun t => shows .t1 7 false 2 t && decide (t.read .sp = 4096)) = true := by decide

/-- S7. -/
theorem test_pop_stack_register :
    after (withRegs (withWords (machine [0x21DD]) [(4094, 0x0100)]) [(.sp, 4094)])
      (shows .sp 0x0100 false 2) = true := by decide

/-- S9. -/
theorem test_dup :
    after (withRegs (withWords (machine [0x220D]) [(4094, 7)]) [(.sp, 4094)])
      (stacked 4092 7 4092 false) = true := by decide

/-- S11. -/
theorem test_swap :
    after (withRegs (withWords (machine [0x230D]) [(4092, 3), (4094, 10)]) [(.sp, 4092)])
      (fun t => stacked 4092 10 4092 false t && stacked 4094 3 4092 false t) = true := by decide

/-- S13. -/
theorem test_drop_past_memory : after (machine [0x240D]) (stacked 4094 0 4098 false) = true := by decide

/-- S14. -/
theorem test_over :
    after (withRegs (withWords (machine [0x250D]) [(4092, 3), (4094, 10)]) [(.sp, 4092)])
      (stacked 4090 10 4090 false) = true := by decide

/-- S15. -/
theorem test_rot :
    after (withRegs (withWords (machine [0x260D]) [(4090, 3), (4092, 2), (4094, 1)]) [(.sp, 4090)])
      (fun t => stacked 4090 1 4090 false t && stacked 4092 3 4090 false t && stacked 4094 2 4090 false t) = true := by decide

/-- S17. -/
theorem test_sop_sub :
    after (withRegs (withWords (machine [0x271D]) [(4092, 3), (4094, 10)]) [(.sp, 4092)])
      (stacked 4094 7 4094 true) = true := by decide

/-- S21. -/
theorem test_sop_lnot :
    after (withRegs (withWords (machine [0x27DD]) [(4094, 9)]) [(.sp, 4094)])
      (stacked 4094 0 4094 false) = true := by decide

/-- S24. -/
theorem test_pushi_other_register :
    after (withRegs (machine [0x2F02, 0xFFFF]) [(.t2, 200)])
      (fun t => stacked 198 0xFFFF 4096 false t && decide (t.read .t2 = 198)) = true := by decide

/-- T1. -/
theorem test_eq : after (withRegs (machine [0x3001]) [(.t0, 5), (.t1, 5)]) (shows .pc 2 true 2) = true := by decide

/-- T3. -/
theorem test_neq :
    after (withRegs (machine [0x3101]) [(.t0, 0xFFFF), (.t1, 0x7FFF)])
      (shows .pc 2 true 2) = true := by decide

/-- T4. -/
theorem test_gt_signed :
    after (withRegs (machine [0x3201]) [(.t0, 0), (.t1, 0xFFFF)])
      (shows .pc 2 true 2) = true := by decide

/-- T5, with T set before. -/
theorem test_gt_least :
    after ((withRegs (machine [0x3201]) [(.t0, 0x8000), (.t1, 0x7FFF)]).setTest true)
      (shows .pc 2 false 2) = true := by decide

/-- T6, with T set before. -/
theorem test_gte :
    after ((withRegs (machine [0x3301]) [(.t0, 0xFFFE), (.t1, 0xFFFF)]).setTest true)
      (shows .pc 2 false 2) = true := by decide

/-- T7. -/
theorem test_gte_equal : after (withRegs (machine [0x3300]) [(.t0, 9)]) (shows .pc 2 true 2) = true := by decide

/-- T8. -/
theorem test_lt : after (withRegs (machine [0x3401]) [(.t0, 0x8000), (.t1, 0)]) (shows .pc 2 true 2) = true := by decide

/-- T9. -/
theorem test_lte : after (withRegs (machine [0x3501]) [(.t0, 3), (.t1, 3)]) (shows .pc 2 true 2) = true := by decide

/-- T11, with T set before. -/
theorem test_eqi_unsigned_constant :
    after ((withRegs (machine [0x380F]) [(.t0, 0xFFFF)]).setTest true)
      (shows .pc 2 false 2) = true := by decide

/-- T12. -/
theorem test_neqi : after (withRegs (machine [0x3900]) [(.t0, 4)]) (shows .pc 2 true 2) = true := by decide

/-- T13. -/
theorem test_gti : after (withRegs (machine [0x3A2F]) [(.t2, 16)]) (shows .pc 2 true 2) = true := by decide

/-- T14, with T set before. -/
theorem test_gti_signed :
    after ((withRegs (machine [0x3A00]) [(.t0, 0xFFFF)]).setTest true)
      (shows .pc 2 false 2) = true := by decide

/-- T15, with T set before. -/
theorem test_gtei :
    after ((withRegs (machine [0x3B00]) [(.t0, 0x8000)]).setTest true)
      (shows .pc 2 false 2) = true := by decide

/-- T16. -/
theorem test_lti : after (withRegs (machine [0x3C10]) [(.t1, 0xFFFF)]) (shows .pc 2 true 2) = true := by decide

/-- T17, with T set before. -/
theorem test_ltei : after ((withRegs (machine [0x3D0F]) [(.t0, 16)]).setTest true) (shows .pc 2 false 2) = true := by decide

/-- L1. -/
theorem test_lwr :
    after (withRegs (withWords (machine [0x4012]) [(22, 0x1234)]) [(.t0, 20), (.t1, 2)])
      (shows .t2 0x1234 false 2) = true := by decide

/-- L3. -/
theorem test_lwr_does_not_wrap :
    after (withRegs (machine [0x4012]) [(.t0, 0x7FFF), (.t1, 1)])
      (halted .memoryFault 32768 .permanentError 2) = true := by decide

/-- L5. -/
theorem test_lbr_extends_sign :
    after (withRegs (withWords (machine [0x5601]) [(20, 0x0080)]) [(.a0, 20), (.t0, 1)])
      (shows .t1 0xFF80 false 2) = true := by decide

/-- L6. -/
theorem test_swr :
    after (withRegs (machine [0x6012]) [(.t0, 30), (.t2, 0xBEEF)])
      (stacked 30 0xBEEF 4096 false) = true := by decide

/-- L7. -/
theorem test_sbr :
    after (withRegs (withWords (machine [0x7012]) [(30, 0xAABB)]) [(.t0, 30), (.t1, 1), (.t2, 0x1280)])
      (stacked 30 0xAA80 4096 false) = true := by decide

/-- L9. -/
theorem test_lw_last_word :
    after (withWords (machine [0x8000, 0x0FFE]) [(4094, 0xCAFE)])
      (shows .t0 0xCAFE false 4) = true := by decide

/-- L10. -/
theorem test_lw_past_memory :
    after (machine [0x8000, 0x0FFF])
      (halted .memoryFault 4095 .permanentError 4) = true := by decide

/-- L12. -/
theorem test_lwo :
    after (withRegs (withWords (machine [0x8101, 0x0014]) [(24, 0xABCD)]) [(.t1, 4)])
      (shows .t0 0xABCD false 4) = true := by decide

/-- L13. -/
theorem test_lwo_negative_address :
    after (withRegs (machine [0x8101, 0xFFFF]) [(.t1, 1)])
      (shows .t0 0x8101 false 4) = true := by decide

/-- L15. -/
theorem test_lb_last_byte :
    after (withWords (machine [0x8200, 0x0FFF]) [(4094, 0x00FF)])
      (shows .t0 0xFFFF false 4) = true := by decide

/-- L16. -/
theorem test_lbo_offset_is_target :
    after (withRegs (withWords (machine [0x8300, 0x0014]) [(22, 0x2100)]) [(.t0, 2)])
      (shows .t0 0x0021 false 4) = true := by decide

/-- L17. -/
theorem test_sw : after (withRegs (machine [0x84A0, 0x001C]) [(.rv, 21)]) (stacked 28 21 4096 false) = true := by decide

/-- L18. -/
theorem test_swo_odd_address :
    after (withRegs (machine [0x8501, 0x0028]) [(.t0, 0x0102), (.t1, 3)])
      (stacked 43 0x0102 4096 false) = true := by decide

/-- L19. -/
theorem test_sb_last_byte :
    after (withRegs (machine [0x8600, 0x0FFF]) [(.t0, 0xFF41)])
      (stacked 4094 0x0041 4096 false) = true := by decide

/-- L20. -/
theorem test_sbo :
    after (withRegs (machine [0x8701, 0x0064]) [(.t0, 0x21), (.t1, 5)])
      (stacked 104 0x0021 4096 false) = true := by decide

/-- L21. -/
theorem test_sbo_past_memory :
    after (withRegs (machine [0x8701, 0x0FFF]) [(.t1, 1)])
      (halted .memoryFault 4096 .permanentError 4) = true := by decide

/-- L23. -/
theorem test_li : after (machine [0x8800, 0xFFFF]) (shows .t0 0xFFFF false 4) = true := by decide

/-- L24. -/
theorem test_li_into_pc : after (machine [0x88F0, 0x0064]) (shows .pc 100 false 100) = true := by decide

/-- L25. -/
theorem test_la : after (machine [0x8900, 0x0004]) (shows .t0 4 false 4) = true := by decide

/-- C1 at address 0. -/
theorem test_jr : after (withRegs (machine [0x9000]) [(.t0, 40)]) (shows .pc 40 false 40) = true := by decide

/-- C2 at address 0 (PC is the next address). -/
theorem test_jr_pc : after (machine [0x900F]) (shows .pc 2 false 2) = true := by decide

/-- C3 at address 0. -/
theorem test_ret : after (withRegs (machine [0x900B]) [(.ra, 8)]) (shows .pc 8 false 8) = true := by decide

/-- C4 at address 0. -/
theorem test_j : after (machine [0xC006]) (shows .pc 6 false 6) = true := by decide

/-- V3, T clear. -/
theorem test_jz_taken : after (machine [0xD010]) (shows .pc 16 false 16) = true := by decide

/-- V3, T set. -/
theorem test_jz_not_taken : after ((machine [0xD010]).setTest true) (shows .pc 2 true 2) = true := by decide

/-- C8 at address 0, T set. -/
theorem test_jnz_taken : after ((machine [0xE004]).setTest true) (shows .pc 4 true 4) = true := by decide

/-- C8 at address 0, T clear. -/
theorem test_jnz_not_taken : after (machine [0xE004]) (shows .pc 2 false 2) = true := by decide

/-- V4. -/
theorem test_jal :
    after (withRegs (withWords (machine [0x0000]) [(50, 0xF010)]) [(.pc, 50)])
      (fun t => shows .ra 52 false 16 t) = true := by decide

/-! ### Fetch and fault priority -/

/-- F1. -/
theorem test_fetch_second_word_past_memory :
    after (withRegs (withWords (machine [0x0000]) [(4094, 0x1F00)]) [(.pc, 4094)])
      (fun t => halted .memoryFault 4096 .permanentError 4094 t && decide (t.ir = 0x1F00)) = true := by decide

/-- F2. -/
theorem test_fetch_fault_before_illegal :
    after (withRegs (withWords (machine [0x0000]) [(4094, 0x1F0C)]) [(.pc, 4094)])
      (halted .memoryFault 4096 .permanentError 4094) = true := by decide

/-- F3. -/
theorem test_illegal_single_word_at_the_end :
    after (withRegs (withWords (machine [0x0000]) [(4094, 0x8A00)]) [(.pc, 4094)])
      (halted .illegalInstruction 0x8A00 .defect 4096) = true := by decide

/-- F4, IR unchanged. -/
theorem test_fetch_past_memory :
    after (withRegs (machine [0x0000]) [(.pc, 4096)])
      (fun t => halted .memoryFault 4096 .permanentError 4096 t && decide (t.ir = 0)) = true := by decide

/-- F5. -/
theorem test_halted_machine_stands :
    after { machine [0x0403] with status := .finished } (fun t => decide (t = { machine [0x0403] with status := .finished })) =
      true := by
  decide

/-- F6: the second store is the next instruction. -/
theorem test_store_is_fetched :
    after (withRegs (machine [0x8800, 0x0100, 0x8400, 0x0008, 0x0FFF]) [(.t0, 0x0100), (.pc, 4)])
      (fun t => after t fun u => decide (u.status = .finished ∧ u.read .pc = 10)) = true := by
  decide

/-! ### The named parameters at other values (R7) -/

/-- The next step under given parameters gives a state with the property. -/
def afterWith (p : Params) (s : State) (q : State → Bool) : Bool :=
  match stepWith p s with
  | .next t => q t
  | .fault _ => false
  | .refused _ => false

/-- STRICT_UNUSED_FIELDS = true: the word of `not t0` with a nonzero unused field is illegal (R126). -/
theorem test_parameter_strictUnusedFields :
    afterWith { Config.params with strictUnusedFields := true } (machine [0x1C05])
      (halted .illegalInstruction 0x1C05 .defect 2) = true := by decide

/-- MISALIGNED_POLICY = fault: a word at an odd address faults, a byte does not (R76). -/
theorem test_parameter_misalignedPolicy :
    afterWith { Config.params with misalignedPolicy := .fault } (machine [0x8000, 0x0003])
      (halted .memoryFault 3 .permanentError 4) = true ∧
    afterWith { Config.params with misalignedPolicy := .fault } (machine [0x8200, 0x0003]) (shows .t0 3 false 4) = true := by
  decide

/-- BYTE_LOAD_EXTENSION = zero (R400). -/
theorem test_parameter_byteExtension :
    afterWith { Config.params with byteExtension := .zero } (withWords (machine [0x8200, 0x0010]) [(16, 0x8000)])
      (shows .t0 0x0080 false 4) = true := by decide

/-- SHIFT_OUT_OF_RANGE = draw: a shift by -1 draws its result, a shift by 31 does not (R251). -/
theorem test_parameter_shiftPolicy :
    afterWith { Config.params with shiftPolicy := .draw } (machine [0x1F08, 0xFFFF]) (fun t => decide (t.shiftDraws = 1)) =
      true ∧
    afterWith { Config.params with shiftPolicy := .draw } (withRegs (machine [0x1F08, 31]) [(.t0, 1)])
      (fun t => decide (t.shiftDraws = 0 ∧ t.read .t0 = 0)) = true := by decide

/-- ENCODING_MAP: under a map that reads every word as a `nop`, 0xA000 is one (R7). -/
theorem test_parameter_encodingMap :
    afterWith { Config.params with encoding := { EncodingMap.spec with decode := fun _ _ => .ok .nop } } (machine [0xA000])
      (fun t => decide (t.status = .executing ∧ t.read .pc = 2)) = true := by decide

/-- A SYSCALL_MAP with numbers of its own. -/
def otherMap : SyscallMap where
  service k := if k = 5 then some .exit else if k = 6 then some (.host .sleep) else if k = 7 then some (.host .printf) else none
  printfFormatReg := .a1
  copyArgs a := { src := s16 a.a0, dst := s16 a.a1, len := a.a2.toNat }
  spriteIndex a := s16 a.a0

/-- SYSCALL_MAP: the selectors of `exit`, `sleep` and the formatted print, and a selector with no service (R7, R520). -/
theorem test_parameter_syscalls :
    afterWith { Config.params with syscalls := otherMap } (machine [0x0105]) (fun t => decide (t.status = .finished)) = true ∧
    afterWith { Config.params with syscalls := otherMap } (machine [0x0106]) (fun t => decide (t.status = .executing)) = true ∧
    afterWith { Config.params with syscalls := otherMap } (withRegs (machine [0x0107, 0x2564]) [(.a1, 2)])
      (halted .serviceError 7 .permanentError 2) = true ∧
    afterWith { Config.params with syscalls := otherMap } (machine [0x0100]) (halted .illegalInstruction 0x0100 .defect 2) =
      true := by decide

/-! ### Effect classes -/

/-- R520: "random; RV", "framebuffer", "console; RV or A0", "memory read; RV"; R522, R527: what names no register, and a sprite
draw outside the loaded sprites. -/
theorem test_effect_classes :
    let asked : List HostAction := [.read 0 .byte, .write 0 .byte 1, .setReg .a0 1, .setReg .a1 2, .setReg .rv 3]
    let held (h : HostService) (loaded : Bool) := heldTo (serviceEffects h loaded) .allow (.values asked)
    held .rnd true = .values [.setReg .rv 3] ∧ held .fbrect true = .values (asked.drop 2) ∧ held .sleep true = .values [] ∧
    held .rchr true = .values [.setReg .a0 1, .setReg .rv 3] ∧ held .atoi true = .values [.read 0 .byte, .setReg .rv 3] ∧
    held .wstr true = .values asked ∧ held .drawimg true = .values (asked.drop 2) ∧ held .drawimg false = .values asked := by
  decide

/-- R503, R507: a MemoryFault is at an address whose check fails, of a service that accesses memory. -/
theorem test_effect_faults :
    heldTo (serviceEffects .rfile true) .allow (.memoryFault 4096) = .memoryFault 4096 ∧
    heldTo (serviceEffects .rfile true) .allow (.memoryFault 20) = .values [] ∧
    heldTo (serviceEffects .rfile true) .fault (.memoryFault 21) = .memoryFault 21 ∧
    heldTo (serviceEffects .timer true) .allow (.memoryFault 4096) = .values [] ∧
    heldTo (serviceEffects .rfile true) .allow .serviceError = .values [] ∧
    heldTo (serviceEffects .drawimg false) .allow .serviceError = .serviceError := by
  decide

/-! ### The raw memory copy -/

/-- R524: the host's steps, those outside the copy left out, then each byte read and written. -/
theorem test_copy_accesses :
    copyAccesses { src := 8, dst := 20, len := 2 } [.check 1, .read 1, .read 7, .setReg .rv 9, .write 1]
        (fun i => BitVec.ofNat 8 (i + 5)) =
      [.read 21 .byte, .read 9 .byte, .setReg .rv 9, .read 9 .byte, .write 21 .byte 6,
        .read 8 .byte, .write 20 .byte 5, .read 9 .byte, .write 21 .byte 6] := by
  decide

/-! ### Load, and the interface of the host -/

/-- A container of one instruction and one data byte (R600 to R604). -/
def small : Container := { format := "Orc1", code := [4, 3], data := [-1], sprites := [] }

/-- R55: CB = code_len - 1, DB = code_len + data_len - 1, BP = DB + 1, IR the word at 0, READY. -/
theorem test_load :
    (loadedState small none).cb = 1 ∧ (loadedState small none).db = 2 ∧ (loadedState small none).read .bp = 3 ∧
    (loadedState small none).read .sp = 4096 ∧ (loadedState small none).ir = 0x0403 ∧
    (loadedState small none).mem = [(0, 4), (1, 3), (2, 0xFF)] ∧ (loadedState small none).status = .ready := by
  decide

/-- R601: an image of 4097 bytes, a wrong tag. -/
theorem test_load_refuses :
    load { small with format := "Orc2" } none = .refused .badFormat ∧
    load { small with code := List.replicate 4096 0 } none = .refused .oversized := by
  decide +kernel

/-- V1, loaded and started: T0 = 3, PC = 2, EXECUTING. -/
theorem test_started_program_runs : after (loadedState small none).startOfRun (shows .t0 3 false 2) = true := by decide

/-- A word placed as the host places it is the next instruction (L8's word, table numbering). -/
theorem test_withFetchWord : after (State.reset.withFetchWord 32 0x00078800) (shows .t0 7 false 4) = true := by decide

/-! ### The assembler -/

/-- The code bytes a source assembles to. -/
def codeOf (src : String) : Option (List Byte) :=
  match assemble src.toList with
  | .ok o => some o.code
  | .error _ => none

/-- V2. -/
theorem test_assemble_addi : codeOf "addi t0 10" = some [0x1F, 0x00, 0x00, 0x0A] := by decide +kernel

/-- V5: the data label lies after the code. -/
theorem test_assemble_data_label :
    codeOf ".data\nfoo:\n.int 0\n.text\nla t0 foo" = some [0x89, 0x00, 0x00, 0x04] := by
  decide +kernel

/-- V9: a reference before and one after the definition. -/
theorem test_assemble_labels : codeOf "j l\nl: j l" = some [0xC0, 0x02, 0xC0, 0x02] := by decide +kernel

/-- A register in the place of a constant is an error (R136, R141). -/
theorem test_assemble_refuses : codeOf "seti t0 t1" = none ∧ codeOf "seti t0 16" = none := by decide +kernel

/-- R136, R520: a service name is its selector, under the default SYSCALL_MAP and under another. -/
theorem test_assemble_services :
    codeOf "sys exit" = some [0x01, 0x00] ∧ codeOf "sys error" = some [0x01, 0xFF] ∧
    ((assemble "sys printf".toList { Config.params with syscalls := otherMap }).toOption.map AsmObject.code) =
      some [0x01, 0x07] := by
  decide +kernel

/-- R134, R142: the sprites of the container are those its `.image` items import, in order; none if one cannot be read. -/
theorem test_link_imports :
    ((assemble ".data\n.image \"a\"\n.image \"b\"".toList).toOption.map fun o =>
      ((o.link fun name => if name = [0x62] then some { width := 0, height := 2, mask := #v[], colors := #v[] }
          else some { width := 0, height := 1, mask := #v[], colors := #v[] }).map fun c =>
        (c.data, c.sprites.map Sprite.height), (o.link fun _ => none).isNone)) =
      some (some ([0, 0, 0, 1], [1, 2]), true) := by
  decide +kernel

/-! ### Witnesses: the hypotheses of each statement, met -/

/-- A machine whose stack register, and `t0`, hold a value. -/
def spAt (v : Word) : State := withRegs (machine [0x0FFF]) [(.sp, v), (.t0, v)]

/-- A machine whose next instruction is a word at an address. -/
def fetching (pc : Word) (a : Nat) (v : Word) : State := withRegs (withWords (machine []) [(a, v)]) [(.pc, pc)]

theorem witness_DecodeOfEncode : (Instr.jr .pc).wellFormed = true ∧ (Instr.addi .t0 10).wellFormed = true := by decide

theorem witness_EncodeOfDecode : decode 0x1C05 9 = .ok (.not .t0) ∧ decode 0x8801 9 = .ok (.li .t0 9) := by decide

/-- One word of each line of R125, at the ends of its ranges; IR of the machine holds it. -/
theorem witness_ReservedWords :
    ({ machine [] with ir := 0xA000 } : State).ir.extractLsb' 12 4 = 0xA ∧
    ({ machine [] with ir := 0x0500 } : State).ir.extractLsb' 8 8 = 0x05 ∧
    ({ machine [] with ir := 0x1F0C } : State).ir.extractLsb' 0 4 = 0xC ∧
    ({ machine [] with ir := 0x27FD } : State).ir.extractLsb' 4 4 = 0xF := by
  decide

theorem witness_StepRunsDecoded_single :
    (fetching 0 0 0x0FFF).status = .executing ∧ wordFits (fetching 0 0 0x0FFF).ia ∧
    doubleWord (fetching 0 0 0x0FFF).firstWord = false ∧ decode (fetching 0 0 0x0FFF).firstWord 0 = .ok .nop ∧
    wordFits (fetching 4094 4094 0x0FFF).ia ∧ decode (fetching 4094 4094 0x0FFF).firstWord 0 = .ok .nop := by
  decide

theorem witness_StepRunsDecoded_double :
    (fetching 4092 4092 0x8800).status = .executing ∧ wordFits (fetching 4092 4092 0x8800).ia ∧
    doubleWord (fetching 4092 4092 0x8800).firstWord = true ∧ wordFits ((fetching 4092 4092 0x8800).ia + 2) ∧
    decode (fetching 4092 4092 0x8800).firstWord (fetching 4092 4092 0x8800).secondWord = .ok (.li .t0 0) := by
  decide

theorem witness_FetchFaults_first :
    (fetching 4095 0 0).status = .executing ∧ ¬ wordFits (fetching 4095 0 0).ia ∧ ¬ wordFits (fetching 0xFFFF 0 0).ia := by
  decide

theorem witness_FetchFaults_second :
    wordFits (fetching 4094 4094 0x1F00).ia ∧ doubleWord (fetching 4094 4094 0x1F00).firstWord = true ∧
    ¬ wordFits ((fetching 4094 4094 0x1F00).ia + 2) ∧ wordFits (fetching 4093 4093 0x1F00).ia ∧
    ¬ wordFits ((fetching 4093 4093 0x1F00).ia + 2) := by
  decide

theorem witness_FetchFaults_illegal :
    (fetching 4094 4094 0x8A00).fetchFits ∧ ∃ e, decode (fetching 4094 4094 0x8A00).firstWord
      (fetching 4094 4094 0x8A00).fetched.dr = .illegal e :=
  ⟨⟨by decide, by decide⟩, .reservedLoad, by decide⟩

/-- The three clauses: a failed first fetch, a failed second fetch, a fault after the fetch. -/
theorem witness_PcAfterFault :
    (∃ t, step (fetching 4096 0 0) = .next t ∧ t.failed ∧ ¬ wordFits (fetching 4096 0 0).ia) ∧
    (∃ t, step (fetching 4094 4094 0x1F00) = .next t ∧ t.failed ∧ wordFits (fetching 4094 4094 0x1F00).ia ∧
      ¬ (fetching 4094 4094 0x1F00).fetchFits) ∧
    (∃ t, step (fetching 0 0 0x1301) = .next t ∧ t.failed ∧ (fetching 0 0 0x1301).fetchFits) :=
  ⟨⟨_, rfl, .inl (by decide), by decide⟩,
    ⟨_, rfl, .inl (by decide), by decide, fun h => absurd (h.2 (by decide)) (by decide)⟩,
    ⟨_, rfl, .inl (by decide), by decide, by decide⟩⟩

/-- A started machine with the invariant, and a halted one. -/
theorem witness_StepKeepsInvariant : (machine [0x1301]).Inv :=
  ⟨by decide, fun _ _ => BitVec.getLsbD_zero, by decide, by decide, by decide,
    fun h => h.elim (absurd · (by decide)) (absurd · (by decide))⟩

theorem witness_StatusTransitions :
    (machine [0x0FFF]).status = .executing ∧ after (machine [0x0FFF]) (fun t => decide (t.status = .executing)) = true ∧
    after (machine [0x0100]) (fun t => decide (t.status = .finished)) = true ∧
    after (machine [0x1301]) (fun t => decide (t.status = .permanentError)) = true ∧
    after (machine [0xA000]) (fun t => decide (t.status = .defect)) = true := by
  decide

theorem witness_TestBitWriters : writesTest (.inc .t0 1) = false ∧ writesTest .ret = false := by decide

theorem witness_TestBitReaders : readsTest (.j 4) = false ∧ readsTest (.add .t0 .t0) = false := by decide

theorem witness_DivMod :
    (spAt 1).read .t0 ≠ 0 ∧ (spAt 0xFFFF).read .t0 ≠ 0 ∧ (spAt 0).read .t0 = 0 ∧ (1 : Word) ≠ 0 ∧ (0 : Word) = 0 := by
  decide

/-- One input for each branch, the counts at the ends of their ranges. -/
theorem witness_AluFunction :
    dividesByZero .div 0 = true ∧ dividesByZero .shl 0 = false ∧ s16 0xFFFF < 0 ∧ 32 ≤ s16 (32 : Word) ∧
    ¬ (s16 (31 : Word) < 0 ∨ 32 ≤ s16 (31 : Word)) ∧ ¬ (s16 (0 : Word) < 0 ∨ 32 ≤ s16 (0 : Word)) := by
  decide

theorem witness_PushStores :
    (spAt 2).mem.wf = true ∧ wordFits (s16 ((spAt 2).read .sp - 2)) ∧ (spAt 4096).mem.wf = true ∧
    wordFits (s16 ((spAt 4096).read .sp - 2)) ∧ (spAt 0).mem.wf = true ∧ ¬ wordFits (s16 ((spAt 0).read .sp - 2)) ∧
    ¬ wordFits (s16 ((spAt 4097).read .sp - 2)) := by
  decide

theorem witness_PopLoads :
    wordFits (s16 ((spAt 0).read .sp)) ∧ wordFits (s16 ((spAt 4094).read .sp)) ∧ ¬ wordFits (s16 ((spAt 4095).read .sp)) ∧
    ¬ wordFits (s16 ((spAt 0xFFFF).read .sp)) ∧ Reg.sp ≠ Reg.t0 := by
  decide

/-- The read fits and the push does and does not; the read does not fit. -/
theorem witness_DupOverPush :
    (spAt 2).mem.wf = true ∧ wordFits (s16 ((spAt 2).read .sp)) ∧ wordFits (s16 ((spAt 2).read .sp - 2)) ∧
    wordFits (s16 ((spAt 0).read .sp)) ∧ ¬ wordFits (s16 ((spAt 0).read .sp - 2)) ∧ wordFits (s16 ((spAt 4094).read .sp)) ∧
    ¬ wordFits (s16 ((spAt 4095).read .sp)) ∧ wordFits (s16 ((spAt 4092).read .sp) + 2) ∧
    wordFits (s16 ((spAt 0xFFFE).read .sp) + 2) ∧ ¬ wordFits (s16 ((spAt 0xFFFE).read .sp - 2)) ∧
    ¬ wordFits (s16 ((spAt 4093).read .sp) + 2) := by
  decide

theorem witness_SwapExchanges :
    (spAt 4092).mem.wf = true ∧ wordFits (s16 ((spAt 4092).read .sp)) ∧ wordFits (s16 ((spAt 4092).read .sp) + 2) ∧
    wordFits (s16 ((spAt 0).read .sp)) ∧ wordFits (s16 ((spAt 0).read .sp) + 2) ∧ ¬ wordFits (s16 ((spAt 4096).read .sp)) ∧
    ¬ wordFits (s16 ((spAt 0xFFFF).read .sp)) ∧ wordFits (s16 ((spAt 4093).read .sp)) ∧
    ¬ wordFits (s16 ((spAt 4093).read .sp) + 2) := by
  decide

theorem witness_RotRotates :
    (spAt 4090).mem.wf = true ∧ wordFits (s16 ((spAt 4090).read .sp)) ∧ wordFits (s16 ((spAt 4090).read .sp) + 2) ∧
    wordFits (s16 ((spAt 4090).read .sp) + 4) ∧ ¬ wordFits (s16 ((spAt 4095).read .sp)) ∧
    wordFits (s16 ((spAt 4094).read .sp)) ∧ ¬ wordFits (s16 ((spAt 4094).read .sp) + 2) ∧
    wordFits (s16 ((spAt 4091).read .sp)) ∧ wordFits (s16 ((spAt 4091).read .sp) + 2) ∧
    ¬ wordFits (s16 ((spAt 4091).read .sp) + 4) := by
  decide

theorem witness_RotThrice :
    (spAt 4090).mem.wf = true ∧ wordFits (s16 ((spAt 4090).read .sp)) ∧ wordFits (s16 ((spAt 4090).read .sp) + 4) := by
  decide

theorem witness_PushThenPop :
    (spAt 4096).mem.wf = true ∧ Reg.t1 ≠ Reg.sp ∧ wordFits (s16 ((spAt 4096).read .sp - 2)) ∧
    wordFits (s16 ((spAt 2).read .sp - 2)) := by
  decide

/-- `sub` with both items; `div` with a zero on the top; the reads that do not fit. -/
theorem witness_SopBinary :
    AluOp.sub.unary = false ∧ AluOp.div.unary = false ∧ (spAt 4092).mem.wf = true ∧ wordFits (s16 ((spAt 4092).read .sp)) ∧
    wordFits (s16 ((spAt 4092).read .sp) + 2) ∧
    dividesByZero .sub ((spAt 4092).mem.readWord (s16 ((spAt 4092).read .sp)).toNat) = false ∧
    dividesByZero .div ((spAt 4092).mem.readWord (s16 ((spAt 4092).read .sp)).toNat) = true ∧
    ¬ wordFits (s16 ((spAt 4096).read .sp)) ∧ wordFits (s16 ((spAt 4094).read .sp)) ∧
    ¬ wordFits (s16 ((spAt 4094).read .sp) + 2) := by
  decide

theorem witness_SopUnary :
    AluOp.neg.unary = true ∧ (spAt 4094).mem.wf = true ∧ wordFits (s16 ((spAt 4094).read .sp)) ∧
    ¬ wordFits (s16 ((spAt 4095).read .sp)) ∧ wordFits (s16 ((spAt 0).read .sp)) := by
  decide

/-- The addresses of `WordLoads` and `WordStores`: base register `t0`, offset register `t1` = 0, or the second word. -/
theorem witness_WordLoads_WordStores :
    (spAt 0).mem.wf = true ∧ wordFits (s16 ((spAt 0).read .t0) + s16 ((spAt 0).read .t1)) ∧
    wordFits (s16 ((spAt 4094).read .t0) + s16 ((spAt 4094).read .t1)) ∧
    ¬ wordFits (s16 ((spAt 4095).read .t0) + s16 ((spAt 4095).read .t1)) ∧
    ¬ wordFits (s16 ((spAt 0xFFFF).read .t0) + s16 ((spAt 0xFFFF).read .t1)) ∧ wordFits (s16 0x0FFE) ∧ wordFits (s16 0) ∧
    ¬ wordFits (s16 0x0FFF) ∧ ¬ wordFits (s16 0xFFFF) ∧ wordFits (s16 0xFFFF + s16 ((spAt 1).read .t0)) ∧
    ¬ wordFits (s16 0x0FFE + s16 ((spAt 1).read .t0)) := by
  decide

/-- The addresses of `ByteLoads` and `ByteStores`, likewise. -/
theorem witness_ByteLoads_ByteStores :
    (spAt 0).mem.wf = true ∧ byteFits (s16 ((spAt 0).read .t0) + s16 ((spAt 0).read .t1)) ∧
    byteFits (s16 ((spAt 4095).read .t0) + s16 ((spAt 4095).read .t1)) ∧
    ¬ byteFits (s16 ((spAt 4096).read .t0) + s16 ((spAt 4096).read .t1)) ∧
    ¬ byteFits (s16 ((spAt 0xFFFF).read .t0) + s16 ((spAt 0xFFFF).read .t1)) ∧ byteFits (s16 0x0FFF) ∧ byteFits (s16 0) ∧
    ¬ byteFits (s16 0x1000) ∧ ¬ byteFits (s16 0xFFFF) ∧ byteFits (s16 0xFFFF + s16 ((spAt 1).read .t0)) ∧
    ¬ byteFits (s16 0x0FFF + s16 ((spAt 1).read .t0)) := by
  decide

theorem witness_RegisterJumps : Reg.pc ≠ Reg.ra ∧ Reg.t0 ≠ Reg.ra := by decide

/-- A machine with A0 at an address and a word stored near it. -/
def message (a0 : Word) (a : Nat) (v : Word) : State := withRegs (withWords (machine []) [(a, v)]) [(.a0, a0)]

/-- A message of one byte (M6), and an empty one at the last byte. -/
theorem witness_ErrorService_reads :
    (0 ≤ s16 ((message 20 20 0x6800).read .a0) ∧ s16 ((message 20 20 0x6800).read .a0) + (1 : Nat) ≤ 4095 ∧
      (∀ i < 1, (message 20 20 0x6800).mem.readByte ((s16 ((message 20 20 0x6800).read .a0)).toNat + i) ≠ 0) ∧
      (message 20 20 0x6800).mem.readByte ((s16 ((message 20 20 0x6800).read .a0)).toNat + 1) = 0) ∧
    s16 ((message 4095 0 0).read .a0) + (0 : Nat) ≤ 4095 ∧
    (message 4095 0 0).mem.readByte ((s16 ((message 4095 0 0).read .a0)).toNat + 0) = 0 := by
  decide

/-- An address outside memory, and a message with no end. -/
theorem witness_ErrorService_faults :
    ¬ byteFits (s16 ((message 4096 0 0).read .a0)) ∧ ¬ byteFits (s16 ((message 0xFFFF 0 0).read .a0)) ∧
    byteFits (s16 ((message 4095 4094 1).read .a0)) ∧
    ∀ a : Nat, (s16 ((message 4095 4094 1).read .a0)).toNat ≤ a → a ≤ 4095 →
      (message 4095 4094 1).mem.readByte a ≠ 0 := by
  refine ⟨by decide, by decide, by decide, fun a h1 h2 => ?_⟩
  have h : (s16 ((message 4095 4094 1).read .a0)).toNat = 4095 := by decide
  obtain rfl : a = 4095 := by omega
  decide

/-- Words stored, and an address in whichever register holds the address of the format. -/
def printing (a : Word) (ws : List (Nat × Word)) : State :=
  withRegs (withWords (machine []) ws) [(.a0, a), (.a1, a), (.a2, a), (.a3, a), (.rv, a)]

theorem printing_address (a : Word) (ws : List (Nat × Word)) :
    (printing a ws).read (serviceReg Config.printfFormatReg) = a := by
  generalize Config.printfFormatReg = r
  cases r <;> rfl

/-- "% %d" at 20, and "%s" in the last two bytes of memory. -/
theorem witness_FormatSpecifiers_raises :
    (let s := printing 20 [(20, 0x2520), (22, 0x2564)]
     let a := s16 (s.read (serviceReg Config.printfFormatReg))
     let char (i : Nat) : Byte := s.mem.readByte (a.toNat + i)
     0 ≤ a ∧ a + (2 : Nat) + 1 ≤ 4095 ∧
       (∀ i < 2, char i ≠ 0 ∧ (char i = 0x25 → char (i + 1) ∉ [(0x25 : Byte), 0x64, 0x63, 0x73])) ∧ char 2 = 0x25 ∧
       char (2 + 1) ∈ [(0x64 : Byte), 0x63, 0x73]) ∧
    (let s := printing 4094 [(4094, 0x2573)]
     let a := s16 (s.read (serviceReg Config.printfFormatReg))
     a + (0 : Nat) + 1 ≤ 4095 ∧ s.mem.readByte (a.toNat + 0) = 0x25 ∧
       s.mem.readByte (a.toNat + (0 + 1)) ∈ [(0x64 : Byte), 0x63, 0x73]) := by
  simp only [printing_address]
  decide

/-- "% %" at 20, an empty format at the last byte of memory, and a format at 4096. -/
theorem witness_FormatSpecifiers_passes :
    (let s := printing 20 [(20, 0x2520), (22, 0x2500)]
     let a := s16 (s.read (serviceReg Config.printfFormatReg))
     let char (i : Nat) : Byte := s.mem.readByte (a.toNat + i)
     0 ≤ a ∧ a + (3 : Nat) ≤ 4095 ∧
       (∀ i < 3, char i ≠ 0 ∧ (char i = 0x25 → char (i + 1) ∉ [(0x25 : Byte), 0x64, 0x63, 0x73])) ∧ char 3 = 0) ∧
    (let s := printing 4095 []
     let a := s16 (s.read (serviceReg Config.printfFormatReg))
     a + (0 : Nat) ≤ 4095 ∧ s.mem.readByte (a.toNat + 0) = 0) ∧
    ¬ byteFits (s16 ((printing 4096 []).read (serviceReg Config.printfFormatReg))) := by
  simp only [printing_address]
  decide

/-- Requests that pass their checks at the ends of memory, and one that fails; services other than the raw memory copy;
answers of their classes. -/
theorem witness_HostRequestsInOrder :
    (∀ x ∈ [HostAction.read 0 .byte, .write 4095 .byte 1, .read 4094 .word, .setReg .rv 7], hostFaultAt x = none) ∧
    hostFaultAt (.write 4095 .word 1) = some 4095 ∧ hostFaultAt (.read (-1) .byte) = some (-1) ∧
    HostService.rnd ≠ .memcopy ∧ HostService.sleep ≠ .memcopy ∧
    (∀ x ∈ [HostAction.read 0 .byte, .write 4096 .byte 1, .setReg .rv 7], (serviceEffects .rfile true).permits x = true) ∧
    (∀ x ∈ [HostAction.setReg .rv 7], (serviceEffects .rnd true).permits x = true) ∧
    ((serviceEffects .atoi true).reads = true ∨ (serviceEffects .atoi true).writes = true) ∧ ¬ wordFits 4095 ∧ ¬ wordFits (-1) ∧
    (∀ a, HostAnswer.serviceError = .memoryFault a → ¬ wordFits a) := by
  refine ⟨by decide, by decide, by decide, by decide, by decide, by decide, by decide, by decide, by decide, by decide, ?_⟩
  exact fun _ h => nomatch h

/-- Copies that fit up to the ends of memory, apart and adjacent and overlapping, and copies that do not fit. -/
theorem witness_HostRequestsInOrder_copy :
    (machine []).mem.wf = true ∧ copyFits { src := 0, dst := 4092, len := 4 } ∧
    copyDisjoint { src := 0, dst := 4092, len := 4 } ∧ copyDisjoint { src := 4, dst := 0, len := 4 } ∧
    ¬ copyDisjoint { src := 0, dst := 3, len := 4 } ∧ ¬ copyFits { src := 4093, dst := 0, len := 4 } ∧
    ¬ copyFits { src := 0, dst := -1, len := 1 } := by
  simp only [copyFits, copyDisjoint]
  decide

/-- Out of range under any parameters, a word at an odd address under MISALIGNED_POLICY = fault, and under allow. -/
theorem witness_BusRangeCheck :
    (BusRequest.fetch (-1)).addr < 0 ∧
    (BusRequest.fetch 4095).addr + accessBytes (BusRequest.fetch 4095).width - 1 > 4095 ∧
    (BusRequest.read 4096 .byte).addr + accessBytes (BusRequest.read 4096 .byte).width - 1 > 4095 ∧
    ({ Config.params with misalignedPolicy := .fault } : Params).misalignedPolicy = .fault ∧
    (BusRequest.read 3 .word).width = .word ∧ (BusRequest.read 3 .word).addr % 2 ≠ 0 ∧ wordFits 3 ∧ wordFits 4094 ∧
    wordFits 0 := by
  decide

theorem witness_BigEndianWords : Memory.wf [(4095, 1)] = true ∧ 4094 ≤ 4094 ∧ 0 ≤ 4094 := by decide

theorem witness_StartOfRun : State.reset.status = .ready ∧ (machine []).status ≠ .ready := by decide

theorem witness_HaltStands : State.reset.status ≠ .executing := by decide

/-- Inside a pulse, and at its end. -/
theorem witness_HostStopBetweenPulses :
    (machine []).status = .executing ∧ (machine []).pulse < Config.pulseCycles ∧
    ¬ ({ machine [] with pulse := Config.pulseCycles } : State).pulse < Config.pulseCycles :=
  ⟨by decide, Nat.succ_pos _, Nat.lt_irrefl _⟩

theorem witness_RunKeepsInvariant : (machine [0x0FFF]).Inv ∧ (machine [0x0FFF]).pulse ≤ Config.pulseCycles :=
  ⟨⟨by decide, fun _ _ => BitVec.getLsbD_zero, by decide, by decide, by decide,
    fun h => h.elim (absurd · (by decide)) (absurd · (by decide))⟩, Nat.zero_le _⟩

theorem witness_LoadedState :
    load small none = .machine (loadedState small none) ∧
    load small none { Config.params with initialSp := 4092 } =
      .machine (loadedState small none { Config.params with initialSp := 4092 }) := by
  decide

theorem witness_LoadMeetsInvariant : load small (some [1]) = .machine (loadedState small (some [1])) := rfl

theorem witness_PatchRewritesAddressBits : 4095 < 4096 ∧ (4095 : Target).toNat = 4095 := by decide

end Sys2Proof.Tests
end

section
/-! SUPPORT. Reading a word of type MISC or LOAD, what an instruction that only writes a register does, the 4-bit constants
as words, and the omitted count of the assembler. -/

namespace Sys2Proof.Machine

/-! ### Words of type MISC and LOAD -/

/-- With the default STRICT_UNUSED_FIELDS, unused fields are ignored (R126). -/
theorem decode_eq_decodeLenient (w dr : Word) : decode w dr = decodeLenient w dr := rfl

/-- A word of type 0x0 is read by the MISC table, whatever the word after it (R104 to R107). -/
theorem decode_of_typeOf_misc {w : Word} (h : typeOf w = 0x0) (dr : Word) : decode w dr = decodeMisc w := by
  simp [decode_eq_decodeLenient, decodeLenient, h]

/-- A word of type 0x8 is read by the LOAD table (R115). -/
theorem decode_of_typeOf_load {w : Word} (h : typeOf w = 0x8) (dr : Word) : decode w dr = decodeLoad w dr := by
  simp [decode_eq_decodeLenient, decodeLenient, h]

/-- MISC instructions are single words (R102). -/
theorem doubleWord_of_typeOf_misc {w : Word} (h : typeOf w = 0x0) : doubleWord w = false := by
  simp [doubleWord, h]

/-- LOAD instructions up to opcode 9 are double words (R102). -/
theorem doubleWord_of_typeOf_load {w : Word} (h : typeOf w = 0x8) (hop : (opOf w).toNat ≤ 9) : doubleWord w = true := by
  simp [doubleWord, h, hop]

/-- An entry of the MISC table that the encoder agrees with. -/
theorem encodes_misc {i : Instr} {w : Word} (ht : typeOf w = 0x0) (he : encode i = [w]) (hd : decodeMisc w = .ok i) :
    Encodes i w :=
  ⟨he, doubleWord_of_typeOf_misc ht, fun dr => (decode_of_typeOf_misc ht dr).trans hd⟩

/-- An entry of the LOAD table that the encoder agrees with. -/
theorem encodesPair_load {i : Instr} {w w2 : Word} (ht : typeOf w = 0x8) (hop : (opOf w).toNat ≤ 9)
    (he : encode i = [w, w2]) (hd : decodeLoad w w2 = .ok i) : EncodesPair i w w2 :=
  ⟨he, doubleWord_of_typeOf_load ht hop, (decode_of_typeOf_load ht w2).trans hd⟩

theorem encodes_mov (d r : Reg) : Encodes (.mov d r) (nibbles 0x0 0x0 d.toNib r.toNib) :=
  encodes_misc (by simp) rfl (by simp [decodeMisc])

theorem encodes_inc (r : Reg) (n : Nib) : Encodes (.inc r n) (nibbles 0x0 0x2 r.toNib n) :=
  encodes_misc (by simp) rfl (by simp [decodeMisc])

theorem encodes_dec (r : Reg) (n : Nib) : Encodes (.dec r n) (nibbles 0x0 0x3 r.toNib n) :=
  encodes_misc (by simp) rfl (by simp [decodeMisc])

theorem encodes_seti (r : Reg) (n : Nib) : Encodes (.seti r n) (nibbles 0x0 0x4 r.toNib n) :=
  encodes_misc (by simp) rfl (by simp [decodeMisc])

theorem encodesPair_li (t : Reg) (w : Word) : EncodesPair (.li t w) (nibbles 0x8 0x8 t.toNib 0) w :=
  encodesPair_load (by simp) (by simp) rfl (by simp [decodeLoad])

/-- Both operand fields of `nop` are ignored (R107). -/
theorem decodeMisc_nop (x y : Nib) : decodeMisc (nibbles 0x0 0xF x y) = .ok .nop := by
  simp [decodeMisc]

theorem encodes_nop : Encodes .nop 0x0FFF :=
  encodes_misc rfl rfl (decodeMisc_nop 0xF 0xF)

/-! ### Instructions that only write a register -/

/-- An instruction whose whole effect is a write of `d` leaves the value there and changes nothing else; `d` may be `pc`. -/
theorem sets_of_exec_write {i : Instr} {d : Reg} {v : State → Word} (h : ∀ s, exec i s = .next (s.write d (v s))) :
    Sets i d v := by
  intro s
  rw [h s]
  have hread : (s.write d (v s)).read d = v s := by simp
  exact Ends.next ⟨hread, unchanged_write s d (v s)⟩

/-! ### 4-bit constants as words -/

/-- A 4-bit constant is zero-extended (R118). -/
theorem ofInt_zext4 (n : Nib) : BitVec.ofInt 16 (zext4 n) = n.setWidth 16 := by
  simp [zext4, BitVec.ofInt_natCast, BitVec.ofNat_toNat]

/-- `inc` is a wrapping addition of the zero-extended constant (R203). -/
theorem exec_inc_write (r : Reg) (n : Nib) (s : State) :
    exec (.inc r n) s = .next (s.write r (s.read r + n.setWidth 16)) := by
  rw [exec_inc, State.bump_eq, trunc16_add, ofInt_zext4]

/-- `dec` is a wrapping subtraction of the zero-extended constant (R204). -/
theorem exec_dec_write (r : Reg) (n : Nib) (s : State) :
    exec (.dec r n) s = .next (s.write r (s.read r - n.setWidth 16)) := by
  rw [exec_dec, State.bump_eq, trunc16_add, BitVec.ofInt_neg, ofInt_zext4, BitVec.sub_eq_add_neg]

/-- `seti` writes the zero-extended constant (R205). -/
theorem exec_seti_write (r : Reg) (n : Nib) (s : State) : exec (.seti r n) s = .next (s.write r (n.setWidth 16)) := by
  rw [exec_seti, trunc16, ofInt_zext4]

/-! ### The omitted count -/

/-- A mnemonic with an optional count takes 1 for an omitted one (R139, R140). -/
theorem assembleLine_regCount_default {name : List Char} {f : Reg → Nib → Instr}
    (h : lookupName mnemonics name = some (.regCount f)) (o : Operand) (m : SyscallMap) :
    assembleLine name [o] m = assembleLine name [o, .num 1] m := by
  have hone : nibOperand (.num 1) = .ok 1 := rfl
  simp only [assembleLine, h, Form.arity, Form.build, hone]
  -- both sides now read the register operand and build with 1; binding `.ok 1` computes
  rfl

end Sys2Proof.Machine
end

section
/-! The obligations about MISC. -/

namespace Sys2Proof.Machine

/-- Settles O18: each of the three is one register write, of the value its rule names. -/
theorem registerLoads : Obligations.RegisterLoads := by
  unfold Obligations.RegisterLoads
  refine ⟨fun d r => ⟨encodes_mov d r, ?mov⟩, fun r n => ⟨encodes_seti r n, ?seti⟩, fun t w => ⟨encodesPair_li t w, ?li⟩⟩
  case mov => exact sets_of_exec_write (exec_mov d r)
  case seti => exact sets_of_exec_write (exec_seti_write r n)
  case li => exact sets_of_exec_write (exec_li t w)

/-- Settles O20: `inc` and `dec` are one register write each, the assembler's default comes from their common form, and
the MISC table reads `nop` from the opcode alone. -/
theorem countsAndNop : Obligations.CountsAndNop := by
  unfold Obligations.CountsAndNop
  refine ⟨fun r n => ⟨encodes_inc r n, ?inc⟩, fun r n => ⟨encodes_dec r n, ?dec⟩, fun o => ⟨?incDefault, ?decDefault⟩,
    encodes_nop, fun x y dr => ?nopWord, exec_nop⟩
  case inc => exact sets_of_exec_write (exec_inc_write r n)
  case dec => exact sets_of_exec_write (exec_dec_write r n)
  case incDefault => exact assembleLine_regCount_default (f := .inc) rfl o _
  case decDefault => exact assembleLine_regCount_default (f := .dec) rfl o _
  case nopWord => exact (decode_of_typeOf_misc (by simp) dr).trans (decodeMisc_nop x y)

end Sys2Proof.Machine
end

section
/-! SUPPORT. The ALU instructions at the level of their operation: the words of the register and the immediate form, the
ALU function in 16-bit terms, and what every ALU instruction with a nonzero divisor does to the state. -/

namespace Sys2Proof

/-! ### The instructions of an operation -/

/-- The register form of a two-operand ALU operation (R108). -/
def AluOp.binaryForm : AluOp → Option (Reg → Reg → Instr)
  | .add => some .add
  | .sub => some .sub
  | .mul => some .mul
  | .div => some .div
  | .mod => some .mod
  | .and => some .and
  | .or => some .or
  | .xor => some .xor
  | .shl => some .shl
  | .shr => some .shr
  | .min => some .min
  | .max => some .max
  | .not | .lnot | .neg => none

/-- The register form of a one-operand ALU operation (R109). -/
def AluOp.unaryForm : AluOp → Option (Reg → Instr)
  | .not => some .not
  | .lnot => some .lnot
  | .neg => some .neg
  | .add | .sub | .mul | .div | .mod | .and | .or | .xor | .shl | .shr | .min | .max => none

/-- The immediate form of a two-operand ALU operation (R110). -/
def AluOp.immediateForm : AluOp → Option (Reg → Word → Instr)
  | .add => some .addi
  | .sub => some .subi
  | .mul => some .muli
  | .div => some .divi
  | .mod => some .modi
  | .and => some .andi
  | .or => some .ori
  | .xor => some .xori
  | .shl => some .shli
  | .shr => some .shri
  | .min => some .mini
  | .max => some .maxi
  | .not | .lnot | .neg => none

/-! ### Shift counts -/

/-- A pattern is a count in [0, 15] in its signed reading exactly when it is one in its unsigned reading. -/
theorem s16_mem_shiftRange_iff (b : Word) : (0 ≤ s16 b ∧ s16 b ≤ 15) ↔ b.toNat ≤ 15 := by
  have hlt := b.isLt
  rw [s16, BitVec.toInt_eq_toNat_cond]
  split <;> omega

/-- A count in [0, 15] is the same number in both readings. -/
theorem toNat_s16_of_le {b : Word} (h : b.toNat ≤ 15) : (s16 b).toNat = b.toNat := by
  rw [s16, BitVec.toInt_eq_toNat_of_lt (by omega), Int.toNat_natCast]

/-- The saturated right shift is the sign in every bit (R251). -/
theorem trunc16_sign (a : Word) : trunc16 (if s16 a < 0 then -1 else 0) = if a.msb then 0xFFFF else 0 := by
  rw [BitVec.msb_eq_toInt, apply_ite trunc16]
  simp only [decide_eq_true_eq]
  rfl

end Sys2Proof

namespace Sys2Proof.Machine

/-! ### Words of type ALU -/

/-- A word of type 0x1 is read by the ALU table (R108 to R110). -/
theorem decode_of_typeOf_alu {w : Word} (h : typeOf w = 0x1) (dr : Word) : decode w dr = decodeAlu w dr := by
  simp [decode_eq_decodeLenient, decodeLenient, h]

/-- Of the ALU words those with opcode 0xF have a second word (R102). -/
theorem doubleWord_of_typeOf_alu {w : Word} (h : typeOf w = 0x1) : doubleWord w = decide ((opOf w).toNat = 15) := by
  simp [doubleWord, h]

/-- An entry of the ALU table, other than the immediate form, that the encoder agrees with. -/
theorem encodes_alu {i : Instr} {w : Word} (ht : typeOf w = 0x1) (hop : (opOf w).toNat ≠ 15) (he : encode i = [w])
    (hd : ∀ dr, decodeAlu w dr = .ok i) : Encodes i w :=
  ⟨he, by rw [doubleWord_of_typeOf_alu ht, decide_eq_false hop], fun dr => (decode_of_typeOf_alu ht dr).trans (hd dr)⟩

/-- An entry of the immediate form's table that the encoder agrees with (R110). -/
theorem encodesPair_alu {i : Instr} {d : Reg} {f : Nib} {w2 : Word} (he : encode i = [nibbles 0x1 0xF d.toNib f, w2])
    (hd : decodeAluImm d f w2 = .ok i) : EncodesPair i (nibbles 0x1 0xF d.toNib f) w2 := by
  have ht : typeOf (nibbles 0x1 0xF d.toNib f) = 0x1 := typeOf_nibbles ..
  have hdouble : doubleWord (nibbles 0x1 0xF d.toNib f) = true := by
    rw [doubleWord_of_typeOf_alu ht, opOf_nibbles]
    rfl
  refine ⟨he, hdouble, ?_⟩
  rw [decode_of_typeOf_alu ht]
  simpa [decodeAlu] using hd

theorem encodes_binaryForm {op : AluOp} {i : Reg → Reg → Instr} (h : op.binaryForm = some i) (d r : Reg) :
    Encodes (i d r) (nibbles 0x1 op.toNib d.toNib r.toNib) := by
  cases op <;> cases h <;> exact encodes_alu (by simp) (by simp [AluOp.toNib]) rfl (by simp [decodeAlu, AluOp.toNib])

theorem encodes_unaryForm {op : AluOp} {i : Reg → Instr} (h : op.unaryForm = some i) (d : Reg) :
    Encodes (i d) (nibbles 0x1 op.toNib d.toNib 0) := by
  cases op <;> cases h <;> exact encodes_alu (by simp) (by simp [AluOp.toNib]) rfl (by simp [decodeAlu, AluOp.toNib])

theorem encodesPair_immediateForm {op : AluOp} {i : Reg → Word → Instr} (h : op.immediateForm = some i) (d : Reg)
    (w : Word) : EncodesPair (i d w) (nibbles 0x1 0xF d.toNib op.toNib) w := by
  cases op <;> cases h <;> exact encodesPair_alu rfl rfl

/-! ### The meaning of a form is its operation -/

theorem exec_binaryForm {op : AluOp} {i : Reg → Reg → Instr} (h : op.binaryForm = some i) (d r : Reg) (s : State) :
    exec (i d r) s = s.aluInto op d (s16 (s.read r)) := by
  cases op <;> cases h <;> rfl

theorem exec_unaryForm {op : AluOp} {i : Reg → Instr} (h : op.unaryForm = some i) (d : Reg) (s : State) :
    exec (i d) s = s.aluInto op d (s16 0) := by
  cases op <;> cases h <;> rfl

theorem exec_immediateForm {op : AluOp} {i : Reg → Word → Instr} (h : op.immediateForm = some i) (d : Reg) (w : Word)
    (s : State) : exec (i d w) s = s.aluInto op d (s16 w) := by
  cases op <;> cases h <;> rfl

/-- A one-operand operation does not divide. -/
theorem dividesByZero_of_unaryForm {op : AluOp} {i : Reg → Instr} (h : op.unaryForm = some i) (b : Word) :
    dividesByZero op b = false := by
  cases op <;> cases h <;> rfl

/-! ### The ALU function in 16-bit terms -/

/-- A shift by a count outside [0, 15] saturates unless the policy leaves its result free (R251). -/
theorem shiftOut_of_not_free {p : ShiftPolicy} {k : Int} (h : p = .draw → 0 ≤ k ∧ k < 32) (z : Int) :
    shiftOut p k z = .value z := by
  refine if_neg fun ⟨hp, hk⟩ => ?_
  have := h hp
  omega

theorem alu_shl_value {p : ShiftPolicy} {b : Word} (h : p = .draw → 0 ≤ s16 b ∧ s16 b < 32) (a : Word) :
    ∃ z, alu p .shl (s16 a) (s16 b) = .value z ∧ trunc16 z = aluWord .shl a b := by
  simp only [alu, aluWord, s16_mem_shiftRange_iff, shiftOut_of_not_free h]
  by_cases hb : b.toNat ≤ 15
  · refine ⟨_, if_pos hb, ?_⟩
    rw [if_pos hb, toNat_s16_of_le hb, trunc16_shl]
  · refine ⟨_, if_neg hb, ?_⟩
    rw [if_neg hb]
    rfl

theorem alu_shr_value {p : ShiftPolicy} {b : Word} (h : p = .draw → 0 ≤ s16 b ∧ s16 b < 32) (a : Word) :
    ∃ z, alu p .shr (s16 a) (s16 b) = .value z ∧ trunc16 z = aluWord .shr a b := by
  simp only [alu, aluWord, s16_mem_shiftRange_iff, shiftOut_of_not_free h]
  by_cases hb : b.toNat ≤ 15
  · refine ⟨_, if_pos hb, ?_⟩
    rw [if_pos hb, toNat_s16_of_le hb, trunc16_shr]
  · refine ⟨_, if_neg hb, ?_⟩
    rw [if_neg hb, trunc16_sign]

/-- Choosing an operand by a comparison of integers is choosing its pattern by the signed comparison (R264, R265). -/
theorem trunc16_choose (a b x y : Word) :
    trunc16 (if s16 x ≤ s16 y then s16 a else s16 b) = if x.sle y then a else b := by
  simp only [BitVec.sle_iff_toInt_le, apply_ite trunc16, trunc16_s16]

/-- Unless it divides by zero or its result is free, the ALU function gives an integer whose low 16 bits are those of the
16-bit operation (R251). -/
theorem alu_value {p : ShiftPolicy} {op : AluOp} {b : Word} (hz : dividesByZero op b = false)
    (hfree : p = .draw → op = .shl ∨ op = .shr → 0 ≤ s16 b ∧ s16 b < 32) (a : Word) :
    ∃ z, alu p op (s16 a) (s16 b) = .value z ∧ trunc16 z = aluWord op a b := by
  cases op with
  | add => exact ⟨_, rfl, trunc16_sum a b⟩
  | sub => exact ⟨_, rfl, trunc16_sub a b⟩
  | mul => exact ⟨_, rfl, trunc16_mul a b⟩
  | div =>
    have hb : s16 b ≠ 0 := (s16_eq_zero b).not.mpr (of_decide_eq_false hz)
    exact ⟨_, if_neg hb, trunc16_tdiv a b⟩
  | mod =>
    have hb : s16 b ≠ 0 := (s16_eq_zero b).not.mpr (of_decide_eq_false hz)
    exact ⟨_, if_neg hb, trunc16_tmod a b⟩
  | and => exact ⟨_, rfl, by simp only [trunc16_s16, aluWord]⟩
  | or => exact ⟨_, rfl, by simp only [trunc16_s16, aluWord]⟩
  | xor => exact ⟨_, rfl, by simp only [trunc16_s16, aluWord]⟩
  | shl => exact alu_shl_value (fun hp => hfree hp (.inl rfl)) a
  | shr => exact alu_shr_value (fun hp => hfree hp (.inr rfl)) a
  | min => exact ⟨_, rfl, trunc16_choose a b a b⟩
  | max => exact ⟨_, rfl, trunc16_choose a b b a⟩
  | not => exact ⟨_, rfl, trunc16_not a⟩
  | lnot => exact ⟨_, rfl, by simp only [s16_eq_zero, apply_ite trunc16, aluWord]; rfl⟩
  | neg => exact ⟨_, rfl, trunc16_neg a⟩

/-! ### What an ALU instruction does -/

/-- An instruction whose meaning is an ALU operation with no zero divisor leaves the 16-bit result in its destination and
T = (result != 0), and changes nothing else (R250). -/
theorem setsWithTestAt_of_exec_aluInto {s : State} {i : Instr} {op : AluOp} {d : Reg} {b : Word}
    (hexec : exec i s = s.aluInto op d (s16 b)) (hz : dividesByZero op b = false) :
    SetsWithTestAt s i d (aluWord op (s.read d) b) := by
  obtain ⟨z, halu, hword⟩ := alu_value (p := Config.shiftPolicy) hz nofun (s.read d)
  unfold SetsWithTestAt
  rw [hexec, State.aluInto_value halu, hword]
  exact Ends.next ⟨by simp, by simp, unchanged_write_setTest ..⟩

theorem binaryForm_spec {op : AluOp} {i : Reg → Reg → Instr} (h : op.binaryForm = some i)
    (hz : ∀ b, dividesByZero op b = false) (d r : Reg) :
    Encodes (i d r) (nibbles 0x1 op.toNib d.toNib r.toNib) ∧
      SetsWithTest (i d r) d fun s => aluWord op (s.read d) (s.read r) :=
  ⟨encodes_binaryForm h d r, fun s => setsWithTestAt_of_exec_aluInto (exec_binaryForm h d r s) (hz _)⟩

theorem unaryForm_spec {op : AluOp} {i : Reg → Instr} (h : op.unaryForm = some i) (d : Reg) :
    Encodes (i d) (nibbles 0x1 op.toNib d.toNib 0) ∧ SetsWithTest (i d) d fun s => aluWord op (s.read d) 0 :=
  ⟨encodes_unaryForm h d,
    fun s => setsWithTestAt_of_exec_aluInto (exec_unaryForm h d s) (dividesByZero_of_unaryForm h 0)⟩

theorem immediateForm_spec {op : AluOp} {i : Reg → Word → Instr} (h : op.immediateForm = some i)
    (hz : ∀ b, dividesByZero op b = false) (d : Reg) (w : Word) :
    EncodesPair (i d w) (nibbles 0x1 0xF d.toNib op.toNib) w ∧
      SetsWithTest (i d w) d fun s => aluWord op (s.read d) w :=
  ⟨encodesPair_immediateForm h d w, fun s => setsWithTestAt_of_exec_aluInto (exec_immediateForm h d w s) (hz w)⟩

end Sys2Proof.Machine
end

section
/-! The obligations about the ALU operations that neither divide nor shift.  Each clause is what the form of its operation
does, the 16-bit result of that operation written out. -/

namespace Sys2Proof.Machine

/-- Settles O21: the two forms of each of the three operations. -/
theorem addSubMul : Obligations.AddSubMul := by
  unfold Obligations.AddSubMul
  refine ⟨?add, ?sub, ?mul, ?addi, ?subi, ?muli⟩
  case add => exact binaryForm_spec (op := .add) rfl fun _ => rfl
  case sub => exact binaryForm_spec (op := .sub) rfl fun _ => rfl
  case mul => exact binaryForm_spec (op := .mul) rfl fun _ => rfl
  case addi => exact immediateForm_spec (op := .add) rfl fun _ => rfl
  case subi => exact immediateForm_spec (op := .sub) rfl fun _ => rfl
  case muli => exact immediateForm_spec (op := .mul) rfl fun _ => rfl

/-- Settles O23: the register and immediate forms of the two-operand operations, and `not`, which has one form. -/
theorem bitwise : Obligations.Bitwise := by
  unfold Obligations.Bitwise
  refine ⟨?and, ?or, ?xor, ?not, ?andi, ?ori, ?xori⟩
  case and => exact binaryForm_spec (op := .and) rfl fun _ => rfl
  case or => exact binaryForm_spec (op := .or) rfl fun _ => rfl
  case xor => exact binaryForm_spec (op := .xor) rfl fun _ => rfl
  case not => exact unaryForm_spec (op := .not) rfl
  case andi => exact immediateForm_spec (op := .and) rfl fun _ => rfl
  case ori => exact immediateForm_spec (op := .or) rfl fun _ => rfl
  case xori => exact immediateForm_spec (op := .xor) rfl fun _ => rfl

/-- Settles O25: the register and immediate forms of `min` and `max`, and the one form of `lnot` and of `neg`. -/
theorem minMaxLnotNeg : Obligations.MinMaxLnotNeg := by
  unfold Obligations.MinMaxLnotNeg
  refine ⟨?min, ?max, ?lnot, ?neg, ?mini, ?maxi⟩
  case min => exact binaryForm_spec (op := .min) rfl fun _ => rfl
  case max => exact binaryForm_spec (op := .max) rfl fun _ => rfl
  case lnot => exact unaryForm_spec (op := .lnot) rfl
  case neg => exact unaryForm_spec (op := .neg) rfl
  case mini => exact immediateForm_spec (op := .min) rfl fun _ => rfl
  case maxi => exact immediateForm_spec (op := .max) rfl fun _ => rfl

end Sys2Proof.Machine
end

section
/-! SUPPORT. The STACK instructions: reading a word of their type, the omitted stack register of the assembler, a word load
and a word store by whether the access fits, and what a push and a copied item do to the state. -/

namespace Sys2Proof.Machine

/-! ### Words of type STACK -/

/-- A word of type 0x2 is read by the STACK table (R111, R112). -/
theorem decode_of_typeOf_stack {w : Word} (h : typeOf w = 0x2) (dr : Word) : decode w dr = decodeStack w dr := by
  simp [decode_eq_decodeLenient, decodeLenient, h]

/-- Of the STACK words those with opcode 0xF have a second word (R102). -/
theorem doubleWord_of_typeOf_stack {w : Word} (h : typeOf w = 0x2) :
    doubleWord w = decide ((opOf w).toNat = 15) := by
  simp [doubleWord, h]

/-- An entry of the STACK table, other than `pushi`, that the encoder agrees with. -/
theorem encodes_stack {i : Instr} {w : Word} (ht : typeOf w = 0x2) (hop : (opOf w).toNat ≠ 15) (he : encode i = [w])
    (hd : ∀ dr, decodeStack w dr = .ok i) : Encodes i w :=
  ⟨he, by rw [doubleWord_of_typeOf_stack ht, decide_eq_false hop], fun dr => (decode_of_typeOf_stack ht dr).trans (hd dr)⟩

theorem encodes_dup (r : Reg) : Encodes (.dup r) (nibbles 0x2 0x2 0 r.toNib) :=
  encodes_stack (by simp) (by simp) rfl (by simp [decodeStack])

theorem encodes_swap (r : Reg) : Encodes (.swap r) (nibbles 0x2 0x3 0 r.toNib) :=
  encodes_stack (by simp) (by simp) rfl (by simp [decodeStack])

theorem encodes_overItem (r : Reg) : Encodes (.overItem r) (nibbles 0x2 0x5 0 r.toNib) :=
  encodes_stack (by simp) (by simp) rfl (by simp [decodeStack])

/-! ### The omitted stack register -/

/-- A mnemonic whose only operand is a stack register takes `sp` for an omitted one (R139, R140). -/
theorem assembleLine_stack_default {name : List Char} {f : Reg → Instr} (h : lookupName mnemonics name = some (.stack f))
    (m : SyscallMap) : assembleLine name [] m = assembleLine name [.name "sp".toList] m := by
  have hsp : stackOperand [.name "sp".toList] = stackOperand [] := by decide
  simp only [assembleLine, h, Form.arity, Form.build, hsp]
  -- both sides now build from the same register; the two operand counts, 0 and 1, are within the arity by computation
  rfl

/-! ### Slots -/

@[simp] theorem State.slot_zero (s : State) (r : Reg) : s.slot r 0 = s16 (s.read r) := by
  simp [State.slot]

@[simp] theorem State.slot_one (s : State) (r : Reg) : s.slot r 1 = s16 (s.read r) + 2 := by
  simp [State.slot]

/-! ### An access that fits, and one that does not -/

theorem State.loadWord_of_fits {a : Int} (h : wordFits a) (s : State) (k : Word → Result) :
    s.loadWord a k = k (s.mem.readWord a.toNat) := by
  rw [State.loadWord_eq, if_pos h]

theorem State.storeWord_of_fits {a : Int} (h : wordFits a) (s : State) (v : Word) (k : State → Result) :
    s.storeWord a v k = k { s with mem := s.mem.writeWord a.toNat v } := by
  rw [State.storeWord_eq, if_pos h]

/-- A fault taken is how the instruction ends (R500). -/
theorem ends_raise_memoryFault (s : State) (a : Int) :
    Ends (FaultTaken .memoryFault a .permanentError s) (.next (s.raise .memoryFault a)) :=
  Ends.next (faultTaken_raise s .memoryFault a .permanentError rfl)

/-- An instruction that has changed nothing when a load fails takes the fault of that load, whatever was to follow. -/
theorem ends_loadWord_of_not_fits {a : Int} (h : ¬ wordFits a) (s : State) (k : Word → Result) :
    Ends (FaultTaken .memoryFault a .permanentError s) (s.loadWord a k) := by
  rw [State.loadWord_eq, if_neg h]
  exact ends_raise_memoryFault s a

/-! ### Pushes -/

/-- An instruction that answers what the push of a word answers pushes that word (R300, R301). -/
theorem pushes_of_exec_pushWord {i : Instr} {r : Reg} {v : State → Word} {s : State}
    (h : exec i s = s.pushWord r (v s)) (hm : s.mem.wf = true) : Pushes i r v s := by
  refine ⟨fun hfit => ?stored, fun hfit => ?faulted⟩
  case stored =>
    have hstored : (s.mem.writeWord (s16 (s.read r - 2)).toNat (v s)).readWord (s16 (s.read r - 2)).toNat = v s :=
      Memory.readWord_writeWord hm _ _ (by omega)
    rw [h, State.pushWord_eq, if_pos hfit]
    refine Ends.next ⟨by rw [State.read_mem, State.read_write, if_pos rfl], hstored, ?_⟩
    exact ((unchanged_write s r _).trans (unchanged_writeWord _ _ (v s) hfit)).widen
      (by simp) (by simp) (by simp)
  case faulted =>
    rw [h, State.pushWord_eq, if_neg hfit]
    exact ends_raise_memoryFault _ _

/-- An instruction that reads a word and then pushes it: where the read fits it pushes the word read, else the read's fault
is taken with the stack register as it was (R303, R306). -/
theorem pushesCopy_of_exec {i : Instr} {r : Reg} {ea : State → Int}
    (h : ∀ s, exec i s = s.loadWord (ea s) fun w => s.pushWord r w) {s : State} (hm : s.mem.wf = true) :
    (wordFits (ea s) → Pushes i r (fun s => s.mem.readWord (ea s).toNat) s) ∧
      (¬ wordFits (ea s) → Ends (FaultTaken .memoryFault (ea s) .permanentError s) (exec i s)) := by
  refine ⟨fun hfit => pushes_of_exec_pushWord ?_ hm, fun hfit => ?_⟩
  · rw [h, State.loadWord_of_fits hfit]
  · rw [h]
    exact ends_loadWord_of_not_fits hfit s _

/-! ### Two words stored one after the other -/

/-- Of two words stored apart, the one stored first reads back too. -/
theorem Memory.readWord_writeWord_writeWord {m : Memory} (hm : m.wf = true) (a b : Nat) (v w : Word) (ha : a < 4096)
    (hab : a + 1 < b ∨ b + 1 < a) : ((m.writeWord a v).writeWord b w).readWord a = v := by
  rw [Memory.readWord_writeWord_ne _ _ _ _ hab, Memory.readWord_writeWord hm a v ha]

/-- Two stores change the bytes of their two words and nothing else. -/
theorem unchanged_writeWord_writeWord (s : State) {a b : Int} (v w : Word) (ha : wordFits a) (hb : wordFits b) :
    Unchanged [] false (fun x => wordAt a x ∨ wordAt b x) s
      { s with mem := (s.mem.writeWord a.toNat v).writeWord b.toNat w } :=
  (unchanged_writeWord s a v ha).trans (unchanged_writeWord { s with mem := s.mem.writeWord a.toNat v } b w hb)

/-- `swap` with both items in memory: both are read before either is written (R304). -/
theorem exec_swap_of_fits {s : State} {r : Reg} (h0 : wordFits (s16 (s.read r))) (h1 : wordFits (s16 (s.read r) + 2)) :
    exec (.swap r) s = .next { s with
      mem := (s.mem.writeWord (s16 (s.read r)).toNat (s.mem.readWord (s16 (s.read r) + 2).toNat)).writeWord
        (s16 (s.read r) + 2).toNat (s.mem.readWord (s16 (s.read r)).toNat) } := by
  simp only [exec_swap, State.slot_zero, State.slot_one, State.loadWord_of_fits h0, State.loadWord_of_fits h1,
    State.storeWord_of_fits h0, State.storeWord_of_fits h1]

end Sys2Proof.Machine
end

section
/-! The obligations about the stack instructions that copy or exchange items. -/

namespace Sys2Proof.Machine

/-- Settles O29: each of the two reads its item and pushes what it read. -/
theorem dupOverPush : Obligations.DupOverPush := by
  unfold Obligations.DupOverPush
  refine ⟨assembleLine_stack_default (f := .dup) rfl _, assembleLine_stack_default (f := .overItem) rfl _,
    fun r => ⟨encodes_dup r, encodes_overItem r, fun s hm => ?_⟩⟩
  obtain ⟨dupPushes, dupFaults⟩ := pushesCopy_of_exec (i := .dup r) (r := r) (ea := fun s => s16 (s.read r))
    (fun s => by rw [exec_dup, State.slot_zero]) hm
  obtain ⟨overPushes, overFaults⟩ := pushesCopy_of_exec (i := .overItem r) (r := r) (ea := fun s => s16 (s.read r) + 2)
    (fun s => by rw [exec_overItem, State.slot_one]) hm
  exact ⟨dupPushes, dupFaults, overPushes, overFaults⟩

/-- Settles O31: the two reads come first, so a failing one leaves the state as it was; after them the stores are in range,
and the two words lie apart. -/
theorem swapExchanges : Obligations.SwapExchanges := by
  unfold Obligations.SwapExchanges
  refine ⟨assembleLine_stack_default (f := .swap) rfl _, fun r => ⟨encodes_swap r, fun s hm => ?_⟩⟩
  refine ⟨fun h0 h1 => ?exchanged, fun h0 => ?topFaults, fun h0 h1 => ?secondFaults⟩
  case exchanged =>
    rw [exec_swap_of_fits h0 h1]
    have hm1 := Memory.wf_writeWord hm (s16 (s.read r)).toNat (s.mem.readWord (s16 (s.read r) + 2).toNat) (by omega)
    exact Ends.next ⟨Memory.readWord_writeWord_writeWord hm _ _ _ _ (by omega) (by omega),
      Memory.readWord_writeWord hm1 _ _ (by omega), unchanged_writeWord_writeWord s _ _ h0 h1⟩
  case topFaults =>
    rw [exec_swap, State.slot_zero]
    exact ends_loadWord_of_not_fits h0 s _
  case secondFaults =>
    rw [exec_swap, State.slot_zero, State.slot_one, State.loadWord_of_fits h0]
    exact ends_loadWord_of_not_fits h1 s _

end Sys2Proof.Machine
end

section
/-! SUPPORT. The TEST instructions at the level of their relation: the words of the two forms, the comparison of integers as
a comparison of patterns, and what every comparison does to the state. -/

namespace Sys2Proof

/-! ### The six relations -/

/-- The relation a TEST instruction asks about. -/
inductive TestRel where
  | eq | neq | gt | gte | lt | lte

/-- The opcode of the register form; that of the constant form is 8 more (R113). -/
def TestRel.toNib : TestRel → Nib
  | .eq => 0
  | .neq => 1
  | .gt => 2
  | .gte => 3
  | .lt => 4
  | .lte => 5

/-- The comparison of two registers (R352 to R357). -/
def TestRel.registerForm : TestRel → Reg → Reg → Instr
  | .eq => .eq
  | .neq => .neq
  | .gt => .gt
  | .gte => .gte
  | .lt => .lt
  | .lte => .lte

/-- The comparison of a register with a 4-bit constant (R358 to R363). -/
def TestRel.constantForm : TestRel → Reg → Nib → Instr
  | .eq => .eqi
  | .neq => .neqi
  | .gt => .gti
  | .gte => .gtei
  | .lt => .lti
  | .lte => .ltei

/-- The relation between integers. -/
def TestRel.ofInts (rel : TestRel) (x y : Int) : Bool :=
  match rel with
  | .eq => decide (x = y)
  | .neq => decide (x ≠ y)
  | .gt => decide (x > y)
  | .gte => decide (x ≥ y)
  | .lt => decide (x < y)
  | .lte => decide (x ≤ y)

/-- The relation between patterns, by the signed comparisons of bit vectors. -/
def TestRel.ofWords (rel : TestRel) (a b : Word) : Bool :=
  match rel with
  | .eq => decide (a = b)
  | .neq => decide (a ≠ b)
  | .gt => b.slt a
  | .gte => b.sle a
  | .lt => a.slt b
  | .lte => a.sle b

/-- Comparing the signed readings is comparing the patterns: equality because the signed reading is injective, the orders
because the signed orders of bit vectors are those of the readings. -/
theorem TestRel.ofInts_s16 (rel : TestRel) (a b : Word) : rel.ofInts (s16 a) (s16 b) = rel.ofWords a b := by
  cases rel with
  | eq => simp only [ofInts, ofWords, BitVec.toInt_inj]
  | neq => simp only [ofInts, ofWords, ne_eq, BitVec.toInt_inj]
  | gt => exact BitVec.slt_eq_decide.symm
  | gte => exact BitVec.sle_eq_decide.symm
  | lt => exact BitVec.slt_eq_decide.symm
  | lte => exact BitVec.sle_eq_decide.symm

end Sys2Proof

namespace Sys2Proof.Machine

/-- A 4-bit constant is the signed reading of its zero-extension: no constant is negative (R118). -/
theorem s16_setWidth_nib (n : Nib) : s16 (n.setWidth 16) = zext4 n := by
  have hn : (n.setWidth 16).toNat = n.toNat := BitVec.toNat_setWidth_of_le (by decide)
  rw [zext4, s16, BitVec.toInt_eq_toNat_of_lt (by omega), hn]

/-! ### Words of type TEST -/

/-- A word of type 0x3 is read by the TEST table, whatever the word after it (R113). -/
theorem decode_of_typeOf_test {w : Word} (h : typeOf w = 0x3) (dr : Word) : decode w dr = decodeTest w := by
  simp [decode_eq_decodeLenient, decodeLenient, h]

/-- TEST instructions are single words (R102). -/
theorem doubleWord_of_typeOf_test {w : Word} (h : typeOf w = 0x3) : doubleWord w = false := by
  simp [doubleWord, h]

/-- An entry of the TEST table that the encoder agrees with. -/
theorem encodes_test {i : Instr} {w : Word} (ht : typeOf w = 0x3) (he : encode i = [w]) (hd : decodeTest w = .ok i) :
    Encodes i w :=
  ⟨he, doubleWord_of_typeOf_test ht, fun dr => (decode_of_typeOf_test ht dr).trans hd⟩

theorem encodes_registerForm (rel : TestRel) (r q : Reg) :
    Encodes (rel.registerForm r q) (nibbles 0x3 rel.toNib r.toNib q.toNib) := by
  cases rel <;> exact encodes_test (by simp) rfl (by simp [decodeTest, TestRel.toNib, TestRel.registerForm])

theorem encodes_constantForm (rel : TestRel) (r : Reg) (n : Nib) :
    Encodes (rel.constantForm r n) (nibbles 0x3 (8 + rel.toNib) r.toNib n) := by
  cases rel <;> exact encodes_test (by simp) rfl (by simp [decodeTest, TestRel.toNib, TestRel.constantForm])

/-! ### What a comparison does -/

theorem exec_registerForm (rel : TestRel) (r q : Reg) (s : State) :
    exec (rel.registerForm r q) s = .next (s.setTest (rel.ofInts (s16 (s.read r)) (s16 (s.read q)))) := by
  cases rel <;> rfl

theorem exec_constantForm (rel : TestRel) (r : Reg) (n : Nib) (s : State) :
    exec (rel.constantForm r n) s = .next (s.setTest (rel.ofInts (s16 (s.read r)) (zext4 n))) := by
  cases rel <;> rfl

/-- An instruction whose whole effect is an update of T leaves the value there and changes nothing else. -/
theorem setsTest_of_exec_setTest {i : Instr} {b : State → Bool} (h : ∀ s, exec i s = .next (s.setTest (b s))) :
    SetsTest i b := by
  intro s
  rw [h s]
  exact Ends.next ⟨State.testBit_setTest s (b s), unchanged_setTest s (b s)⟩

theorem registerForm_spec (rel : TestRel) (r q : Reg) :
    Encodes (rel.registerForm r q) (nibbles 0x3 rel.toNib r.toNib q.toNib) ∧
      SetsTest (rel.registerForm r q) fun s => rel.ofWords (s.read r) (s.read q) :=
  ⟨encodes_registerForm rel r q,
    setsTest_of_exec_setTest fun s => by rw [exec_registerForm, TestRel.ofInts_s16]⟩

theorem constantForm_spec (rel : TestRel) (r : Reg) (n : Nib) :
    Encodes (rel.constantForm r n) (nibbles 0x3 (8 + rel.toNib) r.toNib n) ∧
      SetsTest (rel.constantForm r n) fun s => rel.ofWords (s.read r) (n.setWidth 16) :=
  ⟨encodes_constantForm rel r n,
    setsTest_of_exec_setTest fun s => by rw [exec_constantForm, ← s16_setWidth_nib, TestRel.ofInts_s16]⟩

end Sys2Proof.Machine
end

section
/-! The obligations about TEST.  Each clause is what the form of its relation does, the comparison of patterns written
out. -/

namespace Sys2Proof.Machine

/-- Settles O37: the register form of each of the six relations. -/
theorem testRegisters : Obligations.TestRegisters := by
  unfold Obligations.TestRegisters
  intro r q
  refine ⟨?eq, ?neq, ?gt, ?gte, ?lt, ?lte⟩
  case eq => exact registerForm_spec .eq r q
  case neq => exact registerForm_spec .neq r q
  case gt => exact registerForm_spec .gt r q
  case gte => exact registerForm_spec .gte r q
  case lt => exact registerForm_spec .lt r q
  case lte => exact registerForm_spec .lte r q

/-- Settles O38: the constant form of each of the six relations, the constant zero-extended. -/
theorem testConstants : Obligations.TestConstants := by
  unfold Obligations.TestConstants
  intro r n c
  refine ⟨?eqi, ?neqi, ?gti, ?gtei, ?lti, ?ltei⟩
  case eqi => exact constantForm_spec .eq r n
  case neqi => exact constantForm_spec .neq r n
  case gti => exact constantForm_spec .gt r n
  case gtei => exact constantForm_spec .gte r n
  case lti => exact constantForm_spec .lt r n
  case ltei => exact constantForm_spec .lte r n

end Sys2Proof.Machine
end

section
/-! SUPPORT. The load and store instructions: the words of the register-indexed and the LOAD forms, and what a word load, a
word store and a byte store do to the state. -/

namespace Sys2Proof

/-! ### Bytes of a word as bit vectors -/

/-- The word two bytes make is their concatenation, high byte first (R8, R74). -/
theorem joinBytes_eq_append (h l : Byte) : joinBytes h l = h ++ l := by
  apply BitVec.eq_of_toNat_eq
  rw [BitVec.toNat_append, ← Nat.shiftLeft_add_eq_or_of_lt l.isLt, Nat.shiftLeft_eq, joinBytes, BitVec.toNat_ofNat]
  omega

/-- Bits 7:0 of a word are its truncation to 8 bits (R74). -/
theorem loByte_eq_setWidth (w : Word) : loByte w = w.setWidth 8 :=
  BitVec.ofNat_toNat 8 w

end Sys2Proof

namespace Sys2Proof.Machine

/-! ### Words of the register-indexed types -/

/-- The types whose whole word is three register fields have no second word (R102, R114). -/
theorem doubleWord_of_typeOf_indexed {w : Word} (h : typeOf w ∈ [(0x4 : Nib), 0x5, 0x6, 0x7]) : doubleWord w = false := by
  simp only [List.mem_cons, List.not_mem_nil, or_false] at h
  rcases h with h | h | h | h <;> simp [doubleWord, h]

/-- A word of three register fields that the encoder agrees with (R114). -/
theorem encodes_indexed {i : Instr} {w : Word} (ht : typeOf w ∈ [(0x4 : Nib), 0x5, 0x6, 0x7]) (he : encode i = [w])
    (hd : ∀ dr, decodeLenient w dr = .ok i) : Encodes i w :=
  ⟨he, doubleWord_of_typeOf_indexed ht, fun dr => (decode_eq_decodeLenient w dr).trans (hd dr)⟩

theorem encodes_lwr (b o t : Reg) : Encodes (.lwr b o t) (nibbles 0x4 b.toNib o.toNib t.toNib) :=
  encodes_indexed (by simp) rfl (by simp [decodeLenient])

theorem encodes_swr (b o t : Reg) : Encodes (.swr b o t) (nibbles 0x6 b.toNib o.toNib t.toNib) :=
  encodes_indexed (by simp) rfl (by simp [decodeLenient])

theorem encodes_sbr (b o t : Reg) : Encodes (.sbr b o t) (nibbles 0x7 b.toNib o.toNib t.toNib) :=
  encodes_indexed (by simp) rfl (by simp [decodeLenient])

/-! ### Words of type LOAD -/

theorem encodesPair_lw (t : Reg) (w : Word) : EncodesPair (.lw t w) (nibbles 0x8 0x0 t.toNib 0) w :=
  encodesPair_load (by simp) (by simp) rfl (by simp [decodeLoad])

theorem encodesPair_lwo (t o : Reg) (w : Word) : EncodesPair (.lwo t o w) (nibbles 0x8 0x1 t.toNib o.toNib) w :=
  encodesPair_load (by simp) (by simp) rfl (by simp [decodeLoad])

theorem encodesPair_sw (t : Reg) (w : Word) : EncodesPair (.sw t w) (nibbles 0x8 0x4 t.toNib 0) w :=
  encodesPair_load (by simp) (by simp) rfl (by simp [decodeLoad])

theorem encodesPair_swo (t o : Reg) (w : Word) : EncodesPair (.swo t o w) (nibbles 0x8 0x5 t.toNib o.toNib) w :=
  encodesPair_load (by simp) (by simp) rfl (by simp [decodeLoad])

theorem encodesPair_sb (t : Reg) (w : Word) : EncodesPair (.sb t w) (nibbles 0x8 0x6 t.toNib 0) w :=
  encodesPair_load (by simp) (by simp) rfl (by simp [decodeLoad])

theorem encodesPair_sbo (t o : Reg) (w : Word) : EncodesPair (.sbo t o w) (nibbles 0x8 0x7 t.toNib o.toNib) w :=
  encodesPair_load (by simp) (by simp) rfl (by simp [decodeLoad])

/-! ### A store that fits, and one that does not -/

theorem State.storeByte_of_fits {a : Int} (h : byteFits a) (s : State) (v : Word) (k : State → Result) :
    s.storeByte a v k = k { s with mem := s.mem.writeByte a.toNat (loByte v) } := by
  rw [State.storeByte_eq, if_pos h]

/-- A word store that fails takes its fault and stores neither byte (R73, R500). -/
theorem ends_storeWord_of_not_fits {a : Int} (h : ¬ wordFits a) (s : State) (v : Word) (k : State → Result) :
    Ends (FaultTaken .memoryFault a .permanentError s) (s.storeWord a v k) := by
  rw [State.storeWord_eq, if_neg h]
  exact ends_raise_memoryFault s a

/-- A byte store that fails takes its fault and stores nothing (R73, R500). -/
theorem ends_storeByte_of_not_fits {a : Int} (h : ¬ byteFits a) (s : State) (v : Word) (k : State → Result) :
    Ends (FaultTaken .memoryFault a .permanentError s) (s.storeByte a v k) := by
  rw [State.storeByte_eq, if_neg h]
  exact ends_raise_memoryFault s a

/-! ### What a load or a store does -/

/-- An instruction that is a word load leaves the two bytes at its address, the one at the lower address high, in its
register (R401). -/
theorem loadsFrom_of_exec_loadWordInto {i : Instr} {t : Reg} {ea : State → Int}
    (h : ∀ s, exec i s = s.loadWordInto t (ea s)) :
    LoadsFrom i t ea wordFits fun s a => s.mem.readByte a ++ s.mem.readByte (a + 1) := by
  intro s
  rw [h, State.loadWordInto]
  refine ⟨fun hfit => ?loaded, fun hfit => ends_loadWord_of_not_fits hfit s _⟩
  case loaded =>
    rw [State.loadWord_of_fits hfit, Memory.readWord, joinBytes_eq_append]
    exact Ends.next ⟨by rw [State.read_write, if_pos rfl], unchanged_write s t _⟩

/-- An instruction that is a word store leaves the word at its address. -/
theorem storesWord_of_exec_storeWord {i : Instr} {ea : State → Int} {v : State → Word}
    (h : ∀ s, exec i s = s.storeWord (ea s) (v s) .next) : StoresWord i ea v := by
  intro s hm
  rw [h]
  refine ⟨fun hfit => ?stored, fun hfit => ends_storeWord_of_not_fits hfit s _ _⟩
  case stored =>
    rw [State.storeWord_of_fits hfit]
    exact Ends.next ⟨Memory.readWord_writeWord hm _ _ (by omega), unchanged_writeWord s _ _ hfit⟩

/-- An instruction that is a byte store leaves the low 8 bits of its operand at its address. -/
theorem storesByte_of_exec_storeByte {i : Instr} {ea : State → Int} {v : State → Word}
    (h : ∀ s, exec i s = s.storeByte (ea s) (v s) .next) : StoresByte i ea fun s => (v s).setWidth 8 := by
  intro s hm
  rw [h]
  refine ⟨fun hfit => ?stored, fun hfit => ends_storeByte_of_not_fits hfit s _ _⟩
  case stored =>
    rw [State.storeByte_of_fits hfit, loByte_eq_setWidth]
    exact Ends.next ⟨Memory.readByte_writeByte_self hm _ _, unchanged_writeByte s _ _ hfit⟩

end Sys2Proof.Machine
end

section
/-! The obligations about the word loads, the word stores and the byte stores.  Each clause is the one access of its
instruction, at the effective address of its operand form (R78, R401). -/

namespace Sys2Proof.Machine

/-- Settles O39: each of the three is one word load into its register. -/
theorem wordLoads : Obligations.WordLoads := by
  unfold Obligations.WordLoads
  refine ⟨fun b o t => ⟨encodes_lwr b o t, ?lwr⟩, fun t w => ⟨encodesPair_lw t w, ?lw⟩,
    fun t o w => ⟨encodesPair_lwo t o w, ?lwo⟩⟩
  case lwr => exact loadsFrom_of_exec_loadWordInto (exec_lwr b o t)
  case lw => exact loadsFrom_of_exec_loadWordInto (exec_lw t w)
  case lwo => exact loadsFrom_of_exec_loadWordInto (exec_lwo t o w)

/-- Settles O41: each of the three is one store of the whole register. -/
theorem wordStores : Obligations.WordStores := by
  unfold Obligations.WordStores
  refine ⟨fun b o t => ⟨encodes_swr b o t, ?swr⟩, fun t w => ⟨encodesPair_sw t w, ?sw⟩,
    fun t o w => ⟨encodesPair_swo t o w, ?swo⟩⟩
  case swr => exact storesWord_of_exec_storeWord (exec_swr b o t)
  case sw => exact storesWord_of_exec_storeWord (exec_sw t w)
  case swo => exact storesWord_of_exec_storeWord (exec_swo t o w)

/-- Settles O42: each of the three is one store of the register's low byte. -/
theorem byteStores : Obligations.ByteStores := by
  unfold Obligations.ByteStores
  refine ⟨fun b o t => ⟨encodes_sbr b o t, ?sbr⟩, fun t w => ⟨encodesPair_sb t w, ?sb⟩,
    fun t o w => ⟨encodesPair_sbo t o w, ?sbo⟩⟩
  case sbr => exact storesByte_of_exec_storeByte (exec_sbr b o t)
  case sb => exact storesByte_of_exec_storeByte (exec_sb t w)
  case sbo => exact storesByte_of_exec_storeByte (exec_sbo t o w)

end Sys2Proof.Machine
end

section
/-! SUPPORT. The control-transfer instructions: the words of the register jumps and of the jumps to a 12-bit target, and
what a jump does to the state. -/

namespace Sys2Proof

/-! ### Fields of a jump word -/

@[simp] theorem typeOf_append (n : Nib) (a : Target) : typeOf (n ++ a) = n := by
  apply BitVec.eq_of_toNat_eq
  rw [typeOf, BitVec.toNat_append, ← Nat.shiftLeft_add_eq_or_of_lt a.isLt, BitVec.toNat_ofNat, Nat.shiftLeft_eq]
  omega

@[simp] theorem targetOf_append (n : Nib) (a : Target) : targetOf (n ++ a) = a := by
  apply BitVec.eq_of_toNat_eq
  rw [targetOf, BitVec.toNat_append, ← Nat.shiftLeft_add_eq_or_of_lt a.isLt, BitVec.toNat_ofNat, Nat.shiftLeft_eq]
  omega

/-- The word of a jump is its type nibble followed by its target (R117). -/
theorem jumpWord_eq_append (n : Nib) (a : Target) : BitVec.ofNat 16 (4096 * n.toNat + a.toNat) = n ++ a := by
  simpa using jumpWord_target (n ++ a)

end Sys2Proof

namespace Sys2Proof.Machine

/-! ### Words of the control-transfer types -/

/-- Jump words have no second word (R102, R116, R117). -/
theorem doubleWord_of_typeOf_control {w : Word} (h : typeOf w ∈ [(0x9 : Nib), 0xC, 0xD, 0xE, 0xF]) :
    doubleWord w = false := by
  simp only [List.mem_cons, List.not_mem_nil, or_false] at h
  rcases h with h | h | h | h | h <;> simp [doubleWord, h]

/-- A word of a jump type that the encoder agrees with. -/
theorem encodes_control {i : Instr} {w : Word} (ht : typeOf w ∈ [(0x9 : Nib), 0xC, 0xD, 0xE, 0xF]) (he : encode i = [w])
    (hd : ∀ dr, decodeLenient w dr = .ok i) : Encodes i w :=
  ⟨he, doubleWord_of_typeOf_control ht, fun dr => (decode_eq_decodeLenient w dr).trans (hd dr)⟩

/-! ### Register jumps -/

theorem jumpRegister_of_ne {r : Reg} (h : r ≠ .ra) : jumpRegister r = .jr r := if_neg h

/-- The decoder reads a word of type 0x9 as the assembler reads `jr` with that register: `ra` gives `ret` (R124, R140). -/
theorem decodeJr_eq_jumpRegister (w : Word) : decodeJr w = .ok (jumpRegister (Reg.ofNib (fieldLo w))) := by
  unfold decodeJr
  split
  case h_1 hra => rw [hra]; rfl
  case h_2 hne => rw [jumpRegister_of_ne hne]

/-- The encoder writes `ret` as it would write `jr ra` (R452). -/
theorem encode_jumpRegister (r : Reg) : encode (jumpRegister r) = [nibbles 0x9 0 0 r.toNib] := by
  by_cases hra : r = .ra
  · subst hra; rfl
  · rw [jumpRegister_of_ne hra]; rfl

theorem encodes_jumpRegister (r : Reg) : Encodes (jumpRegister r) (nibbles 0x9 0 0 r.toNib) :=
  encodes_control (by simp) (encode_jumpRegister r) fun _ => by simp [decodeLenient, decodeJr_eq_jumpRegister]

theorem encodes_jr {r : Reg} (h : r ≠ .ra) : Encodes (.jr r) (nibbles 0x9 0 0 r.toNib) :=
  jumpRegister_of_ne h ▸ encodes_jumpRegister r

theorem encodes_ret : Encodes .ret (nibbles 0x9 0 0 0xB) := encodes_jumpRegister .ra

/-! ### Jumps to a target -/

/-- A jump to a 12-bit target that the decoder agrees with: the encoder puts the type above the target (R117). -/
theorem encodes_jump {i : Instr} {n : Nib} {a : Target} (hn : n ∈ [(0xC : Nib), 0xD, 0xE, 0xF])
    (he : encode i = [BitVec.ofNat 16 (4096 * n.toNat + a.toNat)]) (hd : ∀ dr, decodeLenient (n ++ a) dr = .ok i) :
    Encodes i (n ++ a) :=
  encodes_control (by rw [typeOf_append]; exact List.mem_cons_of_mem _ hn) (by rw [he, jumpWord_eq_append]) hd

theorem encodes_j (a : Target) : Encodes (.j a) (0xC#4 ++ a) :=
  encodes_jump (by simp) rfl fun _ => by simp [decodeLenient]

theorem encodes_jz (a : Target) : Encodes (.jz a) (0xD#4 ++ a) :=
  encodes_jump (by simp) rfl fun _ => by simp [decodeLenient]

theorem encodes_jnz (a : Target) : Encodes (.jnz a) (0xE#4 ++ a) :=
  encodes_jump (by simp) rfl fun _ => by simp [decodeLenient]

theorem encodes_jal (a : Target) : Encodes (.jal a) (0xF#4 ++ a) :=
  encodes_jump (by simp) rfl fun _ => by simp [decodeLenient]

/-! ### What a jump does -/

/-- A jump to where PC already stands changes nothing. -/
theorem State.jump_read_pc (s : State) : s.jump (s.read .pc) = s := State.write_read s .pc

/-- `jz` is a jump in every state; where T is set, it is the one to the next instruction (R454). -/
theorem exec_jz_jump (a : Target) (s : State) :
    exec (.jz a) s = .next (s.jump (if s.testBit = false then a.setWidth 16 else s.read .pc)) := by
  rw [exec_jz]
  cases s.testBit with
  | false => rfl
  | true => simp [State.jump_read_pc]

/-- `jnz` is a jump in every state; where T is clear, it is the one to the next instruction (R455). -/
theorem exec_jnz_jump (a : Target) (s : State) :
    exec (.jnz a) s = .next (s.jump (if s.testBit = true then a.setWidth 16 else s.read .pc)) := by
  rw [exec_jnz]
  cases s.testBit with
  | false => simp [State.jump_read_pc]
  | true => rfl

/-- An instruction whose whole effect is a jump leaves PC at the target and changes nothing else. -/
theorem jumpsTo_of_exec_jump {i : Instr} {target : State → Word} (h : ∀ s, exec i s = .next (s.jump (target s))) :
    JumpsTo i target :=
  sets_of_exec_write h

/-- Two register writes change those two registers and nothing else. -/
theorem unchanged_write_write (s : State) (d e : Reg) (v w : Word) :
    Unchanged [d, e] false nowhere s ((s.write d v).write e w) :=
  ((unchanged_write s d v).trans (unchanged_write (s.write d v) e w)).widen (List.Subset.refl _) id fun _ => (or_self _).mp

end Sys2Proof.Machine
end

section
/-! The obligations about control transfer. -/

namespace Sys2Proof.Machine

/-- Settles O43: the decoder, the encoder and the assembler all treat `ret` as the reading of `jr ra`, and each of the two is
one jump to its register. -/
theorem registerJumps : Obligations.RegisterJumps := by
  unfold Obligations.RegisterJumps
  refine ⟨⟨?ret, ?jr, ?jrRa⟩, fun r => encodes_jr, encodes_ret, fun r => jumpsTo_of_exec_jump (exec_jr r),
    jumpsTo_of_exec_jump exec_ret, fun s => ?sameEffect⟩
  case ret => rfl
  case jr => rfl
  case jrRa => rfl
  case sameEffect => rw [exec_ret, exec_jr]

/-- Settles O44: each of the three is one jump in every state, a jump not taken being the one to where PC stands. -/
theorem jumps : Obligations.Jumps := by
  unfold Obligations.Jumps
  refine ⟨fun a => ⟨encodes_j a, ?j⟩, fun a => ⟨encodes_jz a, ?jz⟩, fun a => ⟨encodes_jnz a, ?jnz⟩⟩
  case j => exact jumpsTo_of_exec_jump (exec_j a)
  case jz => exact jumpsTo_of_exec_jump (exec_jz_jump a)
  case jnz => exact jumpsTo_of_exec_jump (exec_jnz_jump a)

/-- Settles O45: the link is written first, so it holds the PC from before the jump, and the jump leaves it there. -/
theorem jumpAndLink : Obligations.JumpAndLink := by
  unfold Obligations.JumpAndLink
  refine fun a => ⟨encodes_jal a, fun s => ?_⟩
  rw [exec_jal, State.jump]
  have hlink : ((s.write .ra (s.read .pc)).write .pc (zext12 a)).read .ra = s.read .pc := by simp
  have htarget : ((s.write .ra (s.read .pc)).write .pc (zext12 a)).read .pc = a.setWidth 16 := by simp [zext12]
  exact Ends.next ⟨hlink, htarget, unchanged_write_write s .ra .pc _ _⟩

end Sys2Proof.Machine
end

section
/-! The obligation about the start of a run: what the host's start-of-run operation does, by the status it finds (R606). -/

namespace Sys2Proof.Machine

/-- A loaded machine starts: it executes, at the start of a pulse. -/
theorem State.startOfRun_of_ready {s : State} (h : s.status = .ready) :
    s.startOfRun = { s with status := .executing, pulse := 0 } :=
  if_pos h

/-- There is no resume: a machine that has left READY is not started again (R606). -/
theorem State.startOfRun_of_not_ready {s : State} (h : s.status ≠ .ready) : s.startOfRun = s :=
  if_neg h

/-- Settles O52: the two clauses are the two statuses the operation tells apart, READY and any other. -/
theorem startOfRun : Obligations.StartOfRun := by
  unfold Obligations.StartOfRun
  exact ⟨fun _ hready => State.startOfRun_of_ready hready, fun _ hother => State.startOfRun_of_not_ready hother⟩

end Sys2Proof.Machine
end

section
/-! SUPPORT. The encoding as a whole: the words of the instructions that no section above encodes, the word of every
well-formed instruction, the fields as bit slices, and the canonical word of whatever a word decodes to. -/

namespace Sys2Proof

/-! ### Fields as bit slices -/

theorem typeOf_eq_extractLsb' (w : Word) : typeOf w = w.extractLsb' 12 4 := by
  apply BitVec.eq_of_toNat_eq
  simp [typeOf, Nat.shiftRight_eq_div_pow]

theorem opOf_eq_extractLsb' (w : Word) : opOf w = w.extractLsb' 8 4 := by
  apply BitVec.eq_of_toNat_eq
  simp [opOf, Nat.shiftRight_eq_div_pow]

theorem fieldHi_eq_extractLsb' (w : Word) : fieldHi w = w.extractLsb' 4 4 := by
  apply BitVec.eq_of_toNat_eq
  simp [fieldHi, Nat.shiftRight_eq_div_pow]

theorem fieldLo_eq_extractLsb' (w : Word) : fieldLo w = w.extractLsb' 0 4 := by
  apply BitVec.eq_of_toNat_eq
  simp [fieldLo]

theorem hiByte_eq_extractLsb' (w : Word) : hiByte w = w.extractLsb' 8 8 := by
  apply BitVec.eq_of_toNat_eq
  simp [hiByte, Nat.shiftRight_eq_div_pow]

theorem loByte_eq_extractLsb' (w : Word) : loByte w = w.extractLsb' 0 8 := by
  apply BitVec.eq_of_toNat_eq
  simp [loByte]

/-- The type and the opcode are the two halves of the high byte (R101, R103). -/
theorem toNat_hiByte (w : Word) : (hiByte w).toNat = 16 * (typeOf w).toNat + (opOf w).toNat := by
  simp only [hiByte, typeOf, opOf, BitVec.toNat_ofNat]
  omega

/-- A field that reads as a number is that number. -/
theorem eq_ofNat_of_toNat_eq {x : Nib} {n : Nat} (h : x.toNat = n) : x = BitVec.ofNat 4 n := by
  rw [← h, BitVec.ofNat_toNat, BitVec.setWidth_eq]

/-- The type and opcode that make a first word a double word, as numbers (R102). -/
theorem doubleWord_iff (w : Word) : doubleWord w = true ↔
    (typeOf w).toNat = 1 ∧ (opOf w).toNat = 15 ∨ (typeOf w).toNat = 2 ∧ (opOf w).toNat = 15 ∨
      (typeOf w).toNat = 8 ∧ (opOf w).toNat ≤ 9 := by
  unfold doubleWord
  split <;> simp_all

/-- The words with a nonzero unused field, other than those of `nop`, by the fields' numbers (R109, R112, R115, R116). -/
theorem unusedNonzero_iff (w : Word) : unusedNonzero w = true ↔
    (typeOf w).toNat = 1 ∧ 12 ≤ (opOf w).toNat ∧ (opOf w).toNat ≤ 14 ∧ (fieldLo w).toNat ≠ 0 ∨
    (typeOf w).toNat = 2 ∧ (2 ≤ (opOf w).toNat ∧ (opOf w).toNat ≤ 6 ∨ (opOf w).toNat = 15) ∧ (fieldHi w).toNat ≠ 0 ∨
    (typeOf w).toNat = 8 ∧ ((opOf w).toNat = 0 ∨ (opOf w).toNat = 2 ∨ (opOf w).toNat = 4 ∨ (opOf w).toNat = 6 ∨
      (opOf w).toNat = 8 ∨ (opOf w).toNat = 9) ∧ (fieldLo w).toNat ≠ 0 ∨
    (typeOf w).toNat = 9 ∧ ((opOf w).toNat ≠ 0 ∨ (fieldHi w).toNat ≠ 0) := by
  have zero_iff (x : Nib) : x = 0 ↔ x.toNat = 0 := ⟨fun h => h ▸ rfl, fun h => eq_ofNat_of_toNat_eq h⟩
  unfold unusedNonzero
  split <;> simp_all

/-! ### The canonical word -/

/-- Every unused field of a canonical word is zero, those of `nop` apart (R126). -/
theorem unusedNonzero_canonicalWord (w : Word) : unusedNonzero (canonicalWord w) = false := by
  rw [Bool.eq_false_iff, ne_eq, unusedNonzero_iff]
  unfold canonicalWord
  split
  case h_1 => decide
  case h_18 => grind
  all_goals simp_all only [typeOf_nibbles, opOf_nibbles, fieldHi_nibbles, fieldLo_nibbles]; simp

end Sys2Proof

namespace Sys2Proof.Machine

/-! ### What a word decodes to encodes as -/

/-- The instruction is well-formed and its encoding is the canonical word of `w`, followed by `dr` if `w` is a double
word. -/
def CanonicallyEncodes (i : Instr) (w dr : Word) : Prop :=
  i.wellFormed = true ∧ encode i = if doubleWord w then [canonicalWord w, dr] else [canonicalWord w]

theorem canonicallyEncodes_of_decodeMisc {o h l : Nib} {dr : Word} {i : Instr}
    (hd : decodeMisc (nibbles 0x0 o h l) = .ok i) : CanonicallyEncodes i (nibbles 0x0 o h l) dr := by
  unfold decodeMisc at hd
  simp only [opOf_nibbles, fieldHi_nibbles, fieldLo_nibbles] at hd
  split at hd
  case h_7 => cases hd
  case h_2 ho =>
    cases hd
    obtain rfl := eq_ofNat_of_toNat_eq ho
    have hw := sysWord_loByte (nibbles 0x0 0x1 h l) (typeOf_nibbles ..) (opOf_nibbles ..)
    simpa [CanonicallyEncodes, Instr.wellFormed, encode, canonicalWord, doubleWord] using hw
  all_goals
    rename_i ho
    cases hd
    obtain rfl := eq_ofNat_of_toNat_eq ho
    simp [CanonicallyEncodes, Instr.wellFormed, encode, canonicalWord, doubleWord]

theorem canonicallyEncodes_of_decodeAluImm {h l : Nib} {dr : Word} {i : Instr}
    (hd : decodeAluImm (Reg.ofNib h) l dr = .ok i) : CanonicallyEncodes i (nibbles 0x1 0xF h l) dr := by
  unfold decodeAluImm at hd
  split at hd
  case h_13 => cases hd
  all_goals
    rename_i hl
    cases hd
    obtain rfl := eq_ofNat_of_toNat_eq hl
    simp [CanonicallyEncodes, Instr.wellFormed, encode, canonicalWord, doubleWord]

theorem canonicallyEncodes_of_decodeAlu {o h l : Nib} {dr : Word} {i : Instr}
    (hd : decodeAlu (nibbles 0x1 o h l) dr = .ok i) : CanonicallyEncodes i (nibbles 0x1 o h l) dr := by
  unfold decodeAlu at hd
  simp only [opOf_nibbles, fieldHi_nibbles, fieldLo_nibbles] at hd
  split at hd
  case h_16 =>
    have ho : o.toNat = 15 := by simp only [imp_false] at *; omega
    obtain rfl := eq_ofNat_of_toNat_eq ho
    exact canonicallyEncodes_of_decodeAluImm hd
  all_goals
    rename_i ho
    cases hd
    obtain rfl := eq_ofNat_of_toNat_eq ho
    simp [CanonicallyEncodes, Instr.wellFormed, encode, canonicalWord, doubleWord]

theorem canonicallyEncodes_of_decodeSop {h l : Nib} {dr : Word} {i : Instr}
    (hd : decodeSop h (Reg.ofNib l) = .ok i) : CanonicallyEncodes i (nibbles 0x2 0x7 h l) dr := by
  unfold decodeSop at hd
  split at hd
  all_goals rename_i hf; cases hd
  simp [CanonicallyEncodes, Instr.wellFormed, encode, canonicalWord, doubleWord, AluOp.toNib_of_ofNib hf]

theorem canonicallyEncodes_of_decodeStack {o h l : Nib} {dr : Word} {i : Instr}
    (hd : decodeStack (nibbles 0x2 o h l) dr = .ok i) : CanonicallyEncodes i (nibbles 0x2 o h l) dr := by
  unfold decodeStack at hd
  simp only [opOf_nibbles, fieldHi_nibbles, fieldLo_nibbles] at hd
  split at hd
  case h_10 => cases hd
  case h_8 ho =>
    obtain rfl := eq_ofNat_of_toNat_eq ho
    exact canonicallyEncodes_of_decodeSop hd
  all_goals
    rename_i ho
    cases hd
    obtain rfl := eq_ofNat_of_toNat_eq ho
    simp [CanonicallyEncodes, Instr.wellFormed, encode, canonicalWord, doubleWord]

theorem canonicallyEncodes_of_decodeTest {o h l : Nib} {dr : Word} {i : Instr}
    (hd : decodeTest (nibbles 0x3 o h l) = .ok i) : CanonicallyEncodes i (nibbles 0x3 o h l) dr := by
  unfold decodeTest at hd
  simp only [opOf_nibbles, fieldHi_nibbles, fieldLo_nibbles] at hd
  split at hd
  case h_13 => cases hd
  all_goals
    rename_i ho
    cases hd
    obtain rfl := eq_ofNat_of_toNat_eq ho
    simp [CanonicallyEncodes, Instr.wellFormed, encode, canonicalWord, doubleWord]

theorem canonicallyEncodes_of_decodeLoad {o h l : Nib} {dr : Word} {i : Instr}
    (hd : decodeLoad (nibbles 0x8 o h l) dr = .ok i) : CanonicallyEncodes i (nibbles 0x8 o h l) dr := by
  unfold decodeLoad at hd
  simp only [opOf_nibbles, fieldHi_nibbles, fieldLo_nibbles] at hd
  split at hd
  case h_11 => cases hd
  all_goals
    rename_i ho
    cases hd
    obtain rfl := eq_ofNat_of_toNat_eq ho
    simp [CanonicallyEncodes, Instr.wellFormed, encode, canonicalWord, doubleWord]

theorem wellFormed_jumpRegister (r : Reg) : (jumpRegister r).wellFormed = true := by
  by_cases hra : r = .ra
  · subst hra; rfl
  · rw [jumpRegister_of_ne hra]; exact decide_eq_true hra

theorem canonicallyEncodes_of_decodeJr {o h l : Nib} {dr : Word} {i : Instr}
    (hd : decodeJr (nibbles 0x9 o h l) = .ok i) : CanonicallyEncodes i (nibbles 0x9 o h l) dr := by
  rw [decodeJr_eq_jumpRegister, fieldLo_nibbles] at hd
  cases hd
  refine ⟨wellFormed_jumpRegister _, ?_⟩
  simp [encode_jumpRegister, canonicalWord, doubleWord]

/-- A jump word is its type nibble followed by its target, and is canonical (R117). -/
theorem canonicallyEncodes_of_jump {i : Instr} {w dr : Word} {n : Nat} (ht : (typeOf w).toNat = n) (hn : 12 ≤ n)
    (hi : i.wellFormed = true) (he : encode i = [BitVec.ofNat 16 (4096 * n + (targetOf w).toNat)]) :
    CanonicallyEncodes i w dr := by
  have hlt : n < 16 := ht ▸ (typeOf w).isLt
  have hc : canonicalWord w = w := by
    unfold canonicalWord
    split
    case h_18 => rfl
    all_goals omega
  have hd : doubleWord w = false := by
    rw [Bool.eq_false_iff, ne_eq, doubleWord_iff]
    omega
  refine ⟨hi, ?_⟩
  rw [he, ← ht, jumpWord_target, hc, hd]
  rfl

/-- A word that decodes gives a well-formed instruction that encodes as the canonical word. -/
theorem canonicallyEncodes_of_decode {w dr : Word} {i : Instr} (hd : decode w dr = .ok i) :
    CanonicallyEncodes i w dr := by
  rw [decode_eq_decodeLenient] at hd
  unfold decodeLenient at hd
  split at hd
  case h_15 => cases hd
  case h_11 | h_12 | h_13 | h_14 => cases hd; exact canonicallyEncodes_of_jump ‹_› (by decide) rfl rfl
  all_goals
    rename_i ht
    have hw := nibbles_fields w
    rw [eq_ofNat_of_toNat_eq ht] at hw
    generalize opOf w = o, fieldHi w = h, fieldLo w = l at hw hd
    subst hw
  case h_1 => exact canonicallyEncodes_of_decodeMisc hd
  case h_2 => exact canonicallyEncodes_of_decodeAlu hd
  case h_3 => exact canonicallyEncodes_of_decodeStack hd
  case h_4 => exact canonicallyEncodes_of_decodeTest hd
  case h_9 => exact canonicallyEncodes_of_decodeLoad hd
  case h_10 => exact canonicallyEncodes_of_decodeJr hd
  case h_5 | h_6 | h_7 | h_8 =>
    cases hd
    simp [CanonicallyEncodes, Instr.wellFormed, encode, canonicalWord, doubleWord]

/-! ### The words that are illegal -/

theorem illegal_decodeMisc_iff (w : Word) :
    (∃ e, decodeMisc w = .illegal e) ↔ 5 ≤ (opOf w).toNat ∧ (opOf w).toNat ≤ 14 := by
  have hop := (opOf w).isLt
  unfold decodeMisc
  split <;> grind

theorem illegal_decodeAlu_iff (w dr : Word) :
    (∃ e, decodeAlu w dr = .illegal e) ↔ (opOf w).toNat = 15 ∧ 12 ≤ (fieldLo w).toNat := by
  have hop := (opOf w).isLt
  have hlo := (fieldLo w).isLt
  unfold decodeAlu decodeAluImm
  split
  case h_16 => split <;> grind
  all_goals grind

theorem illegal_decodeSop_iff (f : Nib) (r : Reg) : (∃ e, decodeSop f r = .illegal e) ↔ f.toNat = 15 := by
  have hf := f.isLt
  unfold decodeSop AluOp.ofNib
  split <;> grind

theorem illegal_decodeStack_iff (w dr : Word) : (∃ e, decodeStack w dr = .illegal e) ↔
    8 ≤ (opOf w).toNat ∧ (opOf w).toNat ≤ 14 ∨ (opOf w).toNat = 7 ∧ (fieldHi w).toNat = 15 := by
  have hop := (opOf w).isLt
  unfold decodeStack
  split
  case h_8 => rw [illegal_decodeSop_iff]; omega
  all_goals grind

theorem illegal_decodeTest_iff (w : Word) : (∃ e, decodeTest w = .illegal e) ↔
    (opOf w).toNat = 6 ∨ (opOf w).toNat = 7 ∨ (opOf w).toNat = 14 ∨ (opOf w).toNat = 15 := by
  have hop := (opOf w).isLt
  unfold decodeTest
  split <;> grind

theorem illegal_decodeLoad_iff (w dr : Word) : (∃ e, decodeLoad w dr = .illegal e) ↔ 10 ≤ (opOf w).toNat := by
  have hop := (opOf w).isLt
  unfold decodeLoad
  split <;> grind

/-- The reserved and illegal first words, by the fields' numbers (R125). -/
theorem illegal_decode_iff (w dr : Word) : (∃ e, decode w dr = .illegal e) ↔
    (typeOf w).toNat = 0xA ∨ (typeOf w).toNat = 0xB ∨
    (typeOf w).toNat = 0x0 ∧ 0x5 ≤ (opOf w).toNat ∧ (opOf w).toNat ≤ 0xE ∨
    (typeOf w).toNat = 0x1 ∧ (opOf w).toNat = 0xF ∧ 0xC ≤ (fieldLo w).toNat ∨
    (typeOf w).toNat = 0x2 ∧ 0x8 ≤ (opOf w).toNat ∧ (opOf w).toNat ≤ 0xE ∨
    (typeOf w).toNat = 0x2 ∧ (opOf w).toNat = 0x7 ∧ (fieldHi w).toNat = 0xF ∨
    (typeOf w).toNat = 0x3 ∧
      ((opOf w).toNat = 0x6 ∨ (opOf w).toNat = 0x7 ∨ (opOf w).toNat = 0xE ∨ (opOf w).toNat = 0xF) ∨
    (typeOf w).toNat = 0x8 ∧ 0xA ≤ (opOf w).toNat := by
  have ht := (typeOf w).isLt
  rw [decode_eq_decodeLenient]
  unfold decodeLenient
  split
  case h_1 => rw [illegal_decodeMisc_iff]; omega
  case h_2 => rw [illegal_decodeAlu_iff]; omega
  case h_3 => rw [illegal_decodeStack_iff]; omega
  case h_4 => rw [illegal_decodeTest_iff]; omega
  case h_9 => rw [illegal_decodeLoad_iff]; omega
  case h_10 => rw [decodeJr_eq_jumpRegister]; simp; omega
  all_goals grind

/-- Under STRICT_UNUSED_FIELDS the words with a nonzero unused field are illegal too (R125). -/
theorem illegal_decodeWith_true_iff (w dr : Word) : (∃ e, decodeWith true w dr = .illegal e) ↔
    (∃ e, decode w dr = .illegal e) ∨ unusedNonzero w = true := by
  rw [decodeWith, decode_eq_decodeLenient]
  cases unusedNonzero w <;> simp

/-- A word that does not decode raises IllegalInstruction(IR) (R461, R505). -/
theorem ends_executeDecoded_of_illegal {s : State} (h : ∃ e, decode s.ir s.dr = .illegal e) :
    Ends (FaultTaken .illegalInstruction s.ir.toNat .defect s) s.executeDecoded := by
  obtain ⟨e, he⟩ := h
  rw [State.executeDecoded_eq, he]
  exact Ends.next (faultTaken_raise s .illegalInstruction _ .defect rfl)

/-! ### The words of every well-formed instruction -/

theorem encodes_sys (k : Byte) : Encodes (.sys k) (BitVec.ofNat 16 (0x0100 + k.toNat)) := by
  obtain ⟨ht, hop, hk⟩ := sysWord_fields k
  exact encodes_misc ht rfl (by simp [decodeMisc, hop, hk])

theorem encodes_push (v r : Reg) : Encodes (.push v r) (nibbles 0x2 0x0 v.toNib r.toNib) :=
  encodes_stack (by simp) (by simp) rfl (by simp [decodeStack])

theorem encodes_pop (v r : Reg) : Encodes (.pop v r) (nibbles 0x2 0x1 v.toNib r.toNib) :=
  encodes_stack (by simp) (by simp) rfl (by simp [decodeStack])

theorem encodes_drop (r : Reg) : Encodes (.drop r) (nibbles 0x2 0x4 0 r.toNib) :=
  encodes_stack (by simp) (by simp) rfl (by simp [decodeStack])

theorem encodes_rot (r : Reg) : Encodes (.rot r) (nibbles 0x2 0x6 0 r.toNib) :=
  encodes_stack (by simp) (by simp) rfl (by simp [decodeStack])

theorem encodes_sop (f : AluOp) (r : Reg) : Encodes (.sop f r) (nibbles 0x2 0x7 f.toNib r.toNib) :=
  encodes_stack (by simp) (by simp) rfl (by simp [decodeStack, decodeSop])

theorem encodesPair_pushi (w : Word) (r : Reg) : EncodesPair (.pushi w r) (nibbles 0x2 0xF 0 r.toNib) w := by
  have ht : typeOf (nibbles 0x2 0xF 0 r.toNib) = 0x2 := typeOf_nibbles ..
  refine ⟨rfl, by rw [doubleWord_of_typeOf_stack ht, opOf_nibbles]; rfl, ?_⟩
  rw [decode_of_typeOf_stack ht]
  simp [decodeStack]

theorem encodes_lbr (b o t : Reg) : Encodes (.lbr b o t) (nibbles 0x5 b.toNib o.toNib t.toNib) :=
  encodes_indexed (by simp) rfl (by simp [decodeLenient])

theorem encodesPair_lb (t : Reg) (w : Word) : EncodesPair (.lb t w) (nibbles 0x8 0x2 t.toNib 0) w :=
  encodesPair_load (by simp) (by simp) rfl (by simp [decodeLoad])

theorem encodesPair_lbo (t o : Reg) (w : Word) : EncodesPair (.lbo t o w) (nibbles 0x8 0x3 t.toNib o.toNib) w :=
  encodesPair_load (by simp) (by simp) rfl (by simp [decodeLoad])

theorem encodesPair_la (t : Reg) (w : Word) : EncodesPair (.la t w) (nibbles 0x8 0x9 t.toNib 0) w :=
  encodesPair_load (by simp) (by simp) rfl (by simp [decodeLoad])

/-- Every well-formed instruction is one word or a word and its second word. -/
theorem encodes_or_encodesPair {i : Instr} (hi : i.wellFormed = true) :
    (∃ w, Encodes i w) ∨ ∃ w w2, EncodesPair i w w2 := by
  cases i with
  | mov d r => exact .inl ⟨_, encodes_mov d r⟩
  | sys k => exact .inl ⟨_, encodes_sys k⟩
  | inc r n => exact .inl ⟨_, encodes_inc r n⟩
  | dec r n => exact .inl ⟨_, encodes_dec r n⟩
  | seti r n => exact .inl ⟨_, encodes_seti r n⟩
  | nop => exact .inl ⟨_, encodes_nop⟩
  | add d r => exact .inl ⟨_, encodes_binaryForm (op := .add) rfl d r⟩
  | sub d r => exact .inl ⟨_, encodes_binaryForm (op := .sub) rfl d r⟩
  | mul d r => exact .inl ⟨_, encodes_binaryForm (op := .mul) rfl d r⟩
  | div d r => exact .inl ⟨_, encodes_binaryForm (op := .div) rfl d r⟩
  | mod d r => exact .inl ⟨_, encodes_binaryForm (op := .mod) rfl d r⟩
  | and d r => exact .inl ⟨_, encodes_binaryForm (op := .and) rfl d r⟩
  | or d r => exact .inl ⟨_, encodes_binaryForm (op := .or) rfl d r⟩
  | xor d r => exact .inl ⟨_, encodes_binaryForm (op := .xor) rfl d r⟩
  | shl d r => exact .inl ⟨_, encodes_binaryForm (op := .shl) rfl d r⟩
  | shr d r => exact .inl ⟨_, encodes_binaryForm (op := .shr) rfl d r⟩
  | min d r => exact .inl ⟨_, encodes_binaryForm (op := .min) rfl d r⟩
  | max d r => exact .inl ⟨_, encodes_binaryForm (op := .max) rfl d r⟩
  | not d => exact .inl ⟨_, encodes_unaryForm (op := .not) rfl d⟩
  | lnot d => exact .inl ⟨_, encodes_unaryForm (op := .lnot) rfl d⟩
  | neg d => exact .inl ⟨_, encodes_unaryForm (op := .neg) rfl d⟩
  | addi d w => exact .inr ⟨_, w, encodesPair_immediateForm (op := .add) rfl d w⟩
  | subi d w => exact .inr ⟨_, w, encodesPair_immediateForm (op := .sub) rfl d w⟩
  | muli d w => exact .inr ⟨_, w, encodesPair_immediateForm (op := .mul) rfl d w⟩
  | divi d w => exact .inr ⟨_, w, encodesPair_immediateForm (op := .div) rfl d w⟩
  | modi d w => exact .inr ⟨_, w, encodesPair_immediateForm (op := .mod) rfl d w⟩
  | andi d w => exact .inr ⟨_, w, encodesPair_immediateForm (op := .and) rfl d w⟩
  | ori d w => exact .inr ⟨_, w, encodesPair_immediateForm (op := .or) rfl d w⟩
  | xori d w => exact .inr ⟨_, w, encodesPair_immediateForm (op := .xor) rfl d w⟩
  | shli d w => exact .inr ⟨_, w, encodesPair_immediateForm (op := .shl) rfl d w⟩
  | shri d w => exact .inr ⟨_, w, encodesPair_immediateForm (op := .shr) rfl d w⟩
  | mini d w => exact .inr ⟨_, w, encodesPair_immediateForm (op := .min) rfl d w⟩
  | maxi d w => exact .inr ⟨_, w, encodesPair_immediateForm (op := .max) rfl d w⟩
  | push v r => exact .inl ⟨_, encodes_push v r⟩
  | pop v r => exact .inl ⟨_, encodes_pop v r⟩
  | dup r => exact .inl ⟨_, encodes_dup r⟩
  | swap r => exact .inl ⟨_, encodes_swap r⟩
  | drop r => exact .inl ⟨_, encodes_drop r⟩
  | overItem r => exact .inl ⟨_, encodes_overItem r⟩
  | rot r => exact .inl ⟨_, encodes_rot r⟩
  | sop f r => exact .inl ⟨_, encodes_sop f r⟩
  | pushi w r => exact .inr ⟨_, w, encodesPair_pushi w r⟩
  | eq r q => exact .inl ⟨_, encodes_registerForm .eq r q⟩
  | neq r q => exact .inl ⟨_, encodes_registerForm .neq r q⟩
  | gt r q => exact .inl ⟨_, encodes_registerForm .gt r q⟩
  | gte r q => exact .inl ⟨_, encodes_registerForm .gte r q⟩
  | lt r q => exact .inl ⟨_, encodes_registerForm .lt r q⟩
  | lte r q => exact .inl ⟨_, encodes_registerForm .lte r q⟩
  | eqi r n => exact .inl ⟨_, encodes_constantForm .eq r n⟩
  | neqi r n => exact .inl ⟨_, encodes_constantForm .neq r n⟩
  | gti r n => exact .inl ⟨_, encodes_constantForm .gt r n⟩
  | gtei r n => exact .inl ⟨_, encodes_constantForm .gte r n⟩
  | lti r n => exact .inl ⟨_, encodes_constantForm .lt r n⟩
  | ltei r n => exact .inl ⟨_, encodes_constantForm .lte r n⟩
  | lwr b o t => exact .inl ⟨_, encodes_lwr b o t⟩
  | lbr b o t => exact .inl ⟨_, encodes_lbr b o t⟩
  | swr b o t => exact .inl ⟨_, encodes_swr b o t⟩
  | sbr b o t => exact .inl ⟨_, encodes_sbr b o t⟩
  | lw t w => exact .inr ⟨_, w, encodesPair_lw t w⟩
  | lwo t o w => exact .inr ⟨_, w, encodesPair_lwo t o w⟩
  | lb t w => exact .inr ⟨_, w, encodesPair_lb t w⟩
  | lbo t o w => exact .inr ⟨_, w, encodesPair_lbo t o w⟩
  | sw t w => exact .inr ⟨_, w, encodesPair_sw t w⟩
  | swo t o w => exact .inr ⟨_, w, encodesPair_swo t o w⟩
  | sb t w => exact .inr ⟨_, w, encodesPair_sb t w⟩
  | sbo t o w => exact .inr ⟨_, w, encodesPair_sbo t o w⟩
  | li t w => exact .inr ⟨_, w, encodesPair_li t w⟩
  | la t w => exact .inr ⟨_, w, encodesPair_la t w⟩
  | jr r => exact .inl ⟨_, encodes_jr (of_decide_eq_true hi)⟩
  | ret => exact .inl ⟨_, encodes_ret⟩
  | j a => exact .inl ⟨_, encodes_j a⟩
  | jz a => exact .inl ⟨_, encodes_jz a⟩
  | jnz a => exact .inl ⟨_, encodes_jnz a⟩
  | jal a => exact .inl ⟨_, encodes_jal a⟩

/-! ### Decoding an encoding -/

/-- A word without a nonzero unused field decodes alike under either value of STRICT_UNUSED_FIELDS (R125, R126). -/
theorem decodeWith_of_unusedNonzero_eq_false {w : Word} (h : unusedNonzero w = false) (strict : Bool) (dr : Word) :
    decodeWith strict w dr = decode w dr := by
  simp [decodeWith, decode_eq_decodeLenient, h]

/-- The first word of an encoding is canonical: it is what the instruction it decodes to encodes as. -/
theorem unusedNonzero_of_decode_encode {w dr : Word} {i : Instr} (hd : decode w dr = .ok i)
    (he : (encode i).head? = some w) : unusedNonzero w = false := by
  obtain ⟨-, hword⟩ := canonicallyEncodes_of_decode hd
  have hw : canonicalWord w = w := by
    rw [hword] at he
    split at he <;> exact Option.some.inj he
  rw [← hw]
  exact unusedNonzero_canonicalWord w

theorem decodeWith_of_encodes {i : Instr} {w : Word} (h : Encodes i w) (strict : Bool) (dr : Word) :
    decodeWith strict w dr = .ok i := by
  obtain ⟨he, -, hd⟩ := h
  rw [decodeWith_of_unusedNonzero_eq_false (unusedNonzero_of_decode_encode (hd 0) (by rw [he]; rfl)), hd]

theorem decodeWith_of_encodesPair {i : Instr} {w w2 : Word} (h : EncodesPair i w w2) (strict : Bool) :
    decodeWith strict w w2 = .ok i := by
  obtain ⟨he, -, hd⟩ := h
  rw [decodeWith_of_unusedNonzero_eq_false (unusedNonzero_of_decode_encode hd (by rw [he]; rfl)), hd]

theorem decodeBytes_of_encodes {i : Instr} {w : Word} (h : Encodes i w) (rest : List Byte) :
    decodeBytes (encodeBytes i ++ rest) = .ok i rest := by
  obtain ⟨he, hdouble, hd⟩ := h
  simp [encodeBytes, he, decodeBytes, hdouble, hd]

theorem decodeBytes_of_encodesPair {i : Instr} {w w2 : Word} (h : EncodesPair i w w2) (rest : List Byte) :
    decodeBytes (encodeBytes i ++ rest) = .ok i rest := by
  obtain ⟨he, hdouble, hd⟩ := h
  simp [encodeBytes, he, decodeBytes, hdouble, hd]

/-! ### The length of an encoding -/

/-- As many words as the first word says, for every instruction: `jr ra`, which is not well-formed, has the word of `ret`
(R102, R452). -/
theorem length_encode (i : Instr) : (encode i).length = if doubleWord ((encode i).headD 0) then 2 else 1 := by
  have of_wellFormed {i : Instr} (hi : i.wellFormed = true) :
      (encode i).length = if doubleWord ((encode i).headD 0) then 2 else 1 := by
    rcases encodes_or_encodesPair hi with ⟨w, he, hdouble, -⟩ | ⟨w, w2, he, hdouble, -⟩ <;> simp [he, hdouble]
  by_cases hi : i.wellFormed = true
  · exact of_wellFormed hi
  · cases i
    case jr r =>
      obtain rfl : r = .ra := by simpa [Instr.wellFormed] using hi
      exact of_wellFormed (i := .ret) rfl
    all_goals exact absurd rfl hi

end Sys2Proof.Machine
end

section
/-! The obligations about the encoding. -/

namespace Sys2Proof.Machine

/-- Settles O2: the words of every well-formed instruction decode to it, and are canonical. -/
theorem decodeOfEncode : Obligations.DecodeOfEncode := by
  unfold Obligations.DecodeOfEncode
  intro i hi
  rcases encodes_or_encodesPair hi with ⟨w, hone⟩ | ⟨w, w2, htwo⟩
  · refine ⟨decodeBytes_of_encodes hone, fun strict dr => ?_⟩
    rw [hone.1]
    exact decodeWith_of_encodes hone strict _
  · refine ⟨decodeBytes_of_encodesPair htwo, fun strict dr => ?_⟩
    rw [htwo.1]
    exact decodeWith_of_encodesPair htwo strict

/-- Settles O3, table by table of the decoder. -/
theorem encodeOfDecode : Obligations.EncodeOfDecode := by
  unfold Obligations.EncodeOfDecode
  exact fun _ _ _ hd => canonicallyEncodes_of_decode hd

/-- Settles O4: the high byte is the type and the opcode, and the encoder emits what the first word announces. -/
theorem instructionLength : Obligations.InstructionLength := by
  unfold Obligations.InstructionLength
  refine ⟨fun w => ?_, length_encode⟩
  have htype := (typeOf w).isLt
  have hop := (opOf w).isLt
  rw [doubleWord_iff, ← hiByte_eq_extractLsb', ← BitVec.toNat_inj, ← BitVec.toNat_inj, toNat_hiByte]
  simp only [BitVec.reduceToNat]
  omega

/-- Settles O5: the decoder's rejections by the numbers of the fields, which are the slices of bits the statement names. -/
theorem reservedWords : Obligations.ReservedWords := by
  unfold Obligations.ReservedWords
  simp only [← typeOf_eq_extractLsb', ← opOf_eq_extractLsb', ← fieldHi_eq_extractLsb', ← fieldLo_eq_extractLsb']
  refine ⟨illegal_decode_iff, fun w dr => ?strict, fun s hs => ?executed⟩
  case strict => rw [illegal_decodeWith_true_iff, illegal_decode_iff, unusedNonzero_iff]
  case executed => exact ends_executeDecoded_of_illegal ((illegal_decode_iff s.ir s.dr).mpr hs)

/-- Settles O6: the tables read an instruction with an unused field from its other fields alone. -/
theorem unusedFieldsIgnored : Obligations.UnusedFieldsIgnored := by
  unfold Obligations.UnusedFieldsIgnored
  refine ⟨fun x y dr => (decode_of_typeOf_misc (by simp) dr).trans (decodeMisc_nop x y), rfl, fun r x dr => ?alu,
    fun r x dr => ?stack, fun r x dr => ?load, fun r x y dr => ?jr⟩
  case alu => simp [decode_of_typeOf_alu, decodeAlu, encode]
  case stack => simp [decode_of_typeOf_stack, decodeStack, encode]
  case load => simp [decode_of_typeOf_load, decodeLoad, encode]
  case jr =>
    refine ⟨?_, encode_jumpRegister r⟩
    simp [decode_eq_decodeLenient, decodeLenient, decodeJr_eq_jumpRegister, jumpRegister]

/-- Settles O1: each sample is decoded. -/
theorem sampleWordsDecode : Obligations.SampleWordsDecode := by
  unfold Obligations.SampleWordsDecode
  decide

end Sys2Proof.Machine
end

section
/-! SUPPORT. The services: what the machine does with an answer of the host, the frame of an answer held to an effect class,
the message scan, the format scan, and the raw memory copy. -/

namespace Sys2Proof.Machine

/-! ### The host's requests, one after the other -/

theorem hostRan_cons_of_passes {x : HostAction} (h : hostFaultAt x = none) (s : State) (rest : List HostAction) :
    s.hostRan (x :: rest) = (s.hostApplied x).hostRan rest := by
  simp only [State.hostRan, h]

theorem hostRan_cons_of_fails {x : HostAction} {a : Int} (h : hostFaultAt x = some a) (s : State)
    (rest : List HostAction) : s.hostRan (x :: rest) = (s, some a) := by
  simp only [State.hostRan, h]

/-- Requests that all pass are performed one after the other, and what follows goes on from there. -/
theorem hostRan_append_of_passes {as : List HostAction} (h : ∀ x ∈ as, hostFaultAt x = none) (s : State)
    (rest : List HostAction) : s.hostRan (as ++ rest) = (as.foldl State.hostApplied s).hostRan rest := by
  induction as generalizing s with
  | nil => rfl
  | cons x as ih =>
    rw [List.cons_append, hostRan_cons_of_passes (h x (by simp)), ih fun y hy => h y (by simp [hy])]
    rfl

theorem hostRan_of_passes {as : List HostAction} (h : ∀ x ∈ as, hostFaultAt x = none) (s : State) :
    s.hostRan as = (as.foldl State.hostApplied s, none) := by
  simpa [State.hostRan] using hostRan_append_of_passes h s []

/-- A failure is that of one of the requests. -/
theorem exists_of_hostRan_fails {as : List HostAction} {s : State} {a : Int} (h : (s.hostRan as).2 = some a) :
    ∃ x ∈ as, hostFaultAt x = some a := by
  induction as generalizing s with
  | nil => simp [State.hostRan] at h
  | cons x as ih =>
    cases hx : hostFaultAt x with
    | some b =>
      rw [hostRan_cons_of_fails hx] at h
      exact ⟨x, by simp, hx.trans h⟩
    | none =>
      rw [hostRan_cons_of_passes hx] at h
      obtain ⟨y, hy, hfault⟩ := ih h
      exact ⟨y, by simp [hy], hfault⟩

/-- Where no failure is met, every request passes. -/
theorem passes_of_hostRan_none {as : List HostAction} {s : State} (h : (s.hostRan as).2 = none) :
    ∀ x ∈ as, hostFaultAt x = none := by
  induction as generalizing s with
  | nil => simp
  | cons x as ih =>
    cases hx : hostFaultAt x with
    | some b => simp [hostRan_cons_of_fails hx] at h
    | none =>
      rw [hostRan_cons_of_passes hx] at h
      simpa [hx] using ih h

/-- A property that every request keeps holds of the state the requests end in. -/
theorem hostRan_induction {P : State → Prop} {as : List HostAction} {s : State} (hs : P s)
    (hstep : ∀ x ∈ as, ∀ u, P u → hostFaultAt x = none → P (u.hostApplied x)) : P (s.hostRan as).1 := by
  induction as generalizing s with
  | nil => exact hs
  | cons x as ih =>
    cases hx : hostFaultAt x with
    | some b => rwa [hostRan_cons_of_fails hx]
    | none =>
      rw [hostRan_cons_of_passes hx]
      exact ih (hstep x (by simp) s hs hx) fun y hy => hstep y (by simp [hy])

/-- A request fails at an address that is no word's; a byte's is no byte's either (R73). -/
theorem not_wordFits_of_hostFaultAt {x : HostAction} {a : Int} (h : hostFaultAt x = some a) : ¬ wordFits a := by
  rcases x with ⟨b, _ | _⟩ | ⟨b, _ | _, v⟩ | _ <;> simp only [hostFaultAt] at h <;> grind

@[simp] theorem hostApplied_setReg (s : State) (r : ServiceReg) (v : Word) :
    s.hostApplied (.setReg r v) = s.write (serviceReg r) v := by
  cases r <;> rfl

/-- A request changes registers and memory only. -/
theorem hostApplied_rest (s : State) (x : HostAction) :
    s.hostApplied x = { s with regs := (s.hostApplied x).regs, mem := (s.hostApplied x).mem } := by
  rcases x with _ | ⟨_, _ | _, _⟩ | ⟨_ | _, _⟩ <;> rfl

/-- The requests change registers and memory only. -/
theorem hostRan_rest (s : State) (as : List HostAction) :
    (s.hostRan as).1 = { s with regs := (s.hostRan as).1.regs, mem := (s.hostRan as).1.mem } := by
  refine hostRan_induction (P := fun u => u = { s with regs := u.regs, mem := u.mem }) rfl fun x _ u hu _ => ?_
  rw [hostApplied_rest u x, hu]

/-- A register none of the requests names keeps its value. -/
theorem read_hostRan {q : Reg} {as : List HostAction} (h : ∀ r v, .setReg r v ∈ as → q ≠ serviceReg r) (s : State) :
    (s.hostRan as).1.read q = s.read q := by
  refine hostRan_induction (P := fun u => u.read q = s.read q) rfl fun x hx u hu _ => ?_
  rcases x with _ | ⟨_, _ | _, _⟩ | ⟨r, v⟩
  case setReg => rw [hostApplied_setReg, State.read_write, if_neg (h r v hx), hu]
  all_goals exact hu

/-- Requests none of which is a write leave memory alone. -/
theorem mem_hostRan {as : List HostAction} (h : ∀ a n v, HostAction.write a n v ∉ as) (s : State) :
    (s.hostRan as).1.mem = s.mem := by
  refine hostRan_induction (P := fun u => u.mem = s.mem) rfl fun x hx u hu _ => ?_
  rcases x with _ | ⟨_, _, _⟩ | ⟨r, v⟩
  case read => exact hu
  case write => exact absurd hx (h _ _ _)
  case setReg => rwa [hostApplied_setReg]

/-! ### A call of the host -/

/-- A call is the answer performed in the state with the call counted (R522). -/
theorem State.callHost_eq (s : State) (k : Byte) (h : HostService) :
    s.callHost k h = .next (s.called.afterAnswer k (s.hostAnswer h)) := by
  have hcalled : ({ s with hostCalls := s.hostCalls + 1 } : State) = s.called := rfl
  simp only [State.callHost, hcalled]
  cases s.hostAnswer h with
  | values actions =>
    simp only [State.hostActions_eq, State.afterAnswer]
    rcases s.called.hostRan actions with ⟨t, _ | a⟩ <;> rfl
  | memoryFault a => rfl
  | serviceError => rfl

/-- Every request is of the class of the raw memory copy. -/
theorem permits_memcopy (loaded : Bool) (x : HostAction) : (serviceEffects .memcopy loaded).permits x = true := by
  rcases x with _ | _ | ⟨_ | _, _⟩ <;> rfl

/-- Every answer is one held to the effect class of its service: that of a sleep and that of a raw memory copy are of their
classes (R520). -/
theorem hostAnswer_eq_heldTo (s : State) (h : HostService) :
    ∃ ans, s.hostAnswer h = heldTo (serviceEffects h s.spriteLoaded) .allow ans := by
  cases h
  case sleep => exact ⟨.values [], rfl⟩
  case memcopy =>
    refine ⟨s.copyAnswer (Config.copyArgs s.serviceArgs), ?_⟩
    rw [State.copyAnswer, heldTo, List.filter_eq_self.mpr fun x _ => permits_memcopy _ x]
    rfl
  all_goals exact ⟨_, rfl⟩

/-- An answer to a service other than the raw memory copy is the host's, held to the effect class (R520); of a `sleep`'s
class there is only the empty answer. -/
theorem hostAnswer_of_ne_memcopy (s : State) {h : HostService} (hh : h ≠ .memcopy) :
    s.hostAnswer h = heldTo (serviceEffects h s.spriteLoaded) .allow
      (Config.hostAnswer s.hostCalls h s.serviceArgs s.mem s.sprites) := by
  cases h
  case memcopy => exact absurd rfl hh
  case sleep =>
    rw [State.hostAnswer]
    cases Config.hostAnswer s.hostCalls .sleep s.serviceArgs s.mem s.sprites with
    | values as =>
      have hnone (x : HostAction) : (serviceEffects .sleep s.spriteLoaded).permits x = false := by
        cases x <;> rfl
      rw [heldTo, List.filter_eq_nil_iff.mpr fun x _ => by simp [hnone]]
    | memoryFault a => rfl
    | serviceError => rfl
  all_goals rfl

/-- A MemoryFault at an address whose check fails is of every class that accesses memory (R503). -/
theorem heldTo_memoryFault {e : ServiceEffects} {a : Int} (he : e.reads = true ∨ e.writes = true) (ha : ¬ wordFits a) :
    heldTo e .allow (.memoryFault a) = .memoryFault a := by
  have hok : accessOk .allow a .word = false := by
    rw [Bool.eq_false_iff]
    exact fun h => ha ((inRange_word a).mp (inRange_of_accessOk h))
  simp [heldTo, he, hok]

/-! ### The frame of an answer held to an effect class -/

/-- What an answer held to an effect class may change: the registers and memory of the class, and the status and the fault
record by a fault of the class. -/
structure AnswerFrame (e : ServiceEffects) (selector : Byte) (s t : State) : Prop where
  rest : t = { s with regs := t.regs, mem := t.mem, status := t.status, fault := t.fault }
  registers : ∀ q, q ∉ e.registers.map serviceReg → t.read q = s.read q
  memory : e.writes = false → t.mem = s.mem
  fault : t.status = s.status ∧ t.fault = s.fault ∨
    t.status = .permanentError ∧
      (t.fault.cause = .memoryFault ∧ ¬ wordFits t.fault.info ∧ (e.reads = true ∨ e.writes = true) ∨
        t.fault.cause = .serviceError ∧ t.fault.info = selector.toNat ∧ e.serviceError = true)

/-- A state that has only taken a fault of the class. -/
theorem answerFrame_raise {e : ServiceEffects} {k : Byte} {s : State} {c : FaultCause} {info : Int}
    (h : c = .memoryFault ∧ ¬ wordFits info ∧ (e.reads = true ∨ e.writes = true) ∨
      c = .serviceError ∧ info = k.toNat ∧ e.serviceError = true) : AnswerFrame e k s (s.raise c info) := by
  have hhalt : c.haltStatus = some .permanentError := by rcases h with ⟨rfl, -⟩ | ⟨rfl, -⟩ <;> rfl
  rw [State.raise_of_halt s c info _ hhalt]
  exact ⟨rfl, fun _ _ => rfl, fun _ => rfl, .inr ⟨rfl, h⟩⟩

theorem answerFrame_self (e : ServiceEffects) (k : Byte) (s : State) : AnswerFrame e k s s :=
  ⟨rfl, fun _ _ => rfl, fun _ => rfl, .inl ⟨rfl, rfl⟩⟩

/-- A request that fails its check is one that accesses memory. -/
theorem accesses_of_hostFaultAt {e : ServiceEffects} {x : HostAction} {a : Int} (hp : e.permits x = true)
    (h : hostFaultAt x = some a) : e.reads = true ∨ e.writes = true := by
  cases x with
  | read => exact .inl hp
  | write => exact .inr hp
  | setReg => cases h

/-- Requests of the class stay in its frame, and so does the fault of the first that fails. -/
theorem answerFrame_values {e : ServiceEffects} {as : List HostAction} (h : ∀ x ∈ as, e.permits x = true) (k : Byte)
    (s : State) : AnswerFrame e k s (s.afterAnswer k (.values as)) := by
  have hregs : ∀ q, q ∉ e.registers.map serviceReg → (s.hostRan as).1.read q = s.read q := fun q hq =>
    read_hostRan (fun r v hx hqr => hq (by rw [hqr]; exact List.mem_map_of_mem (of_decide_eq_true (h _ hx)))) s
  have hmem : e.writes = false → (s.hostRan as).1.mem = s.mem := fun hw =>
    mem_hostRan (fun a n v hx => by simpa [ServiceEffects.permits, hw] using h _ hx) s
  have hrest := hostRan_rest s as
  rw [State.afterAnswer]
  rcases hran : s.hostRan as with ⟨t, _ | a⟩
  all_goals simp only [hran] at hrest hregs hmem ⊢
  · exact ⟨by rw [hrest], hregs, hmem, .inl (by rw [hrest]; exact ⟨rfl, rfl⟩)⟩
  · obtain ⟨x, hx, hfault⟩ := exists_of_hostRan_fails (congrArg Prod.snd hran)
    have haccess := accesses_of_hostFaultAt (h x hx) hfault
    rw [State.raise_of_halt t .memoryFault a .permanentError rfl]
    exact ⟨by rw [hrest], hregs, hmem, .inr ⟨rfl, .inl ⟨rfl, not_wordFits_of_hostFaultAt hfault, haccess⟩⟩⟩

/-- An answer held to a class stays in its frame. -/
theorem answerFrame_heldTo (e : ServiceEffects) (ans : HostAnswer) (k : Byte) (s : State) :
    AnswerFrame e k s (s.afterAnswer k (heldTo e .allow ans)) := by
  cases ans with
  | values as => exact answerFrame_values (fun x hx => (List.mem_filter.mp hx).2) k s
  | memoryFault a =>
    by_cases hok : ((e.reads || e.writes) && !accessOk .allow a .word) = true
    · simp only [heldTo, hok, if_true]
      refine answerFrame_raise (.inl ⟨rfl, ?_⟩)
      simp only [Bool.and_eq_true, Bool.or_eq_true, Bool.not_eq_true', Bool.eq_false_iff] at hok
      exact ⟨fun hfits => hok.2 ((accessOk_default a .word).trans ((inRange_word a).mpr hfits)), hok.1⟩
    · simp only [heldTo, hok]
      exact answerFrame_self e k s
  | serviceError =>
    by_cases he : e.serviceError = true
    · simp only [heldTo, he, if_true]
      exact answerFrame_raise (.inr ⟨rfl, rfl, he⟩)
    · simp only [heldTo, he]
      exact answerFrame_self e k s

/-! ### The frame of a service -/

/-- The classes that access memory (R520). -/
theorem serviceEffects_accesses {h : HostService} {loaded : Bool}
    (ha : (serviceEffects h loaded).reads = true ∨ (serviceEffects h loaded).writes = true) :
    h ∈ [.rstr, .wstr, .printf, .atoi, .rfile, .cwd, .chdir, .dirent, .memcopy] ∨ h = .drawimg ∧ loaded = false := by
  cases h <;> simp_all [serviceEffects]

/-- The one class whose answer may be ServiceError is that of a sprite draw with an index outside the loaded sprites
(R527). -/
theorem serviceEffects_serviceError {h : HostService} {loaded : Bool} (hs : (serviceEffects h loaded).serviceError = true) :
    h = .drawimg ∧ loaded = false := by
  cases h <;> simp_all [serviceEffects]

/-- The frame of a service is that of its effect class, with the call counted. -/
theorem serviceFrame_of_answerFrame {h : HostService} {k : Byte} {s t : State}
    (hf : AnswerFrame (serviceEffects h s.spriteLoaded) k s.called t) : ServiceFrame h k s t where
  rest := by rw [hf.rest]; rfl
  registers := fun q hq => hf.registers q fun hm => hq <| by
    obtain ⟨r, -, rfl⟩ := List.mem_map.mp hm
    cases r <;> simp [serviceReg]
  console := fun hh q hq => hf.registers q fun hm => hq <| by
    simp only [List.mem_cons, List.not_mem_nil, or_false] at hh
    rcases hh with rfl | rfl | rfl | rfl <;> simpa [serviceEffects, serviceReg] using hm
  result := fun hh q hq => hf.registers q fun hm => hq <| by
    simp only [List.mem_cons, List.not_mem_nil, or_false] at hh
    rcases hh with rfl | rfl | rfl | rfl | rfl | rfl <;> simpa [serviceEffects, serviceReg] using hm
  noResult := fun hh => RegFile.ext_read _ _ fun q => hf.registers q (by subst hh; simp [serviceEffects])
  memory := fun hh => hf.memory <| by
    rcases hh with hh | ⟨rfl, hloaded⟩
    · cases h <;> simp_all [serviceEffects]
    · simp [serviceEffects, hloaded]
  fault := by
    rcases hf.fault with hsame | ⟨hstatus, ⟨hc, hinfo, ha⟩ | ⟨hc, hinfo, he⟩⟩
    · exact .inl hsame
    · exact .inr ⟨hstatus, .inl ⟨hc, hinfo, serviceEffects_accesses ha⟩⟩
    · exact .inr ⟨hstatus, .inr ⟨hc, hinfo, .inr (serviceEffects_serviceError he)⟩⟩

theorem ends_callHost (s : State) (k : Byte) (h : HostService) : Ends (ServiceFrame h k s) (s.callHost k h) := by
  obtain ⟨ans, hans⟩ := hostAnswer_eq_heldTo s h
  rw [State.callHost_eq, hans]
  exact Ends.next (serviceFrame_of_answerFrame (answerFrame_heldTo _ ans k _))

/-- A state that has only taken a MemoryFault at an address that is no word's, or the ServiceError, of the formatted print. -/
theorem serviceFrame_printf_raise {k : Byte} {s : State} {c : FaultCause} {info : Int}
    (h : c = .memoryFault ∧ ¬ wordFits info ∨ c = .serviceError ∧ info = k.toNat) :
    ServiceFrame .printf k s (s.raise c info) := by
  have hhalt : c.haltStatus = some .permanentError := by rcases h with ⟨rfl, -⟩ | ⟨rfl, -⟩ <;> rfl
  rw [State.raise_of_halt s c info _ hhalt]
  refine ⟨rfl, fun _ _ => rfl, nofun, nofun, nofun, fun _ => rfl, .inr ⟨rfl, ?_⟩⟩
  rcases h with ⟨hc, hinfo⟩ | ⟨hc, hinfo⟩
  · exact .inl ⟨hc, hinfo, .inl (by simp)⟩
  · exact .inr ⟨hc, hinfo, .inl rfl⟩

/-! ### The format scan -/

/-- The scan ends in a fault of the formatted print or in what follows it.  Its bound is not met inside memory. -/
theorem ends_scanFormat {s : State} {k : Byte} {r : Result} (hr : Ends (ServiceFrame .printf k s) r) (fuel : Nat) (a : Int)
    (pending : Bool) (hfuel : a < 0 ∨ 4095 < a + fuel) :
    Ends (ServiceFrame .printf k s) (s.scanFormat k fuel a pending r) := by
  induction fuel generalizing a pending with
  | zero => exact Ends.next (serviceFrame_printf_raise (.inl ⟨rfl, by omega⟩))
  | succ n ih =>
    rw [State.scanFormat, State.loadByte_eq]
    split_ifs with hfits hzero hspec
    · exact hr
    · exact Ends.next (serviceFrame_printf_raise (.inr ⟨rfl, rfl⟩))
    · exact ih _ _ (by omega)
    · exact Ends.next (serviceFrame_printf_raise (.inl ⟨rfl, by omega⟩))

/-- Over characters that are no specifier, no zero byte and no `%%`, the scan goes on: with an open `%` only where the next
character is neither a specifier nor `%` (R523). -/
theorem scanFormat_plain {s : State} {k : Byte} {r : Result} {n fuel : Nat} {a : Int} {pending : Bool}
    (hn : n ≤ fuel) (h0 : 0 ≤ a) (hfits : a + n ≤ 4096)
    (hplain : ∀ i < n, s.mem.readByte (a.toNat + i) ≠ 0 ∧ (s.mem.readByte (a.toNat + i) = 0x25 →
      s.mem.readByte (a.toNat + (i + 1)) ∉ [(0x25 : Byte), 0x64, 0x63, 0x73]))
    (hpending : pending = true → s.mem.readByte a.toNat ∉ [(0x25 : Byte), 0x64, 0x63, 0x73]) :
    ∃ pending', (pending' = true → s.mem.readByte (a.toNat + n) ∉ [(0x25 : Byte), 0x64, 0x63, 0x73]) ∧
      s.scanFormat k fuel a pending r = s.scanFormat k (fuel - n) (a + n) pending' r := by
  induction n generalizing fuel a pending with
  | zero => exact ⟨pending, hpending, by simp⟩
  | succ n ih =>
    obtain ⟨fuel, rfl⟩ : ∃ m, fuel = m + 1 := ⟨fuel - 1, by omega⟩
    obtain ⟨hzero, hnext⟩ := hplain 0 (by omega)
    rw [Nat.add_zero] at hzero hnext
    have hshift (i : Nat) : (a + 1).toNat + i = a.toNat + (i + 1) := by omega
    have hspec : ¬ (pending = true ∧ (s.mem.readByte a.toNat = 0x64 ∨ s.mem.readByte a.toNat = 0x63 ∨
        s.mem.readByte a.toNat = 0x73)) := fun ⟨hp, hv⟩ => hpending hp (by simpa using .inr hv)
    obtain ⟨pending', hpending', hscan⟩ := ih (fuel := fuel) (a := a + 1)
      (pending := decide (s.mem.readByte a.toNat = 0x25) && !(pending && Config.percentPairSkips))
      (by omega) (by omega) (by omega) (fun i hi => by rw [hshift, hshift]; exact hplain (i + 1) (by omega))
      (fun hp => by
        simp only [Bool.and_eq_true, decide_eq_true_eq] at hp
        rw [← Nat.add_zero (a + 1).toNat, hshift]
        exact hnext hp.1)
    rw [hshift] at hpending'
    refine ⟨pending', hpending', ?_⟩
    rw [State.scanFormat, State.loadByte_eq, if_pos (by omega), if_neg hzero, if_neg hspec, hscan]
    congr 1
    · omega
    · omega

/-- A specifier after such characters raises ServiceError; the `%` before it is not the second of a pair (R507, R523). -/
theorem scanFormat_specifier {s : State} {k : Byte} {r : Result} {fuel : Nat} {a : Int} {pending : Bool} (hfuel : 2 ≤ fuel)
    (h0 : 0 ≤ a) (hfits : a + 1 ≤ 4095) (hpending : pending = false) (hpercent : s.mem.readByte a.toNat = 0x25)
    (hspec : s.mem.readByte (a.toNat + 1) ∈ [(0x64 : Byte), 0x63, 0x73]) :
    s.scanFormat k fuel a pending r = .next (s.raise .serviceError k.toNat) := by
  subst hpending
  obtain ⟨fuel, rfl⟩ : ∃ m, fuel = m + 2 := ⟨fuel - 2, by omega⟩
  have hshift : (a + 1).toNat = a.toNat + 1 := by omega
  have hnonzero : s.mem.readByte (a.toNat + 1) ≠ 0 := by
    intro hzero
    simp [hzero] at hspec
  rw [State.scanFormat, State.loadByte_eq, if_pos (by omega), hpercent, if_neg (by decide), if_neg (by simp),
    State.scanFormat, State.loadByte_eq, if_pos (by omega), hshift, if_neg hnonzero]
  exact if_pos ⟨by simp, by simpa using hspec⟩

/-- The scan ends at the zero byte, whether a `%` is open or not (R523). -/
theorem scanFormat_zero {s : State} {k : Byte} {r : Result} {fuel : Nat} {a : Int} {pending : Bool} (hfuel : 1 ≤ fuel)
    (h0 : 0 ≤ a) (hfits : a ≤ 4095) (hend : s.mem.readByte a.toNat = 0) : s.scanFormat k fuel a pending r = r := by
  obtain ⟨fuel, rfl⟩ : ∃ m, fuel = m + 1 := ⟨fuel - 1, by omega⟩
  rw [State.scanFormat, State.loadByte_eq, if_pos ⟨h0, hfits⟩, if_pos hend]

/-- The scan of a byte that cannot be read (R73). -/
theorem scanFormat_of_not_fits {s : State} {k : Byte} {r : Result} {fuel : Nat} {a : Int} {pending : Bool}
    (h : ¬ byteFits a) : s.scanFormat k (fuel + 1) a pending r = .next (s.raise .memoryFault a) := by
  rw [State.scanFormat, State.loadByte_eq, if_neg h]

/-! ### The message scan -/

theorem messageFuel_eq : messageFuel = 4097 := rfl

/-- The scan ends in a MemoryFault or in what follows it. -/
theorem ends_readMessage {Q : State → Prop} {s : State} (hfault : ∀ a, Q (s.raise .memoryFault a)) (fuel : Nat) (a : Int)
    {k : List Byte → Result} (hk : ∀ bytes, Ends Q (k bytes)) : Ends Q (s.readMessage fuel a k) := by
  induction fuel generalizing a k with
  | zero => exact Ends.next (hfault a)
  | succ n ih =>
    rw [State.readMessage, State.loadByte_eq]
    split_ifs
    · exact hk []
    · exact ih _ fun bytes => hk _
    · exact Ends.next (hfault a)

/-- A message that ends in memory is read up to its zero byte (R521). -/
theorem readMessage_of_terminated {s : State} {n fuel : Nat} {a : Int} {k : List Byte → Result} (hfuel : n < fuel)
    (h0 : 0 ≤ a) (hfits : a + n ≤ 4095) (hbytes : ∀ i < n, s.mem.readByte (a.toNat + i) ≠ 0)
    (hend : s.mem.readByte (a.toNat + n) = 0) :
    s.readMessage fuel a k = k ((List.range n).map fun i => s.mem.readByte (a.toNat + i)) := by
  induction n generalizing fuel a k with
  | zero =>
    obtain ⟨fuel, rfl⟩ : ∃ m, fuel = m + 1 := ⟨fuel - 1, by omega⟩
    rw [State.readMessage, State.loadByte_eq, if_pos (by omega), if_pos (show s.mem.readByte a.toNat = 0 from hend)]
    rfl
  | succ n ih =>
    obtain ⟨fuel, rfl⟩ : ∃ m, fuel = m + 1 := ⟨fuel - 1, by omega⟩
    have hshift (i : Nat) : (a + 1).toNat + i = a.toNat + (i + 1) := by omega
    have hfirst : s.mem.readByte a.toNat ≠ 0 := hbytes 0 (by omega)
    rw [State.readMessage, State.loadByte_eq, if_pos (by omega), if_neg hfirst, ih (by omega) (by omega) (by omega)
      (fun i hi => by rw [hshift]; exact hbytes _ (by omega)) (by rw [hshift]; exact hend)]
    simp only [hshift, List.range_succ_eq_map, List.map_cons, List.map_map, Nat.add_zero]
    rfl

/-- A message that does not end in memory faults at the first address after it (R521). -/
theorem readMessage_of_unterminated {s : State} {fuel : Nat} {a : Int} {k : List Byte → Result} (h0 : 0 ≤ a)
    (hfits : a ≤ 4096) (hfuel : 4096 ≤ a + fuel) (hbytes : ∀ b : Nat, a.toNat ≤ b → b ≤ 4095 → s.mem.readByte b ≠ 0) :
    s.readMessage fuel a k = .next (s.raise .memoryFault 4096) := by
  induction fuel generalizing a k with
  | zero =>
    obtain rfl : a = 4096 := by omega
    rfl
  | succ n ih =>
    rw [State.readMessage, State.loadByte_eq]
    by_cases hin : a ≤ 4095
    · rw [if_pos ⟨h0, hin⟩, if_neg (hbytes a.toNat le_rfl (by omega))]
      exact ih (by omega) (by omega) (by omega) fun b hb hb' => hbytes b (by omega) hb'
    · obtain rfl : a = 4096 := by omega
      rfl

/-- The scan of a message whose first byte cannot be read (R73). -/
theorem readMessage_of_not_fits {s : State} {fuel : Nat} {a : Int} {k : List Byte → Result} (h : ¬ byteFits a) :
    s.readMessage (fuel + 1) a k = .next (s.raise .memoryFault a) := by
  rw [State.readMessage, State.loadByte_eq, if_neg h]

/-! ### The raw memory copy -/

/-- What a raw memory copy asks for: reads of source and destination bytes, writes of destination bytes, and new values of
the argument and result registers (R524). -/
theorem mem_copyAccesses {c : CopyArgs} {steps : List CopyStep} {value : Nat → Byte} {x : HostAction}
    (h : x ∈ copyAccesses c steps value) :
    (∃ i < c.len, x = .read (c.src + i) .byte) ∨ (∃ i < c.len, x = .read (c.dst + i) .byte) ∨
      (∃ i < c.len, x = .write (c.dst + i) .byte ((value i).setWidth 16)) ∨ ∃ r v, x = .setReg r v := by
  obtain ⟨step, -, hx⟩ := List.mem_flatMap.mp h
  cases step <;> grind [copyStep]

/-- Every byte of a raw memory copy is read and written (R524). -/
theorem copyAccesses_complete {c : CopyArgs} (steps : List CopyStep) (value : Nat → Byte) {i : Nat} (hi : i < c.len) :
    .read (c.src + i) .byte ∈ copyAccesses c steps value ∧
      .write (c.dst + i) .byte ((value i).setWidth 16) ∈ copyAccesses c steps value := by
  have hstep : CopyStep.write i ∈ steps ++ (List.range c.len).map CopyStep.write := by simp [hi]
  exact ⟨List.mem_flatMap.mpr ⟨_, hstep, by simp [copyStep, hi]⟩, List.mem_flatMap.mpr ⟨_, hstep, by simp [copyStep, hi]⟩⟩

theorem hostFaultAt_readByte_eq_none_iff {a : Int} : hostFaultAt (.read a .byte) = none ↔ byteFits a := by
  simp [hostFaultAt]

theorem hostFaultAt_writeByte_eq_none_iff {a : Int} {v : Word} : hostFaultAt (.write a .byte v) = none ↔ byteFits a := by
  simp [hostFaultAt]

theorem hostApplied_writeByte (s : State) (a : Int) (b : Byte) :
    s.hostApplied (.write a .byte (b.setWidth 16)) = { s with mem := s.mem.writeByte a.toNat b } := by
  rw [State.hostApplied, ← loByte_eq_setWidth, loByte_setWidth]

/-- The requests keep the canonical form of memory. -/
theorem wf_hostRan {s : State} (hm : s.mem.wf = true) (as : List HostAction) : (s.hostRan as).1.mem.wf = true := by
  refine hostRan_induction (P := fun u => u.mem.wf = true) hm fun x _ u hu hpass => ?_
  rcases x with _ | ⟨a, _ | _, v⟩ | ⟨r, v⟩
  case read => exact hu
  case write.byte =>
    have hfits := hostFaultAt_writeByte_eq_none_iff.mp hpass
    exact Memory.wf_writeByte hu _ _ (by omega)
  case write.word =>
    have hfits : wordFits a := by simpa [hostFaultAt] using hpass
    exact Memory.wf_writeWord hu _ _ (by omega)
  case setReg => rwa [hostApplied_setReg]

theorem afterAnswer_values_mem (s : State) (k : Byte) (as : List HostAction) :
    (s.afterAnswer k (.values as)).mem = (s.hostRan as).1.mem := by
  rw [State.afterAnswer]
  rcases s.hostRan as with ⟨t, _ | a⟩
  · rfl
  · exact State.raise_mem ..

theorem afterAnswer_values_of_passes {as : List HostAction} (h : ∀ x ∈ as, hostFaultAt x = none) (s : State) (k : Byte) :
    s.afterAnswer k (.values as) = (s.hostRan as).1 := by
  rw [State.afterAnswer, hostRan_of_passes h]

/-- A copy writes no byte outside its destination. -/
theorem readByte_copy_outside {c : CopyArgs} {x : Nat} (hx : x < c.dst ∨ c.dst + c.len ≤ x) (s : State)
    (steps : List CopyStep) (value : Nat → Byte) :
    (s.hostRan (copyAccesses c steps value)).1.mem.readByte x = s.mem.readByte x := by
  refine hostRan_induction (P := fun u => u.mem.readByte x = s.mem.readByte x) rfl fun y hy u hu hpass => ?_
  rcases mem_copyAccesses hy with ⟨i, hi, rfl⟩ | ⟨i, hi, rfl⟩ | ⟨i, hi, rfl⟩ | ⟨r, v, rfl⟩
  · exact hu
  · exact hu
  · have hfits := hostFaultAt_writeByte_eq_none_iff.mp hpass
    rw [hostApplied_writeByte, ← hu]
    exact Memory.readByte_writeByte_ne _ _ _ _ (by omega)
  · rwa [hostApplied_setReg]

/-- A copy whose bytes all lie in memory passes every check. -/
theorem passes_of_copyFits {c : CopyArgs} (h : copyFits c) (steps : List CopyStep) (value : Nat → Byte) :
    ∀ x ∈ copyAccesses c steps value, hostFaultAt x = none := by
  intro x hx
  rcases mem_copyAccesses hx with ⟨i, hi, rfl⟩ | ⟨i, hi, rfl⟩ | ⟨i, hi, rfl⟩ | ⟨r, v, rfl⟩
  · exact hostFaultAt_readByte_eq_none_iff.mpr (h i hi).1
  · exact hostFaultAt_readByte_eq_none_iff.mpr (h i hi).2
  · exact hostFaultAt_writeByte_eq_none_iff.mpr (h i hi).2
  · rfl

/-- A destination byte, once written, holds its value to the end: only writes of that byte, of the same value, reach it. -/
theorem readByte_copy {c : CopyArgs} (hfits : copyFits c) {s : State} (hm : s.mem.wf = true) (steps : List CopyStep)
    (value : Nat → Byte) {i : Nat} (hi : i < c.len) :
    (s.hostRan (copyAccesses c steps value)).1.mem.readByte (c.dst + i).toNat = value i := by
  have hpass := passes_of_copyFits hfits steps value
  obtain ⟨before, after, hsplit⟩ := List.append_of_mem (copyAccesses_complete steps value hi).2
  rw [hsplit] at hpass
  have hbefore := hostRan_of_passes (as := before) (fun x hx => hpass x (by simp [hx])) s
  have hmbefore := wf_hostRan hm before
  rw [hbefore] at hmbefore
  rw [hsplit, hostRan_append_of_passes fun x hx => hpass x (by simp [hx]), hostRan_cons_of_passes (hpass _ (by simp)),
    hostApplied_writeByte]
  refine And.right (hostRan_induction (P := fun u => u.mem.wf = true ∧ u.mem.readByte (c.dst + i).toNat = value i)
    ⟨Memory.wf_writeByte hmbefore _ _ ?_, Memory.readByte_writeByte_self hmbefore _ _⟩ fun x hx u hu _ => ?_)
  · have := (hfits i hi).2
    omega
  · obtain ⟨hwf, hread⟩ := hu
    have hxc : x ∈ copyAccesses c steps value := by simp [hsplit, hx]
    rcases mem_copyAccesses hxc with ⟨j, hj, rfl⟩ | ⟨j, hj, rfl⟩ | ⟨j, hj, rfl⟩ | ⟨r, v, rfl⟩
    · exact ⟨hwf, hread⟩
    · exact ⟨hwf, hread⟩
    · have hfj := (hfits j hj).2
      have hfi := (hfits i hi).2
      rw [hostApplied_writeByte]
      refine ⟨Memory.wf_writeByte hwf _ _ (by omega), ?_⟩
      rw [Memory.readByte_writeByte hwf]
      split_ifs with hsame
      · rw [show j = i by omega]
      · exact hread
    · rw [hostApplied_setReg]
      exact ⟨hwf, hread⟩

/-- A copy with a byte outside memory meets a failing check, at an address of one of its ranges (R524). -/
theorem copy_fails_of_not_copyFits {c : CopyArgs} (h : ¬ copyFits c) (s : State) (steps : List CopyStep)
    (value : Nat → Byte) : ∃ a, (s.hostRan (copyAccesses c steps value)).2 = some a ∧ ¬ byteFits a ∧
      ∃ i < c.len, a = c.src + i ∨ a = c.dst + i := by
  cases hran : (s.hostRan (copyAccesses c steps value)).2 with
  | none =>
    have hpass := passes_of_hostRan_none hran
    refine absurd (fun i hi => ?_) h
    obtain ⟨hread, hwrite⟩ := copyAccesses_complete steps value hi
    exact ⟨hostFaultAt_readByte_eq_none_iff.mp (hpass _ hread), hostFaultAt_writeByte_eq_none_iff.mp (hpass _ hwrite)⟩
  | some a =>
    obtain ⟨x, hx, hfault⟩ := exists_of_hostRan_fails hran
    refine ⟨a, rfl, ?_⟩
    rcases mem_copyAccesses hx with ⟨i, hi, rfl⟩ | ⟨i, hi, rfl⟩ | ⟨i, hi, rfl⟩ | ⟨r, v, rfl⟩
    case inr.inr.inr => cases hfault
    all_goals
      simp only [hostFaultAt, Option.ite_none_left_eq_some, Option.some.injEq] at hfault
      obtain ⟨hout, rfl⟩ := hfault
      exact ⟨hout, i, hi, by simp⟩

/-- The bytes a copy of disjoint ranges writes are the source's (R524). -/
theorem copiedByte_of_copyDisjoint {c : CopyArgs} (h : copyDisjoint c) (s : State) (i : Nat) :
    s.copiedByte c i = s.mem.readByte (c.src + i).toNat := by
  refine if_neg ?_
  rw [copyOverlaps, decide_eq_true_eq]
  unfold copyDisjoint at h
  omega

/-- What a raw memory copy leaves, by whether its ranges lie in memory and whether they share a byte (R524). -/
theorem afterAnswer_copyAnswer {s : State} (hm : s.mem.wf = true) (k : Byte) (c : CopyArgs) :
    let t := s.called.afterAnswer k (s.copyAnswer c)
    t = { s.called with regs := t.regs, mem := t.mem, status := t.status, fault := t.fault } ∧
    (∀ q, q ∉ [Reg.a0, .a1, .a2, .a3, .rv] → t.read q = s.read q) ∧
    (∀ x : Nat, (x < c.dst ∨ c.dst + c.len ≤ x) → t.mem.readByte x = s.mem.readByte x) ∧
    (copyFits c → t.status = s.status ∧ t.fault = s.fault ∧
      (copyDisjoint c → ∀ i < c.len, t.mem.readByte (c.dst + i).toNat = s.mem.readByte (c.src + i).toNat)) ∧
    (¬ copyFits c → t.status = .permanentError ∧ t.fault.cause = .memoryFault ∧ ¬ byteFits t.fault.info ∧
      ∃ i < c.len, t.fault.info = c.src + i ∨ t.fault.info = c.dst + i) := by
  intro t
  obtain ⟨steps, value, hcopy, hvalue⟩ : ∃ steps value, s.copyAnswer c = .values (copyAccesses c steps value) ∧
      value = s.copiedByte c := ⟨_, _, rfl, rfl⟩
  have ht : t = s.called.afterAnswer k (.values (copyAccesses c steps value)) := by rw [← hcopy]
  have hframe : AnswerFrame (serviceEffects .memcopy true) k s.called t :=
    ht ▸ answerFrame_values (fun x _ => permits_memcopy true x) k s.called
  clear_value t
  refine ⟨hframe.rest, hframe.registers, fun x hx => ?outside, fun hfits => ?fits, fun hfits => ?faults⟩
  case outside => rw [ht, afterAnswer_values_mem, readByte_copy_outside hx]; rfl
  case fits =>
    rw [afterAnswer_values_of_passes (passes_of_copyFits hfits steps value)] at ht
    have hrest := hostRan_rest s.called (copyAccesses c steps value)
    rw [← ht] at hrest
    refine ⟨by rw [hrest]; rfl, by rw [hrest]; rfl, fun hdisjoint i hi => ?_⟩
    rw [ht, readByte_copy (s := s.called) hfits hm steps value hi, hvalue, copiedByte_of_copyDisjoint hdisjoint]
  case faults =>
    obtain ⟨a, hran, hout, hat⟩ := copy_fails_of_not_copyFits hfits s.called steps value
    rw [State.afterAnswer, ← Prod.mk.eta (p := s.called.hostRan _), hran] at ht
    subst ht
    exact ⟨rfl, rfl, hout, hat⟩

/-! ### The system call -/

/-- A result that is another one ends as that one does. -/
theorem Ends.congr {P : State → Prop} {r r' : Result} (h : r' = r) (hr : Ends P r) : Ends P r' := h ▸ hr

theorem exec_sys_error (s : State) : exec (.sys 0xFF) s = s.errorService := rfl

/-- The error service ends in a fault, and has written the message at most (R521). -/
theorem ends_errorService (s : State) : Ends (fun t => t.status = .permanentError ∧
    t = { s with status := t.status, fault := t.fault, errorMessage := t.errorMessage }) s.errorService :=
  ends_readMessage (fun _ => ⟨rfl, rfl⟩) _ _ fun _ => Ends.next ⟨rfl, rfl⟩

/-- A service the host answers stays in its frame; the formatted print scans its format first (R520, R523). -/
theorem ends_perform_host (s : State) (k : Byte) (h : HostService) :
    Ends (ServiceFrame h k s) (s.perform k (.host h)) := by
  cases h
  case printf => exact ends_scanFormat (ends_callHost s k .printf) _ _ _ (by rw [messageFuel_eq]; omega)
  all_goals exact ends_callHost s k _

end Sys2Proof.Machine
end

section
/-! The obligations about the services: the system call, the error service, the formatted print, the host's answers and the
raw memory copy. -/

namespace Sys2Proof.Machine

/-- Settles O46: the selector's service decides, and each service stays in its frame. -/
theorem systemCall : Obligations.SystemCall := by
  unfold Obligations.SystemCall
  refine ⟨fun k => ?encodes, rfl, rfl, fun s => rfl, fun k s => ?selected, fun k s => ?frame⟩
  case encodes => rw [← joinBytes_eq_append]; exact encodes_sys k
  case selected =>
    rw [exec_sys]
    rcases Config.serviceOf k with _ | _ | _ | h
    case some.host => cases h <;> rfl
    all_goals rfl
  case frame =>
    rw [exec_sys]
    rcases Config.serviceOf k with _ | _ | _ | h
    case none => exact Ends.next (faultTaken_raise s .illegalInstruction _ .defect rfl)
    case some.exit => exact Ends.next rfl
    case some.error => exact ends_errorService s
    case some.host => exact ends_perform_host s k h

/-- Settles O47: the scan of the message, which the machine reads before it raises ProgramError. -/
theorem errorService : Obligations.ErrorService := by
  unfold Obligations.ErrorService
  intro s msg
  rw [exec_sys_error, State.errorService]
  refine ⟨fun n h0 hfits hbytes hend => ?read, fun hfits => ?unreadable, fun hfits hbytes => ?unterminated⟩
  case read =>
    rw [readMessage_of_terminated (by rw [messageFuel_eq]; omega) h0 hfits hbytes hend]
    exact Ends.next (faultTaken_raise _ .programError _ .permanentError rfl)
  case unreadable =>
    rw [messageFuel, readMessage_of_not_fits hfits]
    exact ends_raise_memoryFault s _
  case unterminated =>
    rw [readMessage_of_unterminated hfits.1 (by omega) (by rw [messageFuel_eq]; omega) hbytes]
    exact ends_raise_memoryFault s _

/-- Settles O48: the scan passes the plain characters, then meets a specifier or the zero byte. -/
theorem formatSpecifiers : Obligations.FormatSpecifiers := by
  unfold Obligations.FormatSpecifiers
  intro k s a char plain
  rw [State.perform]
  refine ⟨fun n h0 hfits hplain hpercent hspec => ?specifier, fun n h0 hfits hplain hend => ?passes,
    fun hfits => ?unreadable⟩
  case specifier =>
    obtain ⟨pending, hpending, hscan⟩ := scanFormat_plain (k := k) (r := s.callHost k .printf) (pending := false)
      (show n ≤ messageFuel by rw [messageFuel_eq]; omega) h0 (by omega) hplain nofun
    have hshift : (a + n).toNat = a.toNat + n := by omega
    have hpercent' : s.mem.readByte (a.toNat + n) = 0x25 := hpercent
    have hclosed : pending = false := by
      by_contra hopen
      exact hpending (Bool.eq_true_of_not_eq_false hopen) (by simp [hpercent'])
    refine Ends.congr ?_ (Ends.next (faultTaken_raise s .serviceError _ .permanentError rfl))
    refine hscan.trans (scanFormat_specifier ?_ (by omega) (by omega) hclosed ?_ ?_)
    · rw [messageFuel_eq]; omega
    · rw [hshift]; exact hpercent
    · rw [hshift]; exact hspec
  case passes =>
    obtain ⟨pending, -, hscan⟩ := scanFormat_plain (k := k) (r := s.callHost k .printf) (pending := false)
      (show n ≤ messageFuel by rw [messageFuel_eq]; omega) h0 (by omega) hplain nofun
    refine hscan.trans (scanFormat_zero ?_ (by omega) (by omega) ?_)
    · rw [messageFuel_eq]; omega
    · rw [show (a + n).toNat = a.toNat + n by omega]; exact hend
  case unreadable =>
    refine Ends.congr ?_ (ends_raise_memoryFault s a)
    exact scanFormat_of_not_fits hfits

/-- Settles O49: the requests by the first that fails, the answers by their effect class, the copy by its ranges. -/
theorem hostRequestsInOrder : Obligations.HostRequestsInOrder := by
  unfold Obligations.HostRequestsInOrder
  refine ⟨fun s as k hpass => ?performed, fun s as rest x a k hpass hfault => ?fails, fun s k h hh => ?held,
    fun e as hall => ?ofClass, fun e a => heldTo_memoryFault, fun ans hans => ?draw, fun s k a => ⟨?fault, ?error⟩,
    fun s k => ?copies, fun s k c hm => afterAnswer_copyAnswer hm k c⟩
  case performed => rw [State.hostActions_eq, hostRan_of_passes hpass]
  case fails =>
    rw [State.hostActions_eq, hostRan_append_of_passes hpass, hostRan_cons_of_fails hfault]
    exact ends_raise_memoryFault _ a
  case held => rw [State.callHost_eq, hostAnswer_of_ne_memcopy s hh]
  case ofClass => rw [heldTo, List.filter_eq_self.mpr hall]
  case draw =>
    cases ans with
    | values as =>
      rw [heldTo, List.filter_eq_self.mpr fun x _ => ?_]
      rcases x with _ | _ | ⟨_ | _, _⟩ <;> rfl
    | memoryFault a => exact heldTo_memoryFault (.inl rfl) (hans a rfl)
    | serviceError => rfl
  case fault => exact faultTaken_raise s .memoryFault a .permanentError rfl
  case error => exact faultTaken_raise s .serviceError _ .permanentError rfl
  case copies => exact State.callHost_eq s k .memcopy

end Sys2Proof.Machine
end

section
/-! SUPPORT. The cycle: what a step is by what its fetch meets, and where PC stands when an instruction ends in a fault. -/

namespace Sys2Proof.Machine

/-! ### The step -/

theorem step_of_executing {s : State} (h : s.status = .executing) : step s = s.cycle := if_pos h

theorem step_of_not_executing {s : State} (h : s.status ≠ .executing) : step s = .next s := if_neg h

theorem State.executeDecoded_of_ok {s : State} {i : Instr} (h : decode s.ir s.dr = .ok i) :
    s.executeDecoded = exec i s := by
  rw [State.executeDecoded_eq, h]

theorem State.fetched_of_single {s : State} (h : doubleWord s.firstWord = false) :
    s.fetched = ({ s with ir := s.firstWord, dr := 0 } : State).write .pc (s.read .pc + 2) := by
  rw [State.fetched, h]
  rfl

theorem State.fetched_of_double {s : State} (h : doubleWord s.firstWord = true) :
    s.fetched = ({ s with ir := s.firstWord, dr := s.secondWord } : State).write .pc (s.read .pc + 4) := by
  rw [State.fetched, h]
  rfl

theorem State.fetchFits_of_single {s : State} (h : doubleWord s.firstWord = false) (hfit : wordFits s.ia) : s.fetchFits :=
  ⟨hfit, fun hd => by simp [h] at hd⟩

/-- The first fetch fails: nothing has changed (R460, R500). -/
theorem State.cycle_of_not_fits_first {s : State} (h : ¬ wordFits s.ia) :
    s.cycle = .next (s.raise .memoryFault s.ia) := by
  rw [State.cycle_eq, if_neg h]

/-- The second fetch fails: IR holds the first word (R460, R500). -/
theorem State.cycle_of_not_fits_second {s : State} (h : wordFits s.ia) (hd : doubleWord s.firstWord = true)
    (h2 : ¬ wordFits (s.ia + 2)) :
    s.cycle = .next (({ s with ir := s.firstWord } : State).raise .memoryFault (s.ia + 2)) := by
  rw [State.cycle_eq, if_pos h, if_pos hd, if_neg h2]

/-- A fetch that fits not at its second word: the first word is one of a double word and the second word is out of range. -/
theorem State.second_of_not_fetchFits {s : State} (h : wordFits s.ia) (hf : ¬ s.fetchFits) :
    doubleWord s.firstWord = true ∧ ¬ wordFits (s.ia + 2) := by
  unfold State.fetchFits at hf
  tauto

@[simp] theorem State.fetched_status (s : State) : s.fetched.status = s.status := by
  rw [State.fetched]; split_ifs <;> rfl

/-- Two past an address of a word is not wrapped. -/
theorem s16_add_two {w : Word} (h : wordFits (s16 w)) : s16 (w + 2) = s16 w + 2 := by
  have htwo : (2 : Word).toInt = 2 := rfl
  simp only [s16] at h ⊢
  rw [BitVec.toInt_add, htwo]
  exact Int.bmod_eq_of_le (by omega) (by omega)

/-- The word below PC is the last one the fetch read, so it lies in memory. -/
theorem State.wordFits_below_fetched {s : State} (h : s.fetchFits) : wordFits (s16 (s.fetched.read .pc - 2)) := by
  obtain ⟨hfirst, hsecond⟩ := h
  cases hd : doubleWord s.firstWord with
  | false =>
    rw [State.fetched_of_single hd, State.read_write, if_pos rfl, add_sub_cancel_right]
    exact hfirst
  | true =>
    have hsum : s.read .pc + 4 - 2 = s.read .pc + 2 := by rw [add_sub_assoc]; rfl
    rw [State.fetched_of_double hd, State.read_write, if_pos rfl, hsum, s16_add_two hfirst]
    exact hsecond hd

/-! ### PC when an instruction ends in a fault -/

theorem State.not_failed_of_executing {s : State} (h : s.status = .executing) : ¬ s.failed := by
  simp [State.failed, h]

/-- If the result is a machine that has failed, its PC is `c`. -/
def FaultsAt (c : Word) (r : Result) : Prop := Ends (fun t => t.failed → t.read .pc = c) r

theorem FaultsAt.of_executing {c : Word} {s : State} (h : s.status = .executing) : FaultsAt c (.next s) :=
  Ends.next fun hf => absurd hf (State.not_failed_of_executing h)

theorem faultsAt_raise (s : State) (cause : FaultCause) (info : Int) :
    FaultsAt (s.read .pc) (.next (s.raise cause info)) :=
  Ends.next fun _ => State.read_raise s cause info .pc

theorem faultsAt_loadWord {s : State} {a : Int} {k : Word → Result} (hk : ∀ v, wordFits a → FaultsAt (s.read .pc) (k v)) :
    FaultsAt (s.read .pc) (s.loadWord a k) := by
  rw [State.loadWord_eq]
  split_ifs with h
  · exact hk _ h
  · exact faultsAt_raise s _ _

theorem faultsAt_loadByte {s : State} {a : Int} {k : Byte → Result} (hk : ∀ v, FaultsAt (s.read .pc) (k v)) :
    FaultsAt (s.read .pc) (s.loadByte a k) := by
  rw [State.loadByte_eq]
  split_ifs
  · exact hk _
  · exact faultsAt_raise s _ _

theorem faultsAt_storeWord {s : State} {a : Int} {v : Word} {k : State → Result}
    (hk : ∀ m, FaultsAt (s.read .pc) (k { s with mem := m })) : FaultsAt (s.read .pc) (s.storeWord a v k) := by
  rw [State.storeWord_eq]
  split_ifs
  · exact hk _
  · exact faultsAt_raise s _ _

theorem faultsAt_storeByte {s : State} {a : Int} {v : Word} {k : State → Result}
    (hk : ∀ m, FaultsAt (s.read .pc) (k { s with mem := m })) : FaultsAt (s.read .pc) (s.storeByte a v k) := by
  rw [State.storeByte_eq]
  split_ifs
  · exact hk _
  · exact faultsAt_raise s _ _

theorem faultsAt_aluThen {s : State} {op : AluOp} {a b : Int} {k : Word → State → Result}
    (hk : ∀ v, FaultsAt (s.read .pc) (k v s)) : FaultsAt (s.read .pc) (s.aluThen op a b k) := by
  rcases alu_default op a b with ⟨z, hz⟩ | ⟨hz, -⟩
  · simp only [State.aluThen, params_shiftPolicy, hz]
    exact hk _
  · simp only [State.aluThen, params_shiftPolicy, hz]
    exact faultsAt_raise s _ _

theorem faultsAt_aluInto {s : State} (hs : s.status = .executing) (op : AluOp) (d : Reg) (b : Int) :
    FaultsAt (s.read .pc) (s.aluInto op d b) :=
  faultsAt_aluThen fun _ => FaultsAt.of_executing hs

/-- A push that fails has lowered its stack register, which is not PC: the word below PC lies in memory. -/
theorem faultsAt_pushWord {s : State} (hs : s.status = .executing) (hbelow : wordFits (s16 (s.read .pc - 2))) (r : Reg)
    (v : Word) : FaultsAt (s.read .pc) (s.pushWord r v) := by
  rw [State.pushWord_eq]
  split_ifs with h
  · exact FaultsAt.of_executing hs
  · have hr : Reg.pc ≠ r := by
      rintro rfl
      exact h hbelow
    have hpc : (s.write r (s.read r - 2)).read .pc = s.read .pc := by rw [State.read_write, if_neg hr]
    rw [← hpc]
    exact faultsAt_raise _ _ _

/-- A binary `sop` stores where it has read, so it cannot fail once its stack register has moved. -/
theorem faultsAt_sopBinary {s : State} (hs : s.status = .executing) (op : AluOp) (r : Reg) :
    FaultsAt (s.read .pc) (s.sopBinary op r) := by
  refine faultsAt_loadWord fun b _ => faultsAt_loadWord fun a h1 => faultsAt_aluThen fun v => ?_
  rw [State.storeWord_of_fits h1]
  exact FaultsAt.of_executing hs

/-- No service and no fault of one writes PC: it is none of A0 to A3 and RV (R522). -/
theorem faultsAt_sys (s : State) (k : Byte) : FaultsAt (s.read .pc) (exec (.sys k) s) := by
  rw [exec_sys]
  rcases Config.serviceOf k with _ | _ | _ | h
  case none => exact faultsAt_raise s _ _
  case some.exit => exact Ends.next fun _ => rfl
  case some.error => exact (ends_errorService s).mono fun t ⟨_, ht⟩ _ => by rw [ht]; rfl
  case some.host => exact (ends_perform_host s k h).mono fun t ht _ => ht.registers .pc (by decide)

/-- An instruction that ends in a fault leaves PC where it found it, if the word below PC lies in memory. -/
theorem faultsAt_exec {s : State} (hs : s.status = .executing) (hbelow : wordFits (s16 (s.read .pc - 2))) (i : Instr) :
    FaultsAt (s.read .pc) (exec i s) := by
  cases i
  case sys => exact faultsAt_sys s _
  case mov | inc | dec | seti | nop | drop | li | la | jr | ret | j | jal | eq | neq | gt | gte | lt | lte | eqi | neqi
      | gti | gtei | lti | ltei => exact FaultsAt.of_executing hs
  case jz | jnz =>
    refine FaultsAt.of_executing ?_
    split_ifs <;> exact hs
  case add | sub | mul | div | mod | and | or | xor | shl | shr | min | max | not | lnot | neg | addi | subi | muli | divi
      | modi | andi | ori | xori | shli | shri | mini | maxi =>
    simp only [exec_add, exec_sub, exec_mul, exec_div, exec_mod, exec_and, exec_or, exec_xor, exec_shl, exec_shr, exec_min,
      exec_max, exec_not, exec_lnot, exec_neg, exec_addi, exec_subi, exec_muli, exec_divi, exec_modi, exec_andi, exec_ori,
      exec_xori, exec_shli, exec_shri, exec_mini, exec_maxi]
    exact faultsAt_aluInto hs _ _ _
  case push | pushi =>
    simp only [exec_push, exec_pushi]
    exact faultsAt_pushWord hs hbelow _ _
  case pop | lwr | lw | lwo =>
    simp only [exec_pop, exec_lwr, exec_lw, exec_lwo, State.loadWordInto]
    exact faultsAt_loadWord fun _ _ => FaultsAt.of_executing hs
  case dup | overItem =>
    simp only [exec_dup, exec_overItem]
    exact faultsAt_loadWord fun _ _ => faultsAt_pushWord hs hbelow _ _
  case swap =>
    rw [exec_swap]
    exact faultsAt_loadWord fun _ _ => faultsAt_loadWord fun _ _ => faultsAt_storeWord fun _ =>
      faultsAt_storeWord (s := { s with mem := _ }) fun _ => FaultsAt.of_executing hs
  case rot =>
    rw [exec_rot]
    exact faultsAt_loadWord fun _ _ => faultsAt_loadWord fun _ _ => faultsAt_loadWord fun _ _ => faultsAt_storeWord fun _ =>
      faultsAt_storeWord (s := { s with mem := _ }) fun _ => faultsAt_storeWord (s := { s with mem := _ }) fun _ =>
        FaultsAt.of_executing hs
  case sop f r =>
    rw [exec_sop]
    split_ifs
    · exact faultsAt_loadWord fun _ _ => faultsAt_aluThen fun _ => faultsAt_storeWord fun _ => FaultsAt.of_executing hs
    · exact faultsAt_sopBinary hs f r
  case lbr | lb | lbo =>
    simp only [exec_lbr, exec_lb, exec_lbo, State.loadByteInto]
    exact faultsAt_loadByte fun _ => FaultsAt.of_executing hs
  case swr | sw | swo =>
    simp only [exec_swr, exec_sw, exec_swo]
    exact faultsAt_storeWord fun _ => FaultsAt.of_executing hs
  case sbr | sb | sbo =>
    simp only [exec_sbr, exec_sb, exec_sbo]
    exact faultsAt_storeByte fun _ => FaultsAt.of_executing hs

theorem faultsAt_executeDecoded {s : State} (hs : s.status = .executing) (hbelow : wordFits (s16 (s.read .pc - 2))) :
    FaultsAt (s.read .pc) s.executeDecoded := by
  rw [State.executeDecoded_eq]
  split
  · exact faultsAt_exec hs hbelow _
  · exact faultsAt_raise s _ _

/-! ### What every instruction keeps -/

/-- Alike in the fields that no primitive update of an instruction writes but the update of T. -/
structure SameHeld (s t : State) : Prop where
  ir : t.ir = s.ir
  dr : t.dr = s.dr
  cb : t.cb = s.cb
  db : t.db = s.db
  io : t.io = s.io
  flags : t.flags = s.flags
  pulse : t.pulse = s.pulse
  sleeps : t.sleeps = s.sleeps
  sprites : t.sprites = s.sprites

/-- A property of these fields holds of every instruction's end if it holds at its start. -/
theorem closed_of_sameHeld {P : State → Prop} (h : ∀ s t, SameHeld s t → P s → P t) : Closed P P where
  ended := fun _ hs => hs
  write := fun s _ _ => h s _ ⟨rfl, rfl, rfl, rfl, rfl, rfl, rfl, rfl, rfl⟩
  mem := fun s _ _ _ hs _ => h s _ ⟨rfl, rfl, rfl, rfl, rfl, rfl, rfl, rfl, rfl⟩ hs
  draw := fun s => h s _ ⟨rfl, rfl, rfl, rfl, rfl, rfl, rfl, rfl, rfl⟩
  call := fun s => h s _ ⟨rfl, rfl, rfl, rfl, rfl, rfl, rfl, rfl, rfl⟩
  message := fun s _ => h s _ ⟨rfl, rfl, rfl, rfl, rfl, rfl, rfl, rfl, rfl⟩
  raised := fun s _ _ _ hs _ => h s _ ⟨rfl, rfl, rfl, rfl, rfl, rfl, rfl, rfl, rfl⟩ hs
  finished := fun s => h s _ ⟨rfl, rfl, rfl, rfl, rfl, rfl, rfl, rfl, rfl⟩

/-- IR and DR keep their values while an instruction is decoded and executed. -/
theorem ends_executeDecoded_ir_dr (s : State) : Ends (fun t => t.ir = s.ir ∧ t.dr = s.dr) s.executeDecoded := by
  have hclosed := closed_of_sameHeld (P := fun t => t.ir = s.ir ∧ t.dr = s.dr)
    fun _ _ hsame ⟨hi, hd⟩ => ⟨hsame.ir.trans hi, hsame.dr.trans hd⟩
  rw [State.executeDecoded_eq]
  split
  · exact hclosed.exec ⟨rfl, rfl⟩ _ fun _ _ _ ht => ht
  · exact hclosed.raise_next ⟨rfl, rfl⟩ _ _

/-- Two properties of the one state a result ends in. -/
theorem Ends.and {P Q : State → Prop} {r : Result} (hp : Ends P r) (hq : Ends Q r) : Ends (fun t => P t ∧ Q t) r := by
  obtain ⟨t, rfl, ht⟩ := hp
  obtain ⟨u, hu, hQ⟩ := hq
  cases hu
  exact ⟨t, rfl, ht, hQ⟩

end Sys2Proof.Machine
end

section
/-! The obligations about the cycle. -/

namespace Sys2Proof.Machine

/-- Settles O7: the fetch fits, and what it reads decodes. -/
theorem stepRunsDecoded : Obligations.StepRunsDecoded := by
  unfold Obligations.StepRunsDecoded
  refine fun s hs hfit => ⟨fun hd i hi => ?single, fun hd hfit2 i hi => ?double⟩
  case single =>
    rw [step_of_executing hs, State.cycle_of_fits s (State.fetchFits_of_single hd hfit), State.fetched_of_single hd]
    exact State.executeDecoded_of_ok hi
  case double =>
    rw [step_of_executing hs, State.cycle_of_fits s ⟨hfit, fun _ => hfit2⟩, State.fetched_of_double hd]
    exact State.executeDecoded_of_ok hi

/-- Settles O8: the first of the two fetches and the decoding that fails is the one that faults. -/
theorem fetchFaults : Obligations.FetchFaults := by
  unfold Obligations.FetchFaults
  intro s hs
  rw [step_of_executing hs]
  refine ⟨fun hfit => ?first, fun hfit hd hfit2 => ?second, fun hfits hillegal => ?illegal⟩
  case first =>
    rw [State.cycle_of_not_fits_first hfit]
    exact ends_raise_memoryFault s s.ia
  case second =>
    rw [State.cycle_of_not_fits_second hfit hd hfit2]
    exact ends_raise_memoryFault _ _
  case illegal =>
    rw [State.cycle_of_fits s hfits, ← State.fetched_ir]
    exact ends_executeDecoded_of_illegal (by rwa [State.fetched_ir])

/-- Settles O9: every update of the state is one of those `Closed` lists, and none of them is refused. -/
theorem stepAlwaysAnswers : Obligations.StepAlwaysAnswers := by
  unfold Obligations.StepAlwaysAnswers
  have hclosed : Closed (fun _ => True) (fun _ => True) := closed_of_sameHeld fun _ _ _ _ => trivial
  refine ⟨fun p i s => ?exec, fun p s => ?step, fun i s => (execWith_params i s).symm, fun s => (stepWith_params s).symm⟩
  case exec =>
    obtain ⟨t, ht, -⟩ := hclosed.execWith (p := p) (s := s) trivial i fun _ _ _ _ => trivial
    exact ⟨t, ht⟩
  case step =>
    rw [stepWith]
    split_ifs
    · obtain ⟨t, ht, -⟩ := hclosed.cycleWith (p := p) (s := s) (fun _ _ _ => trivial) (fun _ _ _ => trivial)
        (fun _ _ _ => trivial) trivial
      exact ⟨t, ht⟩
    · exact ⟨s, rfl⟩

/-- Settles O10: a fetch that faults has not moved PC; after the fetch, no instruction faults with PC written. -/
theorem pcAfterFault : Obligations.PcAfterFault := by
  unfold Obligations.PcAfterFault
  intro s hs
  rw [step_of_executing hs]
  by_cases hfits : s.fetchFits
  · rw [State.cycle_of_fits s hfits]
    have hpc := faultsAt_executeDecoded ((State.fetched_status s).trans hs) (State.wordFits_below_fetched hfits)
    refine (hpc.and (ends_executeDecoded_ir_dr s.fetched)).mono fun t ⟨hread, hir, hdr⟩ hfailed => ?_
    exact ⟨fun h => absurd hfits.1 h, fun _ h => absurd hfits h,
      fun _ => ⟨hread hfailed, hir.trans (State.fetched_ir s), hdr⟩⟩
  · by_cases hfirst : wordFits s.ia
    · obtain ⟨hd, hsecond⟩ := State.second_of_not_fetchFits hfirst hfits
      rw [State.cycle_of_not_fits_second hfirst hd hsecond]
      exact Ends.next fun _ => ⟨fun h => absurd hfirst h, fun _ _ => ⟨rfl, rfl, rfl⟩, fun h => absurd h hfits⟩
    · rw [State.cycle_of_not_fits_first hfirst]
      exact Ends.next fun _ => ⟨fun _ => ⟨rfl, rfl, rfl⟩, fun h => absurd h hfirst, fun h => absurd h hfits⟩

end Sys2Proof.Machine
end

section
/-! SUPPORT. What every step keeps: the invariant, the fields only a load writes, FLAGS under the instructions that write no
T; and what no step reads. -/

namespace Sys2Proof.Machine

/-! ### The invariant -/

/-- The invariant speaks of memory, FLAGS, IO, the status, the finish cause and the fault record only. -/
theorem State.Inv.of_fields_eq {s t : State} (h : s.Inv) (hmem : t.mem.wf = true)
    (hflags : ∀ i, i ≠ 0 → t.flags.getLsbD i = s.flags.getLsbD i) (hio : t.io = s.io) (hstatus : t.status = s.status)
    (hcause : t.finishCause = s.finishCause) (hfault : t.fault = s.fault) : t.Inv where
  mem := hmem
  flags := fun i hi => (hflags i hi).trans (h.flags i hi)
  io := hio.trans h.io
  records := by
    have hrecords := h.records
    simpa only [State.recordsAgree, State.failed, hstatus, hcause, hfault] using hrecords

/-- A machine that executes has no finish cause (R51). -/
theorem State.recordsAgree.finishCause_eq_none {s : State} (h : s.recordsAgree) (hs : s.status = .executing) :
    s.finishCause = none := by
  obtain ⟨hfinished, -, -⟩ := h
  rw [hs] at hfinished
  simpa using hfinished

/-- No cause of a fault leaves the machine executing or finished (R501). -/
theorem haltStatus_eq_some {c : FaultCause} {h : Status} (hc : c.haltStatus = some h) :
    h = .permanentError ∨ h = .defect := by
  cases c <;> cases hc <;> simp

/-- The records agree after a fault is taken by a machine that executes (R500). -/
theorem State.recordsAgree.raised {s : State} (h : s.recordsAgree) (hs : s.status = .executing) {c : FaultCause}
    {halt : Status} (hc : c.haltStatus = some halt) (info : Int) :
    ({ s with status := halt, fault := { cause := c, info := info } } : State).recordsAgree := by
  refine ⟨?_, fun halt' hc' => Option.some.inj (hc.symm.trans hc'), fun _ => hc⟩
  rcases haltStatus_eq_some hc with rfl | rfl <;> simp [h.finishCause_eq_none hs]

/-- The records agree after a machine that executes finishes (R51). -/
theorem State.recordsAgree.finished {s : State} (h : s.recordsAgree) (hs : s.status = .executing) (c : FinishCause) :
    (s.finish c).recordsAgree := by
  obtain ⟨-, hhalted, -⟩ := h
  refine ⟨by simp, fun halt hc => ?_, fun hf => by simp [State.failed] at hf⟩
  have hhalt := hhalted halt hc
  rw [hs] at hhalt
  subst hhalt
  simpa using haltStatus_eq_some hc

theorem State.Inv.finish {s : State} (h : s.Inv) (hs : s.status = .executing) (c : FinishCause) : (s.finish c).Inv :=
  ⟨h.mem, h.flags, h.io, h.records.finished hs c⟩

/-- Every primitive update of a machine that executes keeps the invariant. -/
theorem closed_inv : Closed (fun s => s.Inv ∧ s.status = .executing) State.Inv where
  ended := fun _ ⟨h, _⟩ => h
  write := fun _ _ _ ⟨h, hs⟩ => ⟨h.of_fields_eq h.mem (fun _ _ => rfl) rfl rfl rfl rfl, hs⟩
  mem := fun _ a n v ⟨h, hs⟩ hin =>
    ⟨h.of_fields_eq (Memory.wf_writeWidth h.mem a n v hin) (fun _ _ => rfl) rfl rfl rfl rfl, hs⟩
  draw := fun _ ⟨h, hs⟩ => ⟨h.of_fields_eq h.mem (fun _ _ => rfl) rfl rfl rfl rfl, hs⟩
  call := fun _ ⟨h, hs⟩ => ⟨h.of_fields_eq h.mem (fun _ _ => rfl) rfl rfl rfl rfl, hs⟩
  message := fun _ _ ⟨h, hs⟩ => ⟨h.of_fields_eq h.mem (fun _ _ => rfl) rfl rfl rfl rfl, hs⟩
  raised := fun _ _ _ info ⟨h, hs⟩ hc => ⟨h.mem, h.flags, h.io, h.records.raised hs hc info⟩
  finished := fun _ ⟨h, hs⟩ => h.finish hs .exit

/-- A step keeps the invariant, under any parameters. -/
theorem ends_stepWith_inv (p : Params) {s : State} (h : s.Inv) : Ends State.Inv (stepWith p s) := by
  rw [stepWith]
  split_ifs with hs
  · refine closed_inv.cycleWith (fun s b ⟨h, hs⟩ => ⟨?_, hs⟩) (fun s w ⟨h, hs⟩ => ⟨?_, hs⟩) (fun s w ⟨h, hs⟩ => ⟨?_, hs⟩)
      ⟨h, hs⟩
    · exact h.of_fields_eq h.mem (fun i hi => State.setTest_reserved s b i hi) rfl rfl rfl rfl
    · exact h.of_fields_eq h.mem (fun _ _ => rfl) rfl rfl rfl rfl
    · exact h.of_fields_eq h.mem (fun _ _ => rfl) rfl rfl rfl rfl
  · exact Ends.next h

theorem ends_step_inv {s : State} (h : s.Inv) : Ends State.Inv (step s) := by
  rw [← stepWith_params]
  exact ends_stepWith_inv _ h

/-- The records of a machine that has not run or has not met a fault agree. -/
theorem recordsAgree_of_no_fault {s : State} (hs : s.status = .ready ∨ s.status = .executing) (hcause : s.finishCause = none)
    (hfault : s.fault.cause = .none) : s.recordsAgree := by
  refine ⟨?_, fun halt hc => ?_, fun hf => ?_⟩
  · rcases hs with hs | hs <;> simp [hcause, hs]
  · simp [hfault, FaultCause.haltStatus] at hc
  · rcases hs with hs | hs <;> simp [State.failed, hs] at hf

/-! ### The fields that only a load writes -/

/-- A property of the held fields other than IR, DR and FLAGS is kept by every step. -/
theorem ends_step_of_sameHeld {P : State → Prop}
    (h : ∀ s t : State, t.cb = s.cb → t.db = s.db → t.io = s.io → t.pulse = s.pulse → t.sleeps = s.sleeps →
      t.sprites = s.sprites → P s → P t) {s : State} (hs : P s) : Ends P (step s) := by
  have hclosed : Closed P P := closed_of_sameHeld fun s t hsame =>
    h s t hsame.cb hsame.db hsame.io hsame.pulse hsame.sleeps hsame.sprites
  rw [step]
  split_ifs
  · exact hclosed.cycle (fun s _ => h s _ rfl rfl rfl rfl rfl rfl) (fun s _ => h s _ rfl rfl rfl rfl rfl rfl)
      (fun s _ => h s _ rfl rfl rfl rfl rfl rfl) hs
  · exact Ends.next hs

theorem ends_step_pulse_sleeps (s : State) : Ends (fun t => t.pulse = s.pulse ∧ t.sleeps = s.sleeps) (step s) :=
  ends_step_of_sameHeld (fun _ _ _ _ _ hpulse hsleeps _ ⟨hp, hsl⟩ => ⟨hpulse.trans hp, hsleeps.trans hsl⟩) ⟨rfl, rfl⟩

/-! ### The status -/

/-- How an executing machine can end a step: it goes on, it finishes, or it takes a fault. -/
def StepStatus (s t : State) : Prop :=
  t.status = .executing ∧ t.finishCause = s.finishCause ∧ t.fault = s.fault ∨
  t.status = .finished ∧ t.finishCause = some .exit ∧ t.fault = s.fault ∨
  t.status = .permanentError ∧ t.finishCause = s.finishCause ∧
    (t.fault.cause = .memoryFault ∨ t.fault.cause = .divideByZero ∨ t.fault.cause = .serviceError ∨
      t.fault.cause = .programError) ∨
  t.status = .defect ∧ t.finishCause = s.finishCause ∧ t.fault.cause = .illegalInstruction

/-- While an instruction runs the status, the finish cause and the fault record stay. -/
theorem closed_stepStatus (s : State) :
    Closed (fun t => t.status = .executing ∧ t.finishCause = s.finishCause ∧ t.fault = s.fault) (StepStatus s) where
  ended := fun _ => .inl
  write := fun _ _ _ => id
  mem := fun _ _ _ _ ht _ => ht
  draw := fun _ => id
  call := fun _ => id
  message := fun _ _ => id
  raised := fun _ c _ _ ⟨_, hcause, _⟩ hc => by cases c <;> cases hc <;> simp [StepStatus, hcause]
  finished := fun _ ⟨_, _, hfault⟩ => .inr (.inl ⟨rfl, rfl, hfault⟩)

theorem ends_step_status {s : State} (hs : s.status = .executing) : Ends (StepStatus s) (step s) := by
  rw [step_of_executing hs]
  exact (closed_stepStatus s).cycle (fun _ _ => id) (fun _ _ => id) (fun _ _ => id) ⟨hs, rfl, rfl⟩

/-! ### What no step reads -/

/-- States alike but for CB, DB and IO stay so through every primitive update. -/
theorem alike_withUnread (cb db io : Word) : Alike fun s s' => s' = s.withUnread cb db io where
  regs := by rintro s _ rfl; rfl
  mem := by rintro s _ rfl; rfl
  ir := by rintro s _ rfl; rfl
  hostCalls := by rintro s _ rfl; rfl
  shiftDraws := by rintro s _ rfl; rfl
  sprites := by rintro s _ rfl; rfl
  write := by rintro s _ r v rfl; rfl
  test := by rintro s _ b rfl; rfl
  setMem := by rintro s _ m rfl; rfl
  setDraws := by rintro s _ n rfl; rfl
  setCalls := by rintro s _ n rfl; rfl
  message := by rintro s _ b rfl; rfl
  raised := by rintro s _ h f rfl; rfl
  finished := by rintro s _ c rfl; rfl

/-- States alike but for T stay so through every primitive update. -/
theorem alike_withoutTest : Alike fun s s' => s'.withoutTest = s.withoutTest where
  regs := fun h => by simpa [State.withoutTest] using congrArg State.regs h
  mem := fun h => by simpa [State.withoutTest] using congrArg State.mem h
  ir := fun h => by simpa [State.withoutTest] using congrArg State.ir h
  hostCalls := fun h => by simpa [State.withoutTest] using congrArg State.hostCalls h
  shiftDraws := fun h => by simpa [State.withoutTest] using congrArg State.shiftDraws h
  sprites := fun h => by simpa [State.withoutTest] using congrArg State.sprites h
  write := fun r v h => congrArg (State.write · r v) h
  test := fun b h => by simpa [State.withoutTest] using h
  setMem := fun m h => congrArg (fun s : State => { s with mem := m }) h
  setDraws := fun n h => congrArg (fun s : State => { s with shiftDraws := n }) h
  setCalls := fun n h => congrArg (fun s : State => { s with hostCalls := n }) h
  message := fun b h => congrArg (fun s : State => { s with errorMessage := some b }) h
  raised := fun st f h => congrArg (fun s : State => { s with status := st, fault := f }) h
  finished := fun c h => congrArg (State.finish · c) h

/-- Decoding and executing reads IR and DR besides what instructions read. -/
theorem Alike.executeDecoded {R : State → State → Prop} (h : Alike R) {s s' : State} (hs : R s s') (hdr : s'.dr = s.dr)
    (hT : s'.testBit = s.testBit) : EndsAlike R s.executeDecoded s'.executeDecoded := by
  rw [State.executeDecoded_eq, State.executeDecoded_eq, h.ir hs, hdr]
  split
  · exact h.exec hs _ fun _ => hT
  · exact h.raise hs _ _

/-- A cycle does not read CB, DB and IO: neither does the fetch. -/
theorem endsAlike_cycle_withUnread (s : State) (cb db io : Word) :
    EndsAlike (fun t t' => t' = t.withUnread cb db io) s.cycle (s.withUnread cb db io).cycle := by
  have hR := alike_withUnread cb db io
  have hia : (s.withUnread cb db io).ia = s.ia := rfl
  have hfirst : (s.withUnread cb db io).firstWord = s.firstWord := rfl
  rw [State.cycle_eq, State.cycle_eq, hia, hfirst]
  split_ifs
  · exact hR.executeDecoded rfl rfl rfl
  · exact hR.raise rfl _ _
  · exact hR.executeDecoded rfl rfl rfl
  · exact hR.raise rfl _ _

/-! ### The run loop -/

theorem runMove_of_not_executing {s : State} (h : s.status ≠ .executing) : runMove s = .next s := if_neg h

theorem runMoves_of_not_executing {s : State} (h : s.status ≠ .executing) (n : Nat) : runMoves n s = .next s := by
  induction n with
  | zero => rfl
  | succ n ih => rw [runMoves, runMove_of_not_executing h]; exact ih

/-- A move within the pulse is a step, counted (R620). -/
theorem ends_runMove_of_lt {P : State → Prop} {s : State} (hs : s.status = .executing) (hp : s.pulse < Config.pulseCycles)
    (h : Ends (fun t => P { t with pulse := t.pulse + 1 }) (step s)) : Ends P (runMove s) := by
  obtain ⟨t, ht, hP⟩ := h
  rw [runMove, if_pos hs, if_pos hp, State.countedStep, ht]
  exact Ends.next hP

/-- A move at the end of the pulse polls the window (R620). -/
theorem runMove_of_not_lt {s : State} (hs : s.status = .executing) (hp : ¬ s.pulse < Config.pulseCycles) :
    runMove s = .next s.endPulse := by
  rw [runMove, if_pos hs, if_neg hp]

/-- The end of a pulse of an executing machine, by the answer of the window poll (R530, R620). -/
theorem endPulse_of_executing {s : State} (hs : s.status = .executing) :
    s.endPulse = if Config.windowClosed s.sleeps
      then { s with status := .finished, finishCause := some .hostStop, pulse := 0, sleeps := s.sleeps + 1 }
      else { s with pulse := 0, sleeps := s.sleeps + 1 } := by
  simp only [State.endPulse, hs, true_and]
  rfl

/-- A move of the run loop keeps the invariant and the bound of the pulse counter. -/
theorem ends_runMove_inv {s : State} (h : s.Inv) (hp : s.pulse ≤ Config.pulseCycles) :
    Ends (fun t => t.Inv ∧ t.pulse ≤ Config.pulseCycles) (runMove s) := by
  by_cases hs : s.status = .executing
  · by_cases hlt : s.pulse < Config.pulseCycles
    · refine ends_runMove_of_lt hs hlt (((ends_step_inv h).and (ends_step_pulse_sleeps s)).mono ?_)
      rintro t ⟨ht, hpulse, -⟩
      exact ⟨ht.of_fields_eq ht.mem (fun _ _ => rfl) rfl rfl rfl rfl, by rw [hpulse]; exact hlt⟩
    · have hpolled : ({ s with pulse := 0, sleeps := s.sleeps + 1 } : State).Inv :=
        h.of_fields_eq h.mem (fun _ _ => rfl) rfl rfl rfl rfl
      rw [runMove_of_not_lt hs hlt, endPulse_of_executing hs]
      split_ifs
      · exact Ends.next ⟨hpolled.finish hs .hostStop, Nat.zero_le _⟩
      · exact Ends.next ⟨hpolled, Nat.zero_le _⟩
  · rw [runMove_of_not_executing hs]
    exact Ends.next ⟨h, hp⟩

end Sys2Proof.Machine
end

section
/-! The obligations about what every step keeps, what no instruction reads, and the run loop. -/

namespace Sys2Proof.Machine

/-- Settles O11: the machine at reset is ready and has taken no fault. -/
theorem resetMeetsInvariant : Obligations.ResetMeetsInvariant := by
  unfold Obligations.ResetMeetsInvariant
  exact ⟨rfl, fun i _ => BitVec.getLsbD_zero, rfl, recordsAgree_of_no_fault (.inl rfl) rfl rfl⟩

/-- Settles O12: every primitive update keeps the invariant. -/
theorem stepKeepsInvariant : Obligations.StepKeepsInvariant := by
  unfold Obligations.StepKeepsInvariant
  exact fun s h => ⟨ends_step_inv h, fun p => ends_stepWith_inv p h⟩

/-- Settles O13: the status is written only as the instruction ends. -/
theorem statusTransitions : Obligations.StatusTransitions := by
  unfold Obligations.StatusTransitions
  exact fun s hs => ends_step_status hs

/-- Settles O14: no primitive update writes these fields. -/
theorem loadOnlyStateKept : Obligations.LoadOnlyStateKept := by
  unfold Obligations.LoadOnlyStateKept
  refine ⟨fun i s => ?exec, fun s => ?step⟩
  case exec =>
    have hclosed := closed_of_sameHeld (P := fun t => t.cb = s.cb ∧ t.db = s.db ∧ t.io = s.io ∧ t.sprites = s.sprites)
      fun _ _ hsame ⟨hcb, hdb, hio, hsprites⟩ =>
        ⟨hsame.cb.trans hcb, hsame.db.trans hdb, hsame.io.trans hio, hsame.sprites.trans hsprites⟩
    exact hclosed.exec ⟨rfl, rfl, rfl, rfl⟩ i fun _ _ _ ht => ht
  case step =>
    exact ends_step_of_sameHeld (fun _ _ hcb hdb hio _ _ hsprites ⟨hcb', hdb', hio', hsprites'⟩ =>
      ⟨hcb.trans hcb', hdb.trans hdb', hio.trans hio', hsprites.trans hsprites'⟩) ⟨rfl, rfl, rfl, rfl⟩

/-- Settles O15: states alike but for these registers stay alike through every instruction and the fetch. -/
theorem unreadRegisters : Obligations.UnreadRegisters := by
  unfold Obligations.UnreadRegisters
  refine fun s cb db io => ⟨fun i => ?exec, ?step⟩
  case exec =>
    obtain ⟨t, _, ht, ht', rfl⟩ := (alike_withUnread cb db io).exec rfl i fun _ => rfl
    exact ⟨t, ht, ht'⟩
  case step =>
    by_cases hs : s.status = .executing
    · obtain ⟨t, _, ht, ht', rfl⟩ := endsAlike_cycle_withUnread s cb db io
      exact ⟨t, (step_of_executing hs).trans ht, (step_of_executing (s := s.withUnread cb db io) hs).trans ht'⟩
    · exact ⟨s, step_of_not_executing hs, step_of_not_executing (s := s.withUnread cb db io) hs⟩

/-- Settles O16: only the update of T writes FLAGS, and only these instructions make one. -/
theorem testBitWriters : Obligations.TestBitWriters := by
  unfold Obligations.TestBitWriters
  intro i s hi
  have hclosed := closed_of_sameHeld (P := fun t => t.flags = s.flags) fun _ _ hsame ht => hsame.flags.trans ht
  exact hclosed.exec rfl i fun hwrites => by simp [hi] at hwrites

/-- Settles O17: states alike but for T stay alike through every instruction that does not read it. -/
theorem testBitReaders : Obligations.TestBitReaders := by
  unfold Obligations.TestBitReaders
  intro i s b hi
  have hstart : (s.setTest b).withoutTest = s.withoutTest := State.setTest_setTest s b false
  exact alike_withoutTest.exec hstart i fun hreads => by simp [hi] at hreads

/-- Settles O53: the step and the move of the run loop ask for the status first. -/
theorem haltStands : Obligations.HaltStands := by
  unfold Obligations.HaltStands
  exact fun s hs => ⟨step_of_not_executing hs, runMoves_of_not_executing hs⟩

/-- Settles O54: within the pulse a move is a step, which finishes by `exit` alone; at its end it is the window poll. -/
theorem hostStopBetweenPulses : Obligations.HostStopBetweenPulses := by
  unfold Obligations.HostStopBetweenPulses
  intro s hs
  by_cases hp : s.pulse < Config.pulseCycles
  · simp only [if_pos hp]
    refine ends_runMove_of_lt hs hp (((ends_step_status hs).and (ends_step_pulse_sleeps s)).mono ?_)
    rintro t ⟨hstatus, hpulse, hsleeps⟩
    refine ⟨?_, congrArg (· + 1) hpulse, hsleeps⟩
    rcases hstatus with ⟨-, h, -⟩ | ⟨-, h, -⟩ | ⟨-, h, -⟩ | ⟨-, h, -⟩
    · exact .inl h
    · exact .inr h
    · exact .inl h
    · exact .inl h
  · simp only [if_neg hp, runMove_of_not_lt hs hp, endPulse_of_executing hs]
    refine Ends.next ?_
    split_ifs <;> rfl

/-- Settles O55, by induction on the moves. -/
theorem runKeepsInvariant : Obligations.RunKeepsInvariant := by
  unfold Obligations.RunKeepsInvariant
  intro n
  induction n with
  | zero => exact fun s h hp => Ends.next ⟨h, hp⟩
  | succ n ih =>
    intro s h hp
    obtain ⟨t, ht, hinv, hpulse⟩ := ends_runMove_inv h hp
    rw [runMoves, ht]
    exact ih t hinv hpulse

end Sys2Proof.Machine
end

section
/-! SUPPORT. The ALU function where it divides by zero or its result is free, and the ALU step of an instruction in 16-bit
terms. -/

namespace Sys2Proof.Machine

/-- Division by a zero pattern is division by zero (R251). -/
theorem alu_divideByZero {op : AluOp} {b : Word} (h : dividesByZero op b = true) (p : ShiftPolicy) (a : Word) :
    alu p op (s16 a) (s16 b) = .divideByZero := by
  cases op
  case div | mod =>
    obtain rfl : b = 0 := of_decide_eq_true h
    rfl
  all_goals cases h

/-- Under draw a shift by a negative count, or one of 32 or more, is free (R251). -/
theorem alu_free {op : AluOp} {b : Word} (hop : op = .shl ∨ op = .shr) (hb : s16 b < 0 ∨ 32 ≤ s16 b) (a : Word) :
    alu .draw op (s16 a) (s16 b) = .free := by
  have hout : ¬ (0 ≤ s16 b ∧ s16 b ≤ 15) := by omega
  rcases hop with rfl | rfl <;> simp only [alu, if_neg hout] <;> exact if_pos ⟨rfl, hb⟩

/-- At the default policy an ALU step of patterns raises DivideByZero(IR) or hands on the 16-bit result (R250, R251, R504). -/
theorem State.aluThen_eq (s : State) (op : AluOp) (a b : Word) (k : Word → State → Result) :
    s.aluThen op (s16 a) (s16 b) k =
      if dividesByZero op b then .next (s.raise .divideByZero s.ir.toNat) else k (aluWord op a b) s := by
  split_ifs with hz
  · simp only [State.aluThen, alu_divideByZero hz]
  · obtain ⟨z, halu, hword⟩ := alu_value (p := Config.shiftPolicy) (Bool.eq_false_of_not_eq_true hz) nofun a
    simp only [State.aluThen, params_shiftPolicy, halu, hword]

/-- An ALU step that divides by zero takes that fault, whatever was to follow. -/
theorem ends_aluThen_of_dividesByZero {op : AluOp} {b : Word} (h : dividesByZero op b = true) (s : State) (a : Word)
    (k : Word → State → Result) :
    Ends (FaultTaken .divideByZero s.ir.toNat .permanentError s) (s.aluThen op (s16 a) (s16 b) k) := by
  rw [State.aluThen_eq, if_pos h]
  exact Ends.next (faultTaken_raise s .divideByZero _ .permanentError rfl)

/-- An instruction that divides by its second operand: the 16-bit result where that is nonzero, else the fault. -/
theorem dividing_spec {s : State} {i : Instr} {op : AluOp} {d : Reg} {b : Word}
    (hop : ∀ b, dividesByZero op b = decide (b = 0)) (hexec : exec i s = s.aluInto op d (s16 b)) :
    (b ≠ 0 → SetsWithTestAt s i d (aluWord op (s.read d) b)) ∧
      (b = 0 → Ends (FaultTaken .divideByZero s.ir.toNat .permanentError s) (exec i s)) := by
  refine ⟨fun hb => setsWithTestAt_of_exec_aluInto hexec ((hop b).trans (decide_eq_false hb)), fun hb => ?_⟩
  rw [hexec]
  exact ends_aluThen_of_dividesByZero ((hop b).trans (decide_eq_true hb)) s _ _

end Sys2Proof.Machine
end

section
/-! The obligations about division, the shifts and the ALU function. -/

namespace Sys2Proof.Machine

/-- Settles O22: the two forms of each of the two operations that divide. -/
theorem divMod : Obligations.DivMod := by
  unfold Obligations.DivMod
  refine ⟨fun d r => ⟨encodes_binaryForm (op := .div) rfl d r, fun s => ?div⟩,
    fun d r => ⟨encodes_binaryForm (op := .mod) rfl d r, fun s => ?mod⟩,
    fun d w => ⟨encodesPair_immediateForm (op := .div) rfl d w, fun s => ?divi⟩,
    fun d w => ⟨encodesPair_immediateForm (op := .mod) rfl d w, fun s => ?modi⟩⟩
  case div => exact dividing_spec (fun _ => rfl) (exec_div d r s)
  case mod => exact dividing_spec (fun _ => rfl) (exec_mod d r s)
  case divi => exact dividing_spec (fun _ => rfl) (exec_divi d w s)
  case modi => exact dividing_spec (fun _ => rfl) (exec_modi d w s)

/-- Settles O24: the two forms of each shift, the saturated result written out. -/
theorem shifts : Obligations.Shifts := by
  unfold Obligations.Shifts
  refine ⟨?shl, ?shr, ?shli, ?shri⟩
  case shl => exact binaryForm_spec (op := .shl) rfl fun _ => rfl
  case shr => exact binaryForm_spec (op := .shr) rfl fun _ => rfl
  case shli => exact immediateForm_spec (op := .shl) rfl fun _ => rfl
  case shri => exact immediateForm_spec (op := .shr) rfl fun _ => rfl

/-- Settles O26: a zero divisor, a free result, or the 16-bit operation. -/
theorem aluFunction : Obligations.AluFunction := by
  unfold Obligations.AluFunction
  intro p op a b
  split_ifs with hz hfree
  · exact alu_divideByZero hz p a
  · obtain ⟨rfl, hop, hb⟩ := hfree
    exact alu_free hop hb a
  · refine alu_value (Bool.eq_false_of_not_eq_true hz) (fun hp hop => ?_) a
    by_contra hb
    exact hfree ⟨hp, hop, by omega⟩

end Sys2Proof.Machine
end

section
/-! SUPPORT. The stack instructions that pop, rotate and compute. -/

namespace Sys2Proof.Machine

/-! ### The stack register -/

theorem State.bump_two (s : State) (r : Reg) : s.bump r 2 = s.write r (s.read r + 2) := by
  rw [State.bump_eq, trunc16_add]
  rfl

@[simp] theorem State.slot_two (s : State) (r : Reg) : s.slot r 2 = s16 (s.read r) + 4 := by
  simp [State.slot]

theorem RegFile.write_write (f : RegFile) (r : Reg) (v w : Word) : (f.write r v).write r w = f.write r w := by
  cases r <;> rfl

theorem State.write_write (s : State) (r : Reg) (v w : Word) : (s.write r v).write r w = s.write r w := by
  simp only [State.write, RegFile.write_write]

/-! ### The bytes of words -/

theorem Memory.hiByte_readWord (m : Memory) (a : Nat) : hiByte (m.readWord a) = m.readByte a := hiByte_joinBytes _ _

theorem Memory.loByte_readWord (m : Memory) (a : Nat) : loByte (m.readWord a) = m.readByte (a + 1) := loByte_joinBytes _ _

/-! ### Rotation -/

/-- Memory after the rotation of the three words from an address up: the third goes to the top, the others up by one
(R307). -/
def Memory.rotated (m : Memory) (a : Nat) : Memory :=
  ((m.writeWord a (m.readWord (a + 4))).writeWord (a + 2) (m.readWord a)).writeWord (a + 4) (m.readWord (a + 2))

theorem Memory.wf_rotated {m : Memory} (hm : m.wf = true) {a : Nat} (ha : a + 5 < 4096) : (m.rotated a).wf = true :=
  Memory.wf_writeWord (Memory.wf_writeWord (Memory.wf_writeWord hm a _ (by omega)) (a + 2) _ (by omega)) (a + 4) _ ha

theorem Memory.readWord_rotated_top {m : Memory} (hm : m.wf = true) {a : Nat} (ha : a + 5 < 4096) :
    (m.rotated a).readWord a = m.readWord (a + 4) := by
  rw [Memory.rotated, Memory.readWord_writeWord_ne _ _ _ _ (by omega), Memory.readWord_writeWord_ne _ _ _ _ (by omega),
    Memory.readWord_writeWord hm _ _ (by omega)]

theorem Memory.readWord_rotated_second {m : Memory} (hm : m.wf = true) {a : Nat} (ha : a + 5 < 4096) :
    (m.rotated a).readWord (a + 2) = m.readWord a := by
  rw [Memory.rotated, Memory.readWord_writeWord_ne _ _ _ _ (by omega),
    Memory.readWord_writeWord (Memory.wf_writeWord hm _ _ (by omega)) _ _ (by omega)]

theorem Memory.readWord_rotated_third {m : Memory} (hm : m.wf = true) {a : Nat} (ha : a + 5 < 4096) :
    (m.rotated a).readWord (a + 4) = m.readWord (a + 2) :=
  Memory.readWord_writeWord (Memory.wf_writeWord (Memory.wf_writeWord hm _ _ (by omega)) _ _ (by omega)) _ _ (by omega)

theorem Memory.readByte_rotated_outside (m : Memory) {a b : Nat} (hb : b < a ∨ a + 5 < b) :
    (m.rotated a).readByte b = m.readByte b := by
  rw [Memory.rotated, Memory.readByte_writeWord_ne _ _ _ _ (by omega) (by omega),
    Memory.readByte_writeWord_ne _ _ _ _ (by omega) (by omega), Memory.readByte_writeWord_ne _ _ _ _ (by omega) (by omega)]

/-- Memories in canonical form that agree on three words from an address up and on every byte outside them are equal. -/
theorem Memory.eq_of_readWord_eq {m m' : Memory} (hm : m.wf = true) (hm' : m'.wf = true) {a : Nat}
    (h0 : m.readWord a = m'.readWord a) (h1 : m.readWord (a + 2) = m'.readWord (a + 2))
    (h2 : m.readWord (a + 4) = m'.readWord (a + 4)) (hout : ∀ b, b < a ∨ a + 5 < b → m.readByte b = m'.readByte b) :
    m = m' := by
  have hbytes {c : Nat} (h : m.readWord c = m'.readWord c) :
      m.readByte c = m'.readByte c ∧ m.readByte (c + 1) = m'.readByte (c + 1) := by
    rw [← Memory.hiByte_readWord, ← Memory.loByte_readWord, h, Memory.hiByte_readWord, Memory.loByte_readWord]
    exact ⟨rfl, rfl⟩
  refine Memory.ext_readByte hm hm' fun b => ?_
  by_cases hb : b < a ∨ a + 5 < b
  · exact hout b hb
  · have hin : b = a ∨ b = a + 1 ∨ b = a + 2 ∨ b = a + 2 + 1 ∨ b = a + 4 ∨ b = a + 4 + 1 := by omega
    rcases hin with rfl | rfl | rfl | rfl | rfl | rfl
    · exact (hbytes h0).1
    · exact (hbytes h0).2
    · exact (hbytes h1).1
    · exact (hbytes h1).2
    · exact (hbytes h2).1
    · exact (hbytes h2).2

/-- Three rotations are none. -/
theorem Memory.rotated_rotated_rotated {m : Memory} (hm : m.wf = true) {a : Nat} (ha : a + 5 < 4096) :
    ((m.rotated a).rotated a).rotated a = m := by
  have hm1 := Memory.wf_rotated hm ha
  have hm2 := Memory.wf_rotated hm1 ha
  refine Memory.eq_of_readWord_eq (Memory.wf_rotated hm2 ha) hm (a := a) ?_ ?_ ?_ fun b hb => ?_
  · rw [Memory.readWord_rotated_top hm2 ha, Memory.readWord_rotated_third hm1 ha, Memory.readWord_rotated_second hm ha]
  · rw [Memory.readWord_rotated_second hm2 ha, Memory.readWord_rotated_top hm1 ha, Memory.readWord_rotated_third hm ha]
  · rw [Memory.readWord_rotated_third hm2 ha, Memory.readWord_rotated_second hm1 ha, Memory.readWord_rotated_top hm ha]
  · rw [Memory.readByte_rotated_outside _ hb, Memory.readByte_rotated_outside _ hb, Memory.readByte_rotated_outside _ hb]

/-- `rot` with its three items in memory: all are read before any is written (R307). -/
theorem exec_rot_of_fits {s : State} {r : Reg} (h0 : wordFits (s16 (s.read r))) (h2 : wordFits (s16 (s.read r) + 4)) :
    exec (.rot r) s = .next { s with mem := s.mem.rotated (s16 (s.read r)).toNat } := by
  have h1 : wordFits (s16 (s.read r) + 2) := by omega
  have hsecond : (s16 (s.read r) + 2).toNat = (s16 (s.read r)).toNat + 2 := by omega
  have hthird : (s16 (s.read r) + 4).toNat = (s16 (s.read r)).toNat + 4 := by omega
  simp only [exec_rot, State.slot_zero, State.slot_one, State.slot_two, State.loadWord_of_fits h0,
    State.loadWord_of_fits h1, State.loadWord_of_fits h2, State.storeWord_of_fits h0, State.storeWord_of_fits h1,
    State.storeWord_of_fits h2, hsecond, hthird, Memory.rotated]

/-! ### Pop, and `sop` -/

/-- `pop` with its item in memory (R302). -/
theorem exec_pop_of_fits {s : State} {v r : Reg} (h : wordFits (s16 (s.read r))) :
    exec (.pop v r) s =
      .next ((s.write r (s.read r + 2)).write v (s.mem.readWord (s16 (s.read r)).toNat)) := by
  rw [exec_pop, State.slot_zero, State.loadWord_of_fits h, State.bump_two]

/-- `push` with its slot in memory (R301). -/
theorem exec_push_of_fits {s : State} {v r : Reg} (h : wordFits (s16 (s.read r - 2))) :
    exec (.push v r) s =
      .next (({ s with mem := s.mem.writeWord (s16 (s.read r - 2)).toNat (s.read v) } : State).write r (s.read r - 2)) := by
  rw [exec_push, State.pushWord_eq, if_pos h]
  rfl

theorem exec_sop_binary {f : AluOp} (hf : f.unary = false) (r : Reg) (s : State) :
    exec (.sop f r) s = s.sopBinary f r := by
  rw [exec_sop, if_neg (by simp [hf])]

theorem exec_sop_unary {f : AluOp} (hf : f.unary = true) (r : Reg) (s : State) : exec (.sop f r) s = s.sopUnary f r := by
  rw [exec_sop, if_pos hf]

theorem dividesByZero_of_unary {f : AluOp} (hf : f.unary = true) (b : Word) : dividesByZero f b = false := by
  cases f
  case not | lnot | neg => rfl
  all_goals cases hf

/-- A binary `sop` with both items in memory and no zero divisor (R308). -/
theorem exec_sop_binary_of_fits {f : AluOp} {r : Reg} {s : State} (hf : f.unary = false) (h0 : wordFits (s16 (s.read r)))
    (h1 : wordFits (s16 (s.read r) + 2))
    (hz : dividesByZero f (s.mem.readWord (s16 (s.read r)).toNat) = false) :
    let v := aluWord f (s.mem.readWord (s16 (s.read r) + 2).toNat) (s.mem.readWord (s16 (s.read r)).toNat)
    exec (.sop f r) s = .next ((({ s with mem := s.mem.writeWord (s16 (s.read r) + 2).toNat v } : State).write r
      (s.read r + 2)).setTest (decide (v ≠ 0))) := by
  intro v
  rw [exec_sop_binary hf, State.sopBinary, State.slot_zero, State.slot_one, State.loadWord_of_fits h0,
    State.loadWord_of_fits h1, State.aluThen_eq, if_neg (by simp [hz]), State.bump_two, State.storeWord_of_fits h1]
  rfl

/-- A unary `sop` with its item in memory (R308). -/
theorem exec_sop_unary_of_fits {f : AluOp} {r : Reg} {s : State} (hf : f.unary = true) (h0 : wordFits (s16 (s.read r))) :
    let v := aluWord f (s.mem.readWord (s16 (s.read r)).toNat) 0
    exec (.sop f r) s =
      .next (({ s with mem := s.mem.writeWord (s16 (s.read r)).toNat v } : State).setTest (decide (v ≠ 0))) := by
  intro v
  have hzero : (0 : Int) = s16 0 := rfl
  rw [exec_sop_unary hf, State.sopUnary, State.slot_zero, State.loadWord_of_fits h0, hzero, State.aluThen_eq,
    if_neg (by simp [dividesByZero_of_unary hf]), State.storeWord_of_fits h0]

end Sys2Proof.Machine
end

section
/-! The obligations about the stack instructions that push, pop, drop, rotate and compute. -/

namespace Sys2Proof.Machine

/-- Settles O27: both push the value they have before the stack register moves. -/
theorem pushStores : Obligations.PushStores := by
  unfold Obligations.PushStores
  refine ⟨encodes_push, encodesPair_pushi, fun s hm v r w => ⟨?push, ?pushi⟩⟩
  case push => exact pushes_of_exec_pushWord (v := fun s => s.read v) (exec_push v r s) hm
  case pushi => exact pushes_of_exec_pushWord (v := fun _ => w) (exec_pushi w r s) hm

/-- Settles O28: the value is written last. -/
theorem popLoads : Obligations.PopLoads := by
  unfold Obligations.PopLoads
  refine fun v r => ⟨encodes_pop v r, fun s => ⟨fun hfit => ?popped, fun hfit => ?faults⟩⟩
  case popped =>
    rw [exec_pop_of_fits hfit]
    refine Ends.next ⟨by simp, fun hne => by simp [hne], ?_⟩
    exact (unchanged_write_write s r v _ _).widen (by simp) id fun _ => id
  case faults =>
    rw [exec_pop, State.slot_zero]
    exact ends_loadWord_of_not_fits hfit s _

/-- Settles O30: one register write. -/
theorem dropDiscards : Obligations.DropDiscards := by
  unfold Obligations.DropDiscards
  exact fun r => ⟨encodes_drop r, sets_of_exec_write fun s => by rw [exec_drop, State.bump_two]⟩

/-- Settles O32: the three reads come first, so a failing one leaves the state as it was. -/
theorem rotRotates : Obligations.RotRotates := by
  unfold Obligations.RotRotates
  refine fun r => ⟨encodes_rot r, fun s hm => ⟨fun h0 h1 h2 => ?rotated, fun h0 => ?topFaults, fun h0 h1 => ?secondFaults,
    fun h0 h1 h2 => ?thirdFaults⟩⟩
  case rotated =>
    have hsecond : (s16 (s.read r) + 2).toNat = (s16 (s.read r)).toNat + 2 := by omega
    have hthird : (s16 (s.read r) + 4).toNat = (s16 (s.read r)).toNat + 4 := by omega
    have hin : (s16 (s.read r)).toNat + 5 < 4096 := by omega
    rw [exec_rot_of_fits h0 h2, hsecond, hthird]
    refine Ends.next ⟨Memory.readWord_rotated_top hm hin, Memory.readWord_rotated_second hm hin,
      Memory.readWord_rotated_third hm hin, unchanged_mem s _ _ fun a ha => Memory.readByte_rotated_outside _ ?_⟩
    omega
  case topFaults =>
    rw [exec_rot, State.slot_zero]
    exact ends_loadWord_of_not_fits h0 s _
  case secondFaults =>
    rw [exec_rot, State.slot_zero, State.slot_one, State.loadWord_of_fits h0]
    exact ends_loadWord_of_not_fits h1 s _
  case thirdFaults =>
    rw [exec_rot, State.slot_zero, State.slot_one, State.slot_two, State.loadWord_of_fits h0, State.loadWord_of_fits h1]
    exact ends_loadWord_of_not_fits h2 s _

/-- Settles O33: a rotation changes memory only, and three of the same three words change nothing. -/
theorem rotThrice : Obligations.RotThrice := by
  unfold Obligations.RotThrice
  intro s r hm h0 h2
  have hrot (m : Memory) : exec (.rot r) { s with mem := m } = .next { s with mem := m.rotated (s16 (s.read r)).toNat } :=
    exec_rot_of_fits (s := { s with mem := m }) h0 h2
  refine ⟨_, _, hrot s.mem, hrot _, ?_⟩
  rw [hrot, Memory.rotated_rotated_rotated hm (by omega)]

/-- Settles O34: the pop reads the word the push has stored, and moves the stack register back. -/
theorem pushThenPop : Obligations.PushThenPop := by
  unfold Obligations.PushThenPop
  intro s r r2 q hm hne hfit
  obtain ⟨m, hm'⟩ : ∃ m, m = s.mem.writeWord (s16 (s.read q - 2)).toNat (s.read r) := ⟨_, rfl⟩
  have hword : m.readWord (s16 (s.read q - 2)).toNat = s.read r := hm' ▸ Memory.readWord_writeWord hm _ _ (by omega)
  have hlow : (({ s with mem := m } : State).write q (s.read q - 2)).read q = s.read q - 2 := by simp
  have hback : (({ s with mem := m } : State).write q (s.read q - 2)).write q (s.read q - 2 + 2) = { s with mem := m } := by
    rw [State.write_write, sub_add_cancel]
    exact State.write_read { s with mem := m } q
  have hpop := exec_pop_of_fits (v := r2) (by rwa [hlow])
  rw [hlow, hback, State.write_mem, hword] at hpop
  refine ⟨_, _, hm' ▸ exec_push_of_fits hfit, hlow, hpop, by simp, by simp [hne.symm], ?_⟩
  have hstored := unchanged_writeWord s (s16 (s.read q - 2)) (s.read r) hfit
  rw [← hm'] at hstored
  exact (hstored.trans (unchanged_write _ r2 _)).widen (by simp) (by simp) (by simp)

/-- Settles O35: two reads, the ALU step, then the store where the second item was. -/
theorem sopBinary : Obligations.SopBinary := by
  unfold Obligations.SopBinary
  refine fun f r hf => ⟨encodes_sop f r, fun s hm => ⟨fun h0 h1 hz => ?computed, fun h0 h1 hz => ?divides,
    fun h0 => ?topFaults, fun h0 h1 => ?secondFaults⟩⟩
  case computed =>
    rw [exec_sop_binary_of_fits hf h0 h1 hz]
    refine Ends.next ⟨by simp, Memory.readWord_writeWord hm _ _ (by omega), State.testBit_setTest .., ?_⟩
    exact (((unchanged_writeWord s _ _ h1).trans (unchanged_write _ r _)).trans (unchanged_setTest _ _)).widen
      (by simp) (by simp) (by simp)
  case divides =>
    rw [exec_sop_binary hf, State.sopBinary, State.slot_zero, State.slot_one, State.loadWord_of_fits h0,
      State.loadWord_of_fits h1]
    exact ends_aluThen_of_dividesByZero hz s _ _
  case topFaults =>
    rw [exec_sop_binary hf, State.sopBinary, State.slot_zero]
    exact ends_loadWord_of_not_fits h0 s _
  case secondFaults =>
    rw [exec_sop_binary hf, State.sopBinary, State.slot_zero, State.slot_one, State.loadWord_of_fits h0]
    exact ends_loadWord_of_not_fits h1 s _

/-- Settles O36: one read, the ALU step, then the store where the item was. -/
theorem sopUnary : Obligations.SopUnary := by
  unfold Obligations.SopUnary
  refine fun f r hf => ⟨encodes_sop f r, fun s hm => ⟨fun h0 => ?computed, fun h0 => ?faults⟩⟩
  case computed =>
    rw [exec_sop_unary_of_fits hf h0]
    refine Ends.next ⟨Memory.readWord_writeWord hm _ _ (by omega), State.testBit_setTest .., ?_⟩
    exact ((unchanged_writeWord s _ _ h0).trans (unchanged_setTest _ _)).widen (by simp) (by simp) (by simp)
  case faults =>
    rw [exec_sop_unary hf, State.sopUnary, State.slot_zero]
    exact ends_loadWord_of_not_fits h0 s _

end Sys2Proof.Machine
end

section
/-! SUPPORT. The byte loads, the range check of the bus, the load of a container, and the assembler's patch. -/

namespace Sys2Proof.Machine

/-! ### Byte loads -/

theorem State.loadByte_of_fits {a : Int} (h : byteFits a) (s : State) (k : Byte → Result) :
    s.loadByte a k = k (s.mem.readByte a.toNat) := by
  rw [State.loadByte_eq, if_pos h]

/-- A byte load that fails takes its fault and writes no register (R73, R500). -/
theorem ends_loadByte_of_not_fits {a : Int} (h : ¬ byteFits a) (s : State) (k : Byte → Result) :
    Ends (FaultTaken .memoryFault a .permanentError s) (s.loadByte a k) := by
  rw [State.loadByte_eq, if_neg h]
  exact ends_raise_memoryFault s a

/-- An instruction that is a byte load leaves the byte at its address, extended by sign, in its register (R400, R401). -/
theorem loadsFrom_of_exec_loadByteInto {i : Instr} {t : Reg} {ea : State → Int}
    (h : ∀ s, exec i s = s.loadByteInto t (ea s)) :
    LoadsFrom i t ea byteFits fun s a => (s.mem.readByte a).signExtend 16 := by
  intro s
  rw [h, State.loadByteInto]
  refine ⟨fun hfit => ?loaded, fun hfit => ends_loadByte_of_not_fits hfit s _⟩
  case loaded =>
    rw [State.loadByte_of_fits hfit]
    exact Ends.next ⟨by rw [State.read_write, if_pos rfl]; rfl, unchanged_write s t _⟩

/-! ### The range check -/

/-- The check fails for an access with a byte outside memory, and for a word at an odd address where the policy says so
(R73, R76). -/
theorem accessOk_eq_false {m : MisalignedPolicy} {a : Int} {n : Width}
    (h : a < 0 ∨ a + accessBytes n - 1 > 4095 ∨ m = .fault ∧ n = .word ∧ a % 2 ≠ 0) : accessOk m a n = false := by
  rcases h with h | h | ⟨hm, hn, ha⟩
  · simp [accessOk, inRange, show ¬ 0 ≤ a by omega]
  · simp [accessOk, inRange, show ¬ a + accessBytes n - 1 ≤ 4095 by omega]
  · simp [accessOk, hm, hn, ha]

/-- A request that fails its check is not performed (R72, R73). -/
theorem ends_bus_of_not_accessOk {p : Params} {q : BusRequest} (h : accessOk p.misalignedPolicy q.addr q.width = false)
    (s : State) (k : Word → State → Result) :
    Ends (FaultTaken .memoryFault q.addr .permanentError s) (s.bus q k p) := by
  unfold State.bus
  rw [if_neg (by simp [h])]
  exact ends_raise_memoryFault s q.addr

/-- Under MISALIGNED_POLICY = allow a word in memory is read at an odd address as at an even one (R76). -/
theorem bus_readWord_of_allow {p : Params} (hp : p.misalignedPolicy = .allow) {a : Int} (h : wordFits a) (s : State)
    (k : Word → State → Result) : s.bus (.read a .word) k p = k (s.mem.readWord a.toNat) s := by
  have hok : accessOk p.misalignedPolicy a .word = true := by
    rw [hp]
    exact (accessOk_default a .word).trans ((inRange_word a).mpr h)
  unfold State.bus
  exact if_pos hok

/-! ### The load of a container -/

/-- A container is loaded where none of the three reasons for a refusal is met (R601). -/
theorem load_eq_machine_iff {c : Container} {arg : Option (List Byte)} {p : Params} {s : State} :
    load c arg p = .machine s ↔ (c.format = "Orc1" ∧ c.code.length + c.data.length ≤ 4096 ∧ c.sprites.length ≤ 10) ∧
      s = loadedState c arg p := by
  unfold load
  split_ifs with hformat hsize hsprites
  · simp [hformat]
  · simp only [false_iff]; omega
  · simp only [false_iff]; omega
  · simp only [Loaded.machine.injEq]
    exact ⟨fun h => ⟨⟨not_not.mp hformat, by omega, by omega⟩, h.symm⟩, fun h => h.2.symm⟩

/-- A load that is refused is one that gives no machine. -/
theorem load_refused_iff {c : Container} {arg : Option (List Byte)} :
    (∃ r, load c arg = .refused r) ↔
      c.format ≠ "Orc1" ∨ c.code.length + c.data.length > 4096 ∨ c.sprites.length > 10 := by
  unfold load
  split_ifs <;> simp_all

/-- The bytes of the loaded image, and zero above it (R55, R81, R601). -/
theorem readByte_loadedMemory {c : Container} (h : c.code.length + c.data.length ≤ 4096) (a : Nat) :
    (loadedMemory c none).readByte a =
      if ha : a < (c.code ++ c.data).length then containerByte (c.code ++ c.data)[a] else 0 := by
  have hlen : (imageOf c).length = (c.code ++ c.data).length := by simp [imageOf]
  have hsize : (c.code ++ c.data).length ≤ 4096 := by simpa using h
  rw [loadedMemory, Memory.readByte_writeBytes rfl]
  split_ifs with h1 h2 h2
  · simp only [imageOf, List.getElem_map, Nat.sub_zero]
  · omega
  · omega
  · rfl

/-- The low 16 bits of a count are the pattern of the count. -/
theorem trunc16_natCast (n : Nat) : trunc16 (n : Int) = BitVec.ofNat 16 n := BitVec.ofInt_natCast 16 n

theorem trunc16_natCast_sub_one (n : Nat) : trunc16 ((n : Int) - 1) = BitVec.ofNat 16 n - 1 := by
  rw [trunc16, sub_eq_add_neg, BitVec.ofInt_add, BitVec.ofInt_natCast, BitVec.sub_eq_add_neg]
  rfl

/-- The machine a load gives meets the invariant: memory is canonical, and the rest is as at reset (R55). -/
theorem loadedState_inv (c : Container) (arg : Option (List Byte)) (p : Params) : (loadedState c arg p).Inv :=
  ⟨loadedMemory_wf c arg, fun _ _ => BitVec.getLsbD_zero, rfl, recordsAgree_of_no_fault (.inl rfl) rfl rfl⟩

theorem startOfRun_loadedState_inv (c : Container) (arg : Option (List Byte)) (p : Params) :
    (loadedState c arg p).startOfRun.Inv := by
  rw [State.startOfRun_of_ready rfl]
  exact ⟨loadedMemory_wf c arg, fun _ _ => BitVec.getLsbD_zero, rfl, recordsAgree_of_no_fault (.inr rfl) rfl rfl⟩

/-! ### The patch -/

/-- A patched jump word is the type of the old word above the address (R137). -/
theorem patchWord_false_eq_append (w : Word) (a : Nat) :
    patchWord false w a = typeOf w ++ BitVec.ofNat 12 a := by
  rw [← jumpWord_eq_append, BitVec.toNat_ofNat]
  rfl

/-- The low 12 bits of a type nibble followed by a target are the target (R117). -/
theorem extractLsb'_append_target (n : Nib) (a : Target) : (n ++ a).extractLsb' 0 12 = a := by
  apply BitVec.eq_of_toNat_eq
  have htarget := congrArg BitVec.toNat (targetOf_append n a)
  simpa [targetOf] using htarget

end Sys2Proof.Machine
end

section
/-! The obligations about the byte loads and `la`, memory, the load of a container and the assembler's patch. -/

namespace Sys2Proof.Machine

/-- Settles O19: one register write, that of `li`. -/
theorem loadAddress : Obligations.LoadAddress := by
  unfold Obligations.LoadAddress
  refine fun t w => ⟨encodesPair_la t w, sets_of_exec_write (exec_la t w), fun s => ?_⟩
  rw [exec_la, exec_li]

/-- Settles O40: each of the three is one byte load into its register. -/
theorem byteLoads : Obligations.ByteLoads := by
  unfold Obligations.ByteLoads
  refine ⟨fun b o t => ⟨encodes_lbr b o t, ?lbr⟩, fun t w => ⟨encodesPair_lb t w, ?lb⟩,
    fun t o w => ⟨encodesPair_lbo t o w, ?lbo⟩⟩
  case lbr => exact loadsFrom_of_exec_loadByteInto (exec_lbr b o t)
  case lb => exact loadsFrom_of_exec_loadByteInto (exec_lb t w)
  case lbo => exact loadsFrom_of_exec_loadByteInto (exec_lbo t o w)

/-- Settles O50: the check comes before the access. -/
theorem busRangeCheck : Obligations.BusRangeCheck := by
  unfold Obligations.BusRangeCheck
  exact ⟨fun p s q k h => ends_bus_of_not_accessOk (accessOk_eq_false h) s k, rfl,
    fun p s a k hp hfit => bus_readWord_of_allow hp hfit s k⟩

/-- Settles O51: a word is its two bytes, the high one at the lower address. -/
theorem bigEndianWords : Obligations.BigEndianWords := by
  unfold Obligations.BigEndianWords
  refine ⟨fun m a => joinBytes_eq_append _ _, fun m a v hm ha => ⟨?high, ?low, ?others, ?canonical⟩,
    fun m a v hm ha => ?byte⟩
  case high => rw [Memory.readByte_writeWord hm _ _ _ (by omega), if_pos rfl, hiByte_eq_extractLsb']
  case low =>
    rw [Memory.readByte_writeWord hm _ _ _ (by omega), if_neg (by omega), if_pos rfl, loByte_eq_extractLsb']
  case others => exact fun b hb hb' => Memory.readByte_writeWord_ne m a b v hb hb'
  case canonical => exact Memory.wf_writeWord hm a v (by omega)
  case byte =>
    rw [← loByte_eq_extractLsb', Memory.loByte_readWord, Memory.readWord, Memory.readByte_writeByte_self hm,
      Memory.readByte_writeByte_ne _ _ _ _ (by omega), joinBytes_eq_append]

/-- Settles O56: the three checks of the load. -/
theorem loadRefusals : Obligations.LoadRefusals := by
  unfold Obligations.LoadRefusals
  exact fun _ _ => load_refused_iff

/-- Settles O58: a load sets no field the invariant speaks of but memory. -/
theorem loadMeetsInvariant : Obligations.LoadMeetsInvariant := by
  unfold Obligations.LoadMeetsInvariant
  intro c arg s hload
  obtain ⟨-, rfl⟩ := load_eq_machine_iff.mp hload
  exact ⟨loadedState_inv c arg _, startOfRun_loadedState_inv c arg _⟩

/-- Settles O59: the load of an empty container, computed. -/
theorem resetIsEmptyLoad : Obligations.ResetIsEmptyLoad := by
  unfold Obligations.ResetIsEmptyLoad
  exact load_eq_machine_iff.mpr ⟨⟨rfl, by decide, by decide⟩, rfl⟩

/-- Settles O60: a patched jump word is its type and the address, which is how the encoder writes a jump. -/
theorem patchRewritesAddressBits : Obligations.PatchRewritesAddressBits := by
  unfold Obligations.PatchRewritesAddressBits
  refine ⟨fun w a ha => ⟨?kept, ?replaced⟩, fun w a ha => ?second, fun a => ?jumps⟩
  case kept => rw [patchWord_false_eq_append, ← typeOf_eq_extractLsb', ← typeOf_eq_extractLsb', typeOf_append]
  case replaced =>
    rw [patchWord_false_eq_append, extractLsb'_append_target, BitVec.toNat_ofNat]
    omega
  case second =>
    rw [patchWord, if_pos rfl, BitVec.toNat_ofNat]
    omega
  case jumps =>
    have hpatch (n : Nib) (w : Word) (hw : typeOf w = n) : patchWord false w a.toNat = n ++ a := by
      rw [patchWord_false_eq_append, hw, BitVec.ofNat_toNat, BitVec.setWidth_eq]
    rw [hpatch 0xC _ rfl, hpatch 0xD _ rfl, hpatch 0xE _ rfl, hpatch 0xF _ rfl]
    exact ⟨(encodes_j a).1, (encodes_jz a).1, (encodes_jnz a).1, (encodes_jal a).1⟩

end Sys2Proof.Machine

/-! In `Machine` the name of the next theorem is taken by the function it is about. -/

namespace Sys2Proof

open Machine

/-- Settles O57: memory is the image and zeros, and every other piece is written by the load or is that of the reset. -/
theorem loadedState : Obligations.LoadedState := by
  unfold Obligations.LoadedState
  refine ⟨rfl, fun p c s hload => ?_⟩
  obtain ⟨⟨-, hsize, -⟩, rfl⟩ := load_eq_machine_iff.mp hload
  have hbyte := readByte_loadedMemory hsize
  refine ⟨fun a ha => ?code, fun a ha => ?data, fun a ha => ?zero, fun q hq => ?registers, rfl, ?bp, ?cb, ?db,
    joinBytes_eq_append _ _, rfl, rfl, rfl, rfl, rfl, rfl, rfl, rfl, rfl, rfl, rfl, rfl⟩
  case code =>
    refine (hbyte a).trans ?_
    rw [dif_pos (by rw [List.length_append]; omega), List.getElem_append_left ha]
    rfl
  case data =>
    refine (hbyte _).trans ?_
    rw [dif_pos (by rw [List.length_append]; omega), List.getElem_append_right (by omega)]
    simp [containerByte]
  case zero =>
    refine (hbyte a).trans ?_
    rw [dif_neg (by rw [List.length_append]; omega)]
  case registers =>
    cases q
    case sp | bp => simp at hq
    all_goals rfl
  case bp => exact trunc16_natCast _
  case cb => exact trunc16_natCast_sub_one _
  case db => exact trunc16_natCast_sub_one _

end Sys2Proof
end
